-- ==== Sys2Proof/Word.lean ====
section
/-! DEFINITION. The plain data types of the HUFF core: register words, port bytes and symbols
(spec/00_scope.md R8, R10, R11). -/

namespace Sys2Proof

/-- A register value: an unsigned 32-bit number (R8 `REG_W`, R10). -/
abbrev Word := BitVec 32

/-- An item of BYTE_IN or BYTE_OUT: an 8-bit unsigned value (R86, R120). -/
abbrev Byte := BitVec 8

/-- A symbol of the alphabet: the byte values 0 to 255 and EOF = 256 (R3, R8 `ASIZE`). -/
abbrev Sym := Fin 257

/-- The end-of-data sentinel `EOF_SYM` = 256 (R8). -/
abbrev eof : Sym := 256

/-- A bit string, in the order the block sends or receives it (R11). -/
abbrev Bits := List Bool

end Sys2Proof
end

