-- ==== Sys2Proof/Config.lean ====
section
/-! DEFINITION. The fixed parameters of the HUFF core (spec/00_scope.md R8) and the one free value
of its spec (spec/10_state.md R57, spec/20_memory.md R82). The platform's parameter `HUFF_BASE`
(R80) is held in the state (`Env.basePage`), so that every statement quantifies over it. -/

namespace Sys2Proof

/-- The register window is 2048 bytes, offsets 0x000 to 0x7FF (R8, R80). -/
def Config.windowBytes : Nat := 2048

/-- `MAX_BRANCHES`: a valid tree has at most 256 branches (R8). -/
def Config.maxBranches : Nat := 256

/-- The "unspecified 32-bit value" that a read of R57 or R82 returns: the `n`-th value drawn.
It has no body, so nothing can be proved of what it is (assumption 1). -/
opaque Config.freeWord : Nat → Word

end Sys2Proof
end

