-- ==== Sys2Proof/Syntax.lean ====
section
/-! DEFINITION. The operations of the HUFF core: one constructor of `Instr` for each row of
spec/opcode_table.json, and the host's bus accesses and register names they are written in
(spec/30_encoding.md R110 to R123, spec/10_state.md R32). -/

namespace Sys2Proof

/-- One constructor per row of the opcode table. The first ten are command words written to CMD
(R111, R112); the last four are bus accesses (R123). -/
inductive Instr where
  /-- NOP, word 0x00000000 (R244). -/
  | nop
  /-- CLEAR_FREQ, word 0x00000001 (R143). -/
  | clearFreq
  /-- BUILD, word 0x00000002 (R146). -/
  | build
  /-- WRITE_HEADER, word 0x00000003 (R170). -/
  | writeHeader
  /-- READ_HEADER, word 0x00000004 (R176). -/
  | readHeader
  /-- ENCODE, word 0x00000005 (R201). -/
  | encode
  /-- DECODE, word 0x00000006 (R222). -/
  | decode
  /-- The reserved opcode 0x7 with RSV = 0 (R112, R245). -/
  | illegalOp7
  /-- The reserved opcodes 0x8 to 0xF with RSV = 0; `low` is OP[2:0] (R112, R245). -/
  | illegalOp8F (low : BitVec 3)
  /-- Every word with RSV ≠ 0, whatever its OP (R112, R245). -/
  | illegalRsv (rsv : BitVec 28) (op : BitVec 4)
  /-- SETF: a write of the count `n` to FREQ_v (R141). -/
  | setf (v : BitVec 8) (n : Word)
  /-- RD FREQ: a read of FREQ_v (R142). -/
  | rdFreq (v : BitVec 8)
  /-- WR CODE_SEL: a write of `data` to CODE_SEL (R150). -/
  | wrCodeSel (data : Word)
  /-- ABORT: a write of `data` to CTRL, whose bit 0 is the request (R246, R48). -/
  | abort (data : Word)
deriving DecidableEq, Repr

/-- The registers of the window by name (R32); `reserved` stands for the offsets 0x030 to 0x03C
and 0x060 to 0x3FC (R83). -/
inductive Reg where
  | id | ctrl | cmd | status | errInfo | bitsIn | bitsOut | bytesIn | bytesOut | leaves
  | codeSel | codeLen
  | codeBits (k : Fin 8)
  | freq (v : BitVec 8)
  | reserved
deriving DecidableEq, Repr

/-- What a bus access does: read, or write `data` (R12 `MemRead`, `MemWrite`). -/
inductive BusOp where
  | read
  | write (data : Word)
deriving DecidableEq, Repr

/-- The width of a bus access; only `word` (32 bits) takes effect (R81, R82). -/
inductive Width where
  | byte | half | word
deriving DecidableEq, Repr

/-- One host access on the bus, by its full address `HUFF_BASE + off` (R80). -/
structure Access where
  addr  : Nat
  width : Width
  op    : BusOp
deriving DecidableEq, Repr

/-- An access as the block's window sees it: the triple (W or R, offset, data) of R123. -/
structure Txn where
  offset : BitVec 11
  op     : BusOp
deriving DecidableEq, Repr

end Sys2Proof
end

