-- ==== Sys2Proof/WellFormed.lean ====
section
/-! DEFINITION. Which terms of `Instr` stand for an operation of the hardware
(spec/30_encoding.md R111, R112). -/

namespace Sys2Proof

/-- The row ILLEGAL (RSV ≠ 0) is only the words whose bits 31:4 are not all 0 (R112): with
RSV = 0 the word belongs to another row. Every other field may hold every value of its width. -/
def Instr.wellFormed : Instr → Bool
  | .nop => true
  | .clearFreq => true
  | .build => true
  | .writeHeader => true
  | .readHeader => true
  | .encode => true
  | .decode => true
  | .illegalOp7 => true
  | .illegalOp8F _ => true
  | .illegalRsv rsv _ => rsv != 0
  | .setf _ _ => true
  | .rdFreq _ => true
  | .wrCodeSel _ => true
  | .abort _ => true

end Sys2Proof
end

