-- ==== Sys2Proof/Decode.lean ====
section
/-! DEFINITION. Decoding of command words and bus accesses, total and refusing by name, and the
encoder written from the same tables (spec/30_encoding.md R110 to R112, R123; spec/10_state.md R32;
spec/20_memory.md R80 to R83). -/

namespace Sys2Proof

/-- Why a host access is no operation of the opcode table. None of these stops the machine: each
has the effect its rule gives (`Machine.plainAccess`). -/
inductive NotInstr where
  /-- The address is outside the 2048-byte window: the block is not reached (R80). -/
  | outsideWindow
  /-- Narrower than 32 bits (R82). -/
  | narrow
  /-- An offset that is not a multiple of 4 (R82). -/
  | misaligned
  /-- A read of a register other than FREQ_v, or of a reserved offset (R32, R83). -/
  | registerRead (r : Reg)
  /-- A write to a read-only register or a reserved offset (R83). -/
  | ignoredWrite (r : Reg)
deriving DecidableEq, Repr

/-- What the decoder answers: an operation of the opcode table, or why the access is none. -/
inductive Decoded where
  | instr (i : Instr)
  | other (why : NotInstr)
deriving DecidableEq, Repr

/-- The command of a word written to CMD (R111, R112): total, since every word that is not one of
the seven legal ones is one of the illegal rows. -/
def decodeCommand (w : Word) : Instr :=
  if w.extractLsb' 4 28 ≠ 0 then .illegalRsv (w.extractLsb' 4 28) (w.extractLsb' 0 4)
  else match (w.extractLsb' 0 4).toNat with
    | 0 => .nop
    | 1 => .clearFreq
    | 2 => .build
    | 3 => .writeHeader
    | 4 => .readHeader
    | 5 => .encode
    | 6 => .decode
    | 7 => .illegalOp7
    | _ => .illegalOp8F (w.extractLsb' 0 3)

/-- The register at an aligned offset of the window (R32): FREQ_v stands at 0x400 + 4v, so v is
offset bits 9:2, and CODE_BITS_k at 0x040 + 4k. -/
def regAt (off : BitVec 11) : Reg :=
  if 0x400 ≤ off.toNat then .freq (off.extractLsb' 2 8)
  else if 0x040 ≤ off.toNat ∧ off.toNat < 0x060 then .codeBits (Fin.ofNat 8 (off.toNat / 4))
  else match off.toNat with
    | 0x000 => .id
    | 0x004 => .ctrl
    | 0x008 => .cmd
    | 0x00C => .status
    | 0x010 => .errInfo
    | 0x014 => .bitsIn
    | 0x018 => .bitsOut
    | 0x01C => .bytesIn
    | 0x020 => .bytesOut
    | 0x024 => .leaves
    | 0x028 => .codeSel
    | 0x02C => .codeLen
    | _ => .reserved

/-- The operation of an aligned 32-bit transaction on a register (R123), if it is one. -/
def decodeReg : Reg → BusOp → Decoded
  | .cmd, .write w => .instr (decodeCommand w)
  | .ctrl, .write v => .instr (.abort v)
  | .codeSel, .write s => .instr (.wrCodeSel s)
  | .freq v, .write n => .instr (.setf v n)
  | .freq v, .read => .instr (.rdFreq v)
  | r, .read => .other (.registerRead r)
  | r, .write _ => .other (.ignoredWrite r)

/-- The decoder of a 32-bit transaction inside the window; a misaligned one is none (R81, R82). -/
def decode (t : Txn) : Decoded :=
  if t.offset.extractLsb' 0 2 ≠ 0 then .other .misaligned else decodeReg (regAt t.offset) t.op

/-- The decoder of a host access on the bus, for a window at `base` = `HUFF_BASE` (R80 to R82). -/
def decodeAccess (base : Nat) (a : Access) : Decoded :=
  if a.addr < base ∨ base + Config.windowBytes ≤ a.addr then .other .outsideWindow
  else if a.width ≠ .word then .other .narrow
  else decode ⟨BitVec.ofNat 11 (a.addr - base), a.op⟩

/-- The operation an answer of the decoder names, if any. -/
def Decoded.instr? : Decoded → Option Instr
  | .instr i => some i
  | .other _ => none

/-! ### The encoder -/

/-- The command word of the row ILLEGAL (OP 0x8..0xF): RSV = 0, OP = 1 ++ `low` (R110, R112). -/
def op8FWord (low : BitVec 3) : Word := (0#28 ++ 1#1 ++ low : BitVec (28 + 1 + 3))

/-- The command word of the row ILLEGAL (RSV ≠ 0): RSV in bits 31:4, OP in bits 3:0 (R110). -/
def rsvWord (rsv : BitVec 28) (op : BitVec 4) : Word := (rsv ++ op : BitVec (28 + 4))

/-- The offset of a register (R32); a reserved one is given by its first offset, 0x030. -/
def regOffset : Reg → BitVec 11
  | .id => 0x000
  | .ctrl => 0x004
  | .cmd => 0x008
  | .status => 0x00C
  | .errInfo => 0x010
  | .bitsIn => 0x014
  | .bitsOut => 0x018
  | .bytesIn => 0x01C
  | .bytesOut => 0x020
  | .leaves => 0x024
  | .codeSel => 0x028
  | .codeLen => 0x02C
  | .codeBits k => BitVec.ofNat 11 (0x040 + 4 * k.val)
  | .freq v => (1#1 ++ v ++ 0#2 : BitVec (1 + 8 + 2))
  | .reserved => 0x030

/-- The transaction of an operation (R123): the pair (offset, data) of a write, or a read. -/
def encode (i : Instr) : Txn :=
  match i with
  | .setf v n => ⟨regOffset (.freq v), .write n⟩
  | .rdFreq v => ⟨regOffset (.freq v), .read⟩
  | .wrCodeSel s => ⟨regOffset .codeSel, .write s⟩
  | .abort v => ⟨regOffset .ctrl, .write v⟩
  | .nop => ⟨regOffset .cmd, .write 0x00000000⟩
  | .clearFreq => ⟨regOffset .cmd, .write 0x00000001⟩
  | .build => ⟨regOffset .cmd, .write 0x00000002⟩
  | .writeHeader => ⟨regOffset .cmd, .write 0x00000003⟩
  | .readHeader => ⟨regOffset .cmd, .write 0x00000004⟩
  | .encode => ⟨regOffset .cmd, .write 0x00000005⟩
  | .decode => ⟨regOffset .cmd, .write 0x00000006⟩
  | .illegalOp7 => ⟨regOffset .cmd, .write 0x00000007⟩
  | .illegalOp8F low => ⟨regOffset .cmd, .write (op8FWord low)⟩
  | .illegalRsv rsv op => ⟨regOffset .cmd, .write (rsvWord rsv op)⟩

/-! ### The opcode table's words -/

/-- The transaction that a word of spec/opcode_table.json stands for. A row of 32 bits is a command
word, the data of a write to CMD; a shorter row gives the window offset (its match and mask apply
to offset bits 10:0) of an access whose data bits are all 0. SETF and RD_FREQ have the same offset
bits in the table, and such a word is read as the write (assumption 9). -/
def tableTxn (nbits w : Nat) : Txn :=
  if 32 ≤ nbits then ⟨0x008, .write (BitVec.ofNat 32 w)⟩ else ⟨BitVec.ofNat 11 w, .write 0⟩

/-- The instruction the decoder reads from a word of the opcode table. -/
def decodeTableWord (nbits w : Nat) : Option Instr := (decode (tableTxn nbits w)).instr?

end Sys2Proof
end

