-- ==== Sys2Proof/Machine/Bits.lean ====
section
/-! DEFINITION. Bit strings read as numbers, least significant bit first: the 9-bit symbol field of
the header (spec/30_encoding.md R116), the packing of a code into CODE_BITS (spec/10_state.md R44)
and the byte lanes of a register (spec/20_memory.md R85). -/

namespace Sys2Proof.Machine

open Sys2Proof

/-- The number whose bit i is the i-th bit of the string: bit i contributes `bit * 2^i` (R116). -/
def valueLE : Bits → Nat
  | [] => 0
  | b :: bs => b.toNat + 2 * valueLE bs

/-- The `n` low bits of `v`, least significant first. -/
def bitsLE : Nat → Nat → Bits
  | 0, _ => []
  | n + 1, v => (v % 2 == 1) :: bitsLE n (v / 2)

/-- The 9-bit symbol field `f9(v) = v[0] ++ v[1] ++ ... ++ v[8]` (R116). -/
def f9 (v : Nat) : Bits := bitsLE 9 v

/-- The 32-bit word whose bit j is bit `32k + j` of the code, and 0 past the code's end (R44). -/
def codeBitsWord (c : Bits) (k : Nat) : Word := BitVec.ofNat 32 (valueLE ((c.drop (32 * k)).take 32))

/-- Byte lane i of a register word: bits 8i+7 : 8i (R85, little-endian). -/
def wordByte (w : Word) (i : Nat) : Byte := w.extractLsb' (8 * i) 8

end Sys2Proof.Machine
end

