-- ==== Sys2Proof/Machine/Tree.lean ====
section
/-! DEFINITION. The code tree, its codes and its header (spec/10_state.md R35 to R38,
spec/30_encoding.md R115, spec/40_tree_builder.md R144 to R146 for the nodes of BUILD). -/

namespace Sys2Proof.Machine

open Sys2Proof

/-- A code tree (R35): a leaf has a symbol and no children, a branch has exactly two children and
no symbol. -/
inductive Tree where
  | leaf (s : Sym)
  | branch (l r : Tree)
deriving DecidableEq, Repr

/-- The symbols of the leaves, left to right (pre-order). -/
def Tree.leaves : Tree → List Sym
  | .leaf s => [s]
  | .branch l r => l.leaves ++ r.leaves

/-- How many branches the tree has. -/
def Tree.branches : Tree → Nat
  | .leaf _ => 0
  | .branch l r => l.branches + r.branches + 1

/-- Whether the node is a branch. -/
def Tree.isBranch : Tree → Bool
  | .leaf _ => false
  | .branch _ _ => true

/-- The nodes of the tree, each given by the subtree below it, in pre-order. -/
def Tree.nodes : Tree → List Tree
  | .leaf s => [.leaf s]
  | .branch l r => .branch l r :: (l.nodes ++ r.nodes)

/-- The code tree invariants of R36 (1) and (2): exactly one leaf carries EOF, and no two leaves
carry the same symbol. That a symbol is at most 256 and that a branch has two children (R36 (4))
hold by the type. -/
abbrev Tree.Valid (t : Tree) : Prop := eof ∈ t.leaves ∧ t.leaves.Nodup

/-- `codes(t, p)` of R37 as a list of pairs (symbol, bit string), in pre-order; `false` is the bit
0 of a step to a left child and `true` the bit 1 of a step to a right child. -/
def Tree.codesFrom : Tree → Bits → List (Sym × Bits)
  | .leaf s, p => [(s, p)]
  | .branch l r, p => l.codesFrom (p ++ [false]) ++ r.codesFrom (p ++ [true])

/-- `codes(t)` of R37. -/
def Tree.codes (t : Tree) : List (Sym × Bits) := t.codesFrom []

/-- `codes(t)(s)`, and none when s is not mapped in t (R37, R41). -/
def Tree.codeOf (t : Tree) (s : Sym) : Option Bits := t.codes.lookup s

/-- The header `hdr(t)` of R115: `1` and the symbol field for a leaf; `0`, the left subtree and
the right subtree for a branch. -/
def Tree.hdr : Tree → Bits
  | .leaf s => true :: f9 s.val
  | .branch l r => false :: (l.hdr ++ r.hdr)

/-- The symbol of a byte value (R3: the byte values 0 to 255 are symbols). -/
def symOfByte (b : Byte) : Sym := Fin.ofNat 257 b.toNat

/-- The payload of a message (R114): the codes of its bytes, then the EOF code; none when one of
them is not mapped. -/
def Tree.payload (t : Tree) : List Byte → Option Bits
  | [] => t.codeOf eof
  | b :: bs =>
    match t.codeOf (symOfByte b), t.payload bs with
    | some c, some rest => some (c ++ rest)
    | _, _ => none

/-! ### The priority structure of BUILD (R144, R145) -/

/-- A node in the priority structure: weight, sequence number and tree (R145). Weights are exact
natural numbers (R147). -/
structure Node where
  w : Nat
  k : Nat
  t : Tree
deriving DecidableEq, Repr

/-- The order of R145: by weight, then by sequence number. -/
def Node.before (a b : Node) : Bool := a.w < b.w || (a.w == b.w && a.k < b.k)

/-- The leaves of R144 for the counts of the symbols `v`, `v + 1`, … with sequence numbers from
`k`: one for each nonzero count in ascending order, then the EOF leaf with weight 1. -/
def leafNodes (v k : Nat) : List Word → List Node
  | [] => [⟨1, k, .leaf eof⟩]
  | c :: cs =>
    if c ≠ 0 then ⟨c.toNat, k, .leaf (Fin.ofNat 257 v)⟩ :: leafNodes (v + 1) (k + 1) cs
    else leafNodes (v + 1) k cs

/-- The element of Q that is first in the order of R145, and Q without it. -/
def takeFirst : List Node → Option (Node × List Node)
  | [] => none
  | a :: rest =>
    match takeFirst rest with
    | none => some (a, [])
    | some (m, q) => if m.before a then some (m, a :: q) else some (a, rest)

/-- The loop of R146: while Q has more than one element, the first two are removed and their
branch (first removed = left) is added with the next sequence number `k`. Each turn makes Q one
shorter, so `fuel` = |Q| turns are enough. -/
def mergeNodes : (fuel k : Nat) → List Node → Option Node
  | 0, _, _ => none
  | fuel + 1, k, q =>
    match takeFirst q with
    | none => none
    | some (a, q1) =>
      match takeFirst q1 with
      | none => some a
      | some (b, q2) => mergeNodes fuel (k + 1) (q2 ++ [⟨a.w + b.w, k, .branch a.t b.t⟩])

/-- The root node BUILD ends with, for the counts of the symbols 0, 1, … (R146). -/
def buildRoot (freq : List Word) : Option Node :=
  let q := leafNodes 0 0 freq
  mergeNodes q.length q.length q

end Sys2Proof.Machine
end

