-- ==== Sys2Proof/Machine/State.lean ====
section
/-! DEFINITION. The state of the machine: the block's architectural state (spec/10_state.md R30) and
the agents outside it (spec/00_scope.md R7), with the values after reset (R59). -/

namespace Sys2Proof.Machine

open Sys2Proof

/-- The error codes of STATUS.ERRCODE that are ever reported (spec/60_exceptions.md R260). -/
inductive ErrorCode where
  | none | illegalCmd | noTree | hdrTruncated | hdrBadSymbol | hdrDupSymbol | hdrTooManyNodes
  | hdrNoEof | encUnmapped | decTruncated | aborted
deriving DecidableEq, Repr

/-- An item on BIT_IN: a bit, or the end-of-data signal EOD (spec/20_memory.md R86). -/
inductive BitItem where
  | bit (b : Bool)
  | eod
deriving DecidableEq, Repr

/-- An item on BYTE_IN: `Byte(v)` or `End` (R86). -/
inductive ByteItem where
  | byte (v : Byte)
  | endOfMessage
deriving DecidableEq, Repr

/-- The progress of READ_HEADER (R53). -/
structure ReadProgress where
  /-- The branches read so far that are not complete, innermost first: `none` while the left child
  is being read, `some l` when the left child is `l` and the right child is still to be read. -/
  open_   : List (Option Tree)
  /-- SEEN: the symbol values read so far, latest first. -/
  seen    : List Sym
  /-- NBR: the branch discriminators read so far. -/
  nbr     : Nat
  /-- Inside a leaf, the value bits read so far, in arrival order. -/
  field   : Option Bits
  /-- The item the last InBit() returned, which the next engine step works on (R242). -/
  pending : Option BitItem
deriving DecidableEq, Repr

/-- The position of ENCODE (R54): before its first step, with an item received, or sending the code
of a symbol from the bit at `index`. -/
inductive EncodeProgress where
  | start
  | got (item : ByteItem)
  | send (sym : Sym) (index : Nat)
deriving DecidableEq, Repr

/-- The position of DECODE (R55): before its first step, with the cursor at `cur` and an item
received, or just after a byte was sent, with the cursor back at the root. -/
inductive DecodeProgress where
  | start
  | got (cur : Tree) (item : BitItem)
  | emitted
deriving DecidableEq, Repr

/-- The engine's sequencer state `seq` (R33) with the progress of the running command (R52 to
R55). An illegal command keeps the word written, which its end reports (R245). -/
inductive Seq where
  | idle
  | nop
  | clearFreq
  | build
  | writeHeader (pos : Nat)
  | readHeader (p : ReadProgress)
  | encode (p : EncodeProgress)
  | decode (p : DecodeProgress)
  | illegal (w : Word)
deriving DecidableEq, Repr

/-- The block's own state (R30). STATUS.BUSY is the view `seq ≠ idle` (R33) and STATUS.TREE_VALID
the view "there is a tree" (R58): the tree store without a valid tree is not observable, so it is
`none`. LEAVES, CODE_LEN and CODE_BITS are views of `tree` (R41 to R45); ID, CTRL and CMD hold
nothing (R31, R48, R49). -/
structure Block where
  /-- The sequencer state (R33). -/
  seq      : Seq
  /-- STATUS.DONE (R34). -/
  done     : Bool
  /-- STATUS.ERR (R34). -/
  err      : Bool
  /-- STATUS.OVERRUN (R34, R84). -/
  overrun  : Bool
  /-- STATUS.ERRCODE (R34, R260). -/
  errCode  : ErrorCode
  /-- STATUS.LAST_OP (R34). -/
  lastOp   : BitVec 4
  /-- ERRINFO (R46). -/
  errInfo  : Word
  /-- BITS_IN (R47). -/
  bitsIn   : Word
  /-- BITS_OUT (R47). -/
  bitsOut  : Word
  /-- BYTES_IN (R47). -/
  bytesIn  : Word
  /-- BYTES_OUT (R47). -/
  bytesOut : Word
  /-- CODE_SEL.SEL (R42). -/
  codeSel  : BitVec 9
  /-- The frequency file FREQ_0 to FREQ_255 (R40). -/
  freq     : Vector Word 256
  /-- The tree store: `tree` when TREE_VALID = 1, else none (R35, R58). -/
  tree     : Option Tree
  /-- The abort request latch ABORT_REQ (R51). -/
  abortReq : Bool
deriving DecidableEq, Repr

/-- One step of one agent (R7), or of the reset input (R290). -/
inductive AgentStep where
  /-- The host's next access reaches the bus. -/
  | host (a : Access)
  /-- The engine takes its next step, if it has one (R242). -/
  | engine
  /-- What the bit source offers on BIT_IN from now on, first item first (R89, R100). -/
  | bitSource (offer : List BitItem)
  /-- How many items the bit sink is ready to accept from now on (R100). -/
  | bitSink (room : Nat)
  /-- What the byte source offers on BYTE_IN from now on. -/
  | byteSource (offer : List ByteItem)
  /-- How many items the byte sink is ready to accept from now on. -/
  | byteSink (room : Nat)
  /-- The reset input is asserted (R290). -/
  | reset
deriving DecidableEq, Repr

/-- Who takes the present step: an operation has a step of the host and, for a command, steps of
the engine (R241, R242). -/
inductive Turn where
  | host
  | engine
deriving DecidableEq, Repr

/-- What is outside the block: the platform's base address, the other agents of R7 with the items
their streams hold, and the model's own bookkeeping. A model takes the agents' behaviour as input
and quantifies over it (R89, R91). -/
structure Env where
  /-- HUFF_BASE divided by 2048: the base is any multiple of 2048 (R80). -/
  basePage  : Nat
  /-- Which agent steps next, and what it does: the interleaving (R91, S14). -/
  schedule  : List AgentStep
  /-- Whose step is being taken (the model's own). -/
  turn      : Turn
  /-- The values the host's reads returned, oldest first. -/
  hostReads : List Word
  /-- The items the bit source offers, the next one first; none means that it holds (R87). -/
  bitIn     : List BitItem
  /-- How many more items the bit sink is ready to accept; 0 means that it holds. -/
  bitRoom   : Nat
  /-- The bits the bit sink has accepted, oldest first. -/
  bitOut    : Bits
  /-- The items the byte source offers, the next one first. -/
  byteIn    : List ByteItem
  /-- How many more items the byte sink is ready to accept. -/
  byteRoom  : Nat
  /-- The bytes the byte sink has accepted, oldest first. -/
  byteOut   : List Byte
  /-- How many free values have been drawn (the model's own; assumption 1). -/
  draws     : Nat
deriving DecidableEq, Repr

/-- The state of the machine: plain data. -/
structure State where
  blk : Block
  env : Env
deriving DecidableEq, Repr

/-- What the spec's rules show never to happen, so that the pseudocode says nothing of it. Each
stops the machine, which is safe; no state that keeps the invariant `Safety.Inv` raises one. -/
inductive Fault where
  /-- DECODE would move from a leaf to a child (spec/43_decoder.md R222: "`cur` is always a
  branch"). Raised by DECODE only; safe. -/
  | decodeAtLeaf
  /-- ENCODE would send a code that the tree does not have: EOF, or one whose sending has begun
  (spec/42_encoder.md R201, with R36 (1)). Raised by ENCODE only; safe. -/
  | encodeNoCode
  /-- There is no tree in the middle of WRITE_HEADER, ENCODE or DECODE, which checked TREE_VALID at
  their first step and cannot lose the tree (spec/10_state.md R58). Raised by these three; safe. -/
  | treeLost
deriving DecidableEq, Repr

/-- Why the model gives an operation no meaning. -/
inductive Refusal where
  /-- An operation of the opcode table that the model does not cover, by its mnemonic. Raised by no
  arm of `exec`: every row has its meaning; safe. -/
  | notModelled (mnemonic : String)
deriving DecidableEq, Repr

/-- The block after reset (R59, R290). -/
def Block.reset : Block where
  seq := .idle
  done := false
  err := false
  overrun := false
  errCode := .none
  lastOp := 0
  errInfo := 0
  bitsIn := 0
  bitsOut := 0
  bytesIn := 0
  bytesOut := 0
  codeSel := 0
  freq := Vector.replicate 256 0
  tree := none
  abortReq := false

/-- The outside before anything has happened: no agent has offered, accepted or scheduled anything
(assumption 3). -/
def Env.initial : Env where
  basePage := 0
  schedule := []
  turn := .host
  hostReads := []
  bitIn := []
  bitRoom := 0
  bitOut := []
  byteIn := []
  byteRoom := 0
  byteOut := []
  draws := 0

/-- The machine right after reset. -/
def State.reset : State := ⟨Block.reset, Env.initial⟩

/-- What a step answers. -/
abbrev Result := Host.Outcome State Fault Refusal

end Sys2Proof.Machine
end

