-- ==== Sys2Proof/Machine/Flags.lean ====
section
/-! DEFINITION. STATUS: its fields as views of the state, and the word a read returns
(spec/10_state.md R33, R34, R58; the error codes' numbers of spec/60_exceptions.md R260). -/

namespace Sys2Proof.Machine

open Sys2Proof

/-- The number of an error code in STATUS.ERRCODE (R260). -/
def ErrorCode.code : ErrorCode → BitVec 4
  | .none => 0
  | .illegalCmd => 1
  | .noTree => 2
  | .hdrTruncated => 3
  | .hdrBadSymbol => 4
  | .hdrDupSymbol => 5
  | .hdrTooManyNodes => 6
  | .hdrNoEof => 7
  | .encUnmapped => 8
  | .decTruncated => 9
  | .aborted => 10

/-- STATUS.BUSY: 1 while a command runs, `seq ≠ IDLE` (R33, R34). -/
def Block.busy (b : Block) : Bool :=
  match b.seq with
  | .idle => false
  | _ => true

/-- STATUS.TREE_VALID: 1 when the tree store holds a valid tree (R34, R58). -/
def Block.treeValid (b : Block) : Bool := b.tree.isSome

/-- The STATUS word (R34): BUSY bit 0, DONE 1, ERR 2, TREE_VALID 3, OVERRUN 4, ERRCODE 11:8,
LAST_OP 19:16, every other bit 0. -/
def Block.statusWord (b : Block) : Word :=
  (0#12 ++ b.lastOp ++ 0#4 ++ b.errCode.code ++ 0#3 ++ BitVec.ofBool b.overrun
    ++ BitVec.ofBool b.treeValid ++ BitVec.ofBool b.err ++ BitVec.ofBool b.done
    ++ BitVec.ofBool b.busy : BitVec (12 + 4 + 4 + 4 + 3 + 1 + 1 + 1 + 1 + 1))

end Sys2Proof.Machine
end

