-- ==== Sys2Proof/Machine/Operands.lean ====
section
/-! DEFINITION. What each register of the window reads as (spec/10_state.md R31 to R49, R57), and
the FREQ file's access (R40). -/

namespace Sys2Proof.Machine

open Sys2Proof

/-- FREQ_v (R40). -/
def Block.freqAt (b : Block) (v : BitVec 8) : Word := b.freq[v.toNat]'v.isLt

/-- The block with FREQ_v set to n (R141). -/
def Block.setFreq (b : Block) (v : BitVec 8) (n : Word) : Block :=
  { b with freq := b.freq.set v.toNat n v.isLt }

/-- The code that CODE_SEL selects: `codes(tree)(SEL)`, and none when SEL is not mapped, is 257 to
511, or TREE_VALID = 0 (R41 to R44). -/
def Block.selectedCode (b : Block) : Option Bits :=
  if h : b.codeSel.toNat < 257 then
    match b.tree with
    | some t => t.codeOf ⟨b.codeSel.toNat, h⟩
    | none => none
  else none

/-- CODE_LEN (R43): PRESENT in bit 31, LEN in bits 8:0. -/
def Block.codeLenWord (b : Block) : Word :=
  match b.selectedCode with
  | some c => (1#1 ++ 0#22 ++ BitVec.ofNat 9 c.length : BitVec (1 + 22 + 9))
  | none => 0

/-- CODE_BITS_k (R44). -/
def Block.codeBitsReg (b : Block) (k : Fin 8) : Word :=
  match b.selectedCode with
  | some c => codeBitsWord c k.val
  | none => 0

/-- LEAVES (R45). -/
def Block.leavesWord (b : Block) : Word :=
  match b.tree with
  | some t => BitVec.ofNat 32 t.leaves.length
  | none => 0

/-- The value that is exact only while BUSY = 0: none stands for the unspecified value of R57. -/
def Block.whenIdle (b : Block) (w : Word) : Option Word := if b.busy then none else some w

/-- What an aligned 32-bit read of a register returns, and none where the value is unspecified
(R31 to R49, R57; reserved offsets R83). -/
def Block.readReg (b : Block) : Reg → Option Word
  | .id => some 0x48554631
  | .ctrl => some 0
  | .cmd => some 0
  | .status => some b.statusWord
  | .errInfo => b.whenIdle b.errInfo
  | .bitsIn => b.whenIdle b.bitsIn
  | .bitsOut => b.whenIdle b.bitsOut
  | .bytesIn => b.whenIdle b.bytesIn
  | .bytesOut => b.whenIdle b.bytesOut
  | .leaves => b.whenIdle b.leavesWord
  | .codeSel => some (b.codeSel.setWidth 32)
  | .codeLen => b.whenIdle b.codeLenWord
  | .codeBits k => b.whenIdle (b.codeBitsReg k)
  | .freq v => b.whenIdle (b.freqAt v)
  | .reserved => some 0

/-- Byte offset `off` of the window as a byte-naming bus would see it (R85): lane `off % 4` of the
register at the aligned offset below it, and none where that value is unspecified. -/
def Block.windowByte (b : Block) (off : BitVec 11) : Option Byte :=
  (b.readReg (regAt (off &&& 0x7FC))).map fun w => wordByte w (off.toNat % 4)

end Sys2Proof.Machine
end

