-- ==== Sys2Proof/Machine/Ops.lean ====
section
/-! DEFINITION. The shared operations of the machine: the host's reads and writes, the acceptance
and the end of a command, and the four stream primitives with the abort test
(spec/44_control.md R241 to R246, spec/20_memory.md R82 to R87, spec/60_exceptions.md R262). -/

namespace Sys2Proof.Machine

open Sys2Proof

/-! ### Host reads and writes -/

/-- HUFF_BASE: any multiple of 2048 (R80). -/
def Env.huffBase (e : Env) : Nat := Config.windowBytes * e.basePage

/-- The host takes the value its read returned. Reads have no effect on the block (R95). -/
def hostTakes (w : Word) (s : State) : State :=
  { s with env := { s.env with hostReads := s.env.hostReads ++ [w] } }

/-- A read whose value is unspecified: the model draws a free value (R57, R82; assumption 1). -/
def hostDraws (s : State) : State :=
  { s with env := { s.env with
      hostReads := s.env.hostReads ++ [Config.freeWord s.env.draws], draws := s.env.draws + 1 } }

/-- An aligned 32-bit read of a register (R81, R95). -/
def hostReadReg (r : Reg) (s : State) : State :=
  match s.blk.readReg r with
  | some w => hostTakes w s
  | none => hostDraws s

/-- A write dropped because BUSY = 1: it changes nothing but OVERRUN (R84). -/
def dropWrite (s : State) : State := { s with blk := { s.blk with overrun := true } }

/-- A write that a running command drops: it takes effect only while BUSY = 0 (R84). -/
def writeWhenIdle (write : State → State) (s : State) : State :=
  if s.blk.busy then dropWrite s else write s

/-- Whether a bus operation is a read. -/
def isRead : BusOp → Bool
  | .read => true
  | .write _ => false

/-- The effect of a host access that is no operation of the opcode table: a narrow or misaligned
access reads a free value or is ignored (R82); a register or a reserved offset reads its value, and
a write to a read-only one is ignored and leaves OVERRUN as it is (R83); an address outside the
window does not reach the block (R80). -/
def plainAccess (why : NotInstr) (op : BusOp) (s : State) : State :=
  match why with
  | .outsideWindow => s
  | .narrow => if isRead op then hostDraws s else s
  | .misaligned => if isRead op then hostDraws s else s
  | .registerRead r => hostReadReg r s
  | .ignoredWrite _ => s

/-! ### Acceptance and end of a command -/

/-- READ_HEADER before its first InBit (R176). -/
def ReadProgress.start : ReadProgress := ⟨[], [], 0, none, none⟩

/-- `RUN(w)`: the sequencer state a command word starts (R33, R241); every word that is no legal
command is the illegal command (R112). No word decodes to a bus operation, so the last four lines stand for nothing. -/
def seqOfWord (w : Word) : Seq :=
  match decodeCommand w with
  | .nop => .nop
  | .clearFreq => .clearFreq
  | .build => .build
  | .writeHeader => .writeHeader 0
  | .readHeader => .readHeader ReadProgress.start
  | .encode => .encode .start
  | .decode => .decode .start
  | .illegalOp7 => .illegal w
  | .illegalOp8F _ => .illegal w
  | .illegalRsv _ _ => .illegal w
  | .setf _ _ => .illegal w
  | .rdFreq _ => .illegal w
  | .wrCodeSel _ => .illegal w
  | .abort _ => .illegal w

/-- Whether accepting the word clears TREE_VALID: only the legal words BUILD (2) and READ_HEADER
(4) do (R58, R241). -/
def clearsTree (w : Word) : Bool := w.extractLsb' 4 28 == 0 && (w.extractLsb' 0 4 == 2 || w.extractLsb' 0 4 == 4)

/-- Acceptance of a command word, in the one step of the host's write (R241). -/
def acceptCommand (w : Word) (s : State) : State :=
  { s with blk := { s.blk with
      done := false
      err := false
      errCode := .none
      overrun := false
      lastOp := w.extractLsb' 0 4
      errInfo := 0
      bitsIn := 0
      bitsOut := 0
      bytesIn := 0
      bytesOut := 0
      abortReq := false
      tree := if clearsTree w then none else s.blk.tree
      seq := seqOfWord w } }

/-- A host write of a word to CMD: accepted while BUSY = 0, dropped while BUSY = 1 (R49, R84,
R241). -/
def writeCmd (w : Word) (s : State) : State := writeWhenIdle (acceptCommand w) s

/-- The end of a command (R243): the one operation that records how it ended, for success
(`code` = none, `info` = 0) and for every error. The counters, `tree`, FREQ and CODE_SEL keep the
values the command left; its progress state is discarded with `seq`. -/
def endCommand (code : ErrorCode) (info : Word) (s : State) : State :=
  { s with blk := { s.blk with
      errCode := code
      err := code != .none
      errInfo := info
      abortReq := false
      done := true
      seq := .idle } }

/-- `finish` (R12, R243). -/
def finish (s : State) : State := endCommand .none 0 s

/-- `raise E(info)`: the running command ends at once with the error (R262). An error is not a
trap and there is no return from it (R261, R267). -/
def raise (e : ErrorCode) (info : Word) (s : State) : State := endCommand e info s

/-- A command's step (R241, R242): the host's write of its word, or a step of the engine. -/
def commandStep (w : Word) (engine : State → Result) (s : State) : Result :=
  match s.env.turn with
  | .host => .next (writeCmd w s)
  | .engine => engine s

/-! ### Stream primitives (R12, R87), each with the abort test of R246

`k` is where the command stands after the transaction. Where the partner does not take part the
engine has no step and the state stays as it is. -/

/-- The engine stands at another point of its command. -/
def setSeq (q : Seq) (s : State) : State := { s with blk := { s.blk with seq := q } }

/-- A step that would perform a transaction ends the command with ABORTED instead when ABORT_REQ
is set, whether or not the partner takes part (R246). -/
def unlessAborted (transaction : State → State) (s : State) : State :=
  if s.blk.abortReq then raise .aborted 0 s else transaction s

/-- The item is consumed from BIT_IN; a bit is counted in BITS_IN and EOD is not (R47, R87). -/
def takeBitItem (it : BitItem) (rest : List BitItem) (s : State) : State :=
  { blk := { s.blk with bitsIn := s.blk.bitsIn + (match it with | .bit _ => 1 | .eod => 0) }
    env := { s.env with bitIn := rest } }

/-- `InBit()`. -/
def inBit (k : BitItem → Seq) (s : State) : State :=
  unlessAborted (fun s =>
    match s.env.bitIn with
    | [] => s
    | it :: rest => setSeq (k it) (takeBitItem it rest s)) s

/-- The item is consumed from BYTE_IN; a byte is counted in BYTES_IN and `End` is not (R47). -/
def takeByteItem (it : ByteItem) (rest : List ByteItem) (s : State) : State :=
  { blk := { s.blk with
      bytesIn := s.blk.bytesIn + (match it with | .byte _ => 1 | .endOfMessage => 0) }
    env := { s.env with byteIn := rest } }

/-- `InByte()`. -/
def inByte (k : ByteItem → Seq) (s : State) : State :=
  unlessAborted (fun s =>
    match s.env.byteIn with
    | [] => s
    | it :: rest => setSeq (k it) (takeByteItem it rest s)) s

/-- The bit is the sink's and is counted in BITS_OUT (R47, R87). -/
def giveBit (b : Bool) (room : Nat) (s : State) : State :=
  { blk := { s.blk with bitsOut := s.blk.bitsOut + 1 }
    env := { s.env with bitOut := s.env.bitOut ++ [b], bitRoom := room } }

/-- `OutBit(b)`. -/
def outBit (b : Bool) (k : Seq) (s : State) : State :=
  unlessAborted (fun s =>
    match s.env.bitRoom with
    | 0 => s
    | room + 1 => setSeq k (giveBit b room s)) s

/-- The byte is the sink's and is counted in BYTES_OUT (R47, R87). -/
def giveByte (v : Byte) (room : Nat) (s : State) : State :=
  { blk := { s.blk with bytesOut := s.blk.bytesOut + 1 }
    env := { s.env with byteOut := s.env.byteOut ++ [v], byteRoom := room } }

/-- `OutByte(v)`. -/
def outByte (v : Byte) (k : Seq) (s : State) : State :=
  unlessAborted (fun s =>
    match s.env.byteRoom with
    | 0 => s
    | room + 1 => setSeq k (giveByte v room s)) s

/-! ### The other agents -/

/-- The reset input: every piece of the block's state takes its reset value in one step (R290); the
stream agents are not reset and are not told (R291). -/
def resetBlock (s : State) : State := { s with blk := Block.reset }

/-- The present step's agent is taken off the schedule, and it is `turn`'s step. -/
def beginTurn (turn : Turn) (rest : List AgentStep) (s : State) : State :=
  { s with env := { s.env with schedule := rest, turn := turn } }

/-- A step of an agent outside the block that changes what it offers or accepts (R100), or of the
reset input. The host's and the engine's steps are `step`'s own. -/
def outsideStep (a : AgentStep) (s : State) : State :=
  match a with
  | .host _ => s
  | .engine => s
  | .bitSource offer => { s with env := { s.env with bitIn := offer } }
  | .bitSink room => { s with env := { s.env with bitRoom := room } }
  | .byteSource offer => { s with env := { s.env with byteIn := offer } }
  | .byteSink room => { s with env := { s.env with byteRoom := room } }
  | .reset => resetBlock s

/-- The operation whose engine steps `seq` stands in, and none when the engine is IDLE (R33). -/
def Seq.instr? : Seq → Option Instr
  | .idle => none
  | .nop => some .nop
  | .clearFreq => some .clearFreq
  | .build => some .build
  | .writeHeader _ => some .writeHeader
  | .readHeader _ => some .readHeader
  | .encode _ => some .encode
  | .decode _ => some .decode
  | .illegal w => some (decodeCommand w)

end Sys2Proof.Machine
end

