-- ==== Sys2Proof/Machine/Control.lean ====
section
/-! DEFINITION. Command control: NOP, the illegal command words and ABORT (spec/44_control.md). -/

namespace Sys2Proof.Machine

open Sys2Proof

/-- The engine step of NOP (R244). -/
def engineNop (s : State) : Result :=
  match s.blk.seq with
  | .nop => .next (finish s)
  | _ => .next s

/-- NOP (R244): word 0x00000000. -/
def execNop (s : State) : Result := commandStep 0x00000000 engineNop s

/-- The engine step of an illegal command (R245): ERRINFO receives the whole word written. -/
def engineIllegal (s : State) : Result :=
  match s.blk.seq with
  | .illegal w => .next (raise .illegalCmd w s)
  | _ => .next s

/-- The reserved opcode 0x7 (R245): word 0x00000007. -/
def execIllegalOp7 (s : State) : Result := commandStep 0x00000007 engineIllegal s

/-- The reserved opcodes 0x8 to 0xF (R245). -/
def execIllegalOp8F (low : BitVec 3) (s : State) : Result := commandStep (op8FWord low) engineIllegal s

/-- The words with RSV ≠ 0 (R245). -/
def execIllegalRsv (rsv : BitVec 28) (op : BitVec 4) (s : State) : Result :=
  commandStep (rsvWord rsv op) engineIllegal s

/-- ABORT (R246): a write to CTRL is never dropped; bit 0 = 1 requests the abort of a running
command and has no effect while BUSY = 0; bits 31:1 are reserved (R48, R51). -/
def execAbort (data : Word) (s : State) : Result :=
  .next (if data.getLsbD 0 && s.blk.busy then { s with blk := { s.blk with abortReq := true } } else s)

end Sys2Proof.Machine
end

