-- ==== Sys2Proof/Machine/Decoder.lean ====
section
/-! DEFINITION. The decoder: DECODE (spec/43_decoder.md). -/

namespace Sys2Proof.Machine

open Sys2Proof

/-- The child of a branch that a bit selects: left on 0, right on 1; a leaf has none (R222). -/
def Tree.child? : Tree → Bool → Option Tree
  | .leaf _, _ => none
  | .branch l _, false => some l
  | .branch _ r, true => some r

/-- The byte sent for a leaf symbol 0 to 255: the 8-bit value (R223). -/
def byteOfSym (s : Sym) : Byte := BitVec.ofNat 8 s.val

/-- InBit() of DECODE with the cursor at `cur`. -/
def decodeInBit (cur : Tree) (s : State) : State := inBit (fun it => .decode (.got cur it)) s

/-- The top of DECODE's loop with the cursor at `cur` (R222): the EOF leaf ends the command with
success, another leaf's byte is sent, and at a branch the next bit is read. -/
def decodeAt (cur : Tree) (s : State) : State :=
  match cur with
  | .leaf sym => if sym = eof then finish s else outByte (byteOfSym sym) (.decode .emitted) s
  | .branch l r => decodeInBit (.branch l r) s

/-- An engine step of DECODE (R222). TREE_VALID is tested at the first step; after a byte is sent
the cursor is at the root and the next bit is read. -/
def engineDecode (s : State) : Result :=
  match s.blk.seq with
  | .decode p =>
    match s.blk.tree with
    | none => if p = .start then .next (raise .noTree 0 s) else .fault .treeLost
    | some t =>
      match p with
      | .start => .next (decodeAt t s)
      | .emitted => .next (decodeInBit t s)
      | .got _ .eod => .next (raise .decTruncated 0 s)
      | .got cur (.bit b) =>
        match cur.child? b with
        | some next => .next (decodeAt next s)
        | none => .fault .decodeAtLeaf
  | _ => .next s

/-- DECODE (R222): word 0x00000006. -/
def execDecode (s : State) : Result := commandStep 0x00000006 engineDecode s

end Sys2Proof.Machine
end

