-- ==== Sys2Proof/Machine/Encoder.lean ====
section
/-! DEFINITION. The encoder: ENCODE (spec/42_encoder.md). -/

namespace Sys2Proof.Machine

open Sys2Proof

/-- InByte() of ENCODE. -/
def encodeInByte (s : State) : State := inByte (fun it => .encode (.got it)) s

/-- Sending `C(sym)` from the bit at `index`; when no bit is left the command ends after the EOF
code and reads the next item after a byte's code (R201). -/
def encodeSend (t : Tree) (sym : Sym) (index : Nat) (s : State) : Result :=
  match t.codeOf sym with
  | none => .fault .encodeNoCode
  | some code =>
    match code[index]? with
    | some b => .next (outBit b (.encode (.send sym (index + 1))) s)
    | none => if sym = eof then .next (finish s) else .next (encodeInByte s)

/-- A byte received: unmapped, it ends the command (R202); mapped, its code is sent. -/
def encodeByte (t : Tree) (v : Byte) (s : State) : Result :=
  match t.codeOf (symOfByte v) with
  | none => .next (raise .encUnmapped (v.setWidth 32) s)
  | some _ => encodeSend t (symOfByte v) 0 s

/-- An engine step of ENCODE (R201). TREE_VALID is tested at the first step. -/
def engineEncode (s : State) : Result :=
  match s.blk.seq with
  | .encode p =>
    match s.blk.tree with
    | none => if p = .start then .next (raise .noTree 0 s) else .fault .treeLost
    | some t =>
      match p with
      | .start => .next (encodeInByte s)
      | .got (.byte v) => encodeByte t v s
      | .got .endOfMessage => encodeSend t eof 0 s
      | .send sym index => encodeSend t sym index s
  | _ => .next s

/-- ENCODE (R201): word 0x00000005. -/
def execEncode (s : State) : Result := commandStep 0x00000005 engineEncode s

end Sys2Proof.Machine
end

