-- ==== Sys2Proof/Machine/HeaderCodec.lean ====
section
/-! DEFINITION. The header codec: WRITE_HEADER and READ_HEADER (spec/41_header_codec.md). -/

namespace Sys2Proof.Machine

open Sys2Proof

/-! ### WRITE_HEADER -/

/-- An engine step of WRITE_HEADER from the position `pos` of the header (R170). TREE_VALID is
tested at the first step. -/
def engineWriteHeader (s : State) : Result :=
  match s.blk.seq with
  | .writeHeader pos =>
    match s.blk.tree with
    | none => if pos = 0 then .next (raise .noTree 0 s) else .fault .treeLost
    | some t =>
      match t.hdr[pos]? with
      | some b => .next (outBit b (.writeHeader (pos + 1)) s)
      | none => .next (finish s)
  | _ => .next s

/-- WRITE_HEADER (R170): word 0x00000003. -/
def execWriteHeader (s : State) : Result := commandStep 0x00000003 engineWriteHeader s

/-! ### READ_HEADER -/

/-- What follows from one item read (R176): more to read, the complete tree with SEEN, or an
error. -/
inductive ReadResult where
  | more (p : ReadProgress)
  | complete (t : Tree) (seen : List Sym)
  | bad (e : ErrorCode) (info : Word)
deriving DecidableEq, Repr

/-- A subtree is complete: it is the left child of the innermost open branch, or its right child,
which completes that branch in turn, or the whole tree (R176 `readNode`). -/
def plugTree (t : Tree) (seen : List Sym) (nbr : Nat) : List (Option Tree) → ReadResult
  | [] => .complete t seen
  | none :: rest => .more ⟨some t :: rest, seen, nbr, none, none⟩
  | some l :: rest => plugTree (.branch l t) seen nbr rest

/-- The ninth value bit has been read: the checks of R177 (2) and (3), in that order, then the
leaf. -/
def readLeaf (p : ReadProgress) (v : Nat) : ReadResult :=
  if h : v < 257 then
    if (⟨v, h⟩ : Sym) ∈ p.seen then .bad .hdrDupSymbol (BitVec.ofNat 32 v)
    else plugTree (.leaf ⟨v, h⟩) (⟨v, h⟩ :: p.seen) p.nbr p.open_
  else .bad .hdrBadSymbol (BitVec.ofNat 32 v)

/-- What READ_HEADER does with one item, up to its next InBit (R176, R177). -/
def readItem (p : ReadProgress) : BitItem → ReadResult
  | .eod => .bad .hdrTruncated 0
  | .bit b =>
    match p.field with
    | none =>
      if b then .more { p with field := some [], pending := none }
      else if Config.maxBranches < p.nbr + 1 then .bad .hdrTooManyNodes 0
      else .more { p with open_ := none :: p.open_, nbr := p.nbr + 1, pending := none }
    | some bits =>
      if bits.length + 1 < 9 then .more { p with field := some (bits ++ [b]), pending := none }
      else readLeaf p (valueLE (bits ++ [b]))

/-- InBit() of READ_HEADER. -/
def readHeaderInBit (p : ReadProgress) (s : State) : State :=
  inBit (fun it => .readHeader { p with pending := some it }) s

/-- READ_HEADER has read the whole tree (R176, R177 (5)). -/
def readHeaderEnd (t : Tree) (seen : List Sym) (s : State) : State :=
  if eof ∈ seen then finish { s with blk := { s.blk with tree := some t } }
  else raise .hdrNoEof 0 s

/-- An engine step of READ_HEADER (R176, R242): it works on the item received, if any, and goes on
to the next InBit or to the end. -/
def engineReadHeader (s : State) : Result :=
  match s.blk.seq with
  | .readHeader p =>
    match p.pending with
    | none => .next (readHeaderInBit p s)
    | some it =>
      match readItem p it with
      | .more p' => .next (readHeaderInBit p' s)
      | .complete t seen => .next (readHeaderEnd t seen s)
      | .bad e info => .next (raise e info s)
  | _ => .next s

/-- READ_HEADER (R176): word 0x00000004. -/
def execReadHeader (s : State) : Result := commandStep 0x00000004 engineReadHeader s

end Sys2Proof.Machine
end

