-- ==== Sys2Proof/Machine/TreeBuilder.lean ====
section
/-! DEFINITION. The tree builder: SETF, RD FREQ, CLEAR_FREQ, BUILD and WR CODE_SEL
(spec/40_tree_builder.md). -/

namespace Sys2Proof.Machine

open Sys2Proof

/-- SETF (R141): stores the count, or is dropped while a command runs. -/
def execSetf (v : BitVec 8) (n : Word) (s : State) : Result :=
  .next (writeWhenIdle (fun s => { s with blk := s.blk.setFreq v n }) s)

/-- RD FREQ (R142): the host reads FREQ_v; any value while BUSY = 1. -/
def execRdFreq (v : BitVec 8) (s : State) : Result := .next (hostReadReg (.freq v) s)

/-- WR CODE_SEL (R150): bits 8:0 of the data are kept. -/
def execWrCodeSel (data : Word) (s : State) : Result :=
  .next (writeWhenIdle (fun s => { s with blk := { s.blk with codeSel := data.extractLsb' 0 9 } }) s)

/-- The engine step of CLEAR_FREQ (R143). -/
def engineClearFreq (s : State) : Result :=
  match s.blk.seq with
  | .clearFreq => .next (finish { s with blk := { s.blk with freq := Vector.replicate 256 0 } })
  | _ => .next s

/-- CLEAR_FREQ (R143): word 0x00000001. -/
def execClearFreq (s : State) : Result := commandStep 0x00000001 engineClearFreq s

/-- The tree BUILD makes of the frequency file (R146). The loop always ends with one node
(`Laws.buildRoot_isSome`), so the last arm stands for nothing. -/
def buildTree (freq : Vector Word 256) : Tree :=
  match buildRoot freq.toList with
  | some root => root.t
  | none => .leaf eof

/-- The engine step of BUILD (R146). -/
def engineBuild (s : State) : Result :=
  match s.blk.seq with
  | .build => .next (finish { s with blk := { s.blk with tree := some (buildTree s.blk.freq) } })
  | _ => .next s

/-- BUILD (R146): word 0x00000002. -/
def execBuild (s : State) : Result := commandStep 0x00000002 engineBuild s

end Sys2Proof.Machine
end

