-- ==== Sys2Proof/Machine/Dispatch.lean ====
section
/-! DEFINITION. The meaning of every operation of the opcode table, one arm each. -/

namespace Sys2Proof.Machine

open Sys2Proof

def exec (i : Instr) (s : State) : Host.Outcome State Fault Refusal :=
  match i with
  | .nop => Sys2Proof.Machine.execNop s
  | .clearFreq => Sys2Proof.Machine.execClearFreq s
  | .build => Sys2Proof.Machine.execBuild s
  | .writeHeader => Sys2Proof.Machine.execWriteHeader s
  | .readHeader => Sys2Proof.Machine.execReadHeader s
  | .encode => Sys2Proof.Machine.execEncode s
  | .decode => Sys2Proof.Machine.execDecode s
  | .illegalOp7 => Sys2Proof.Machine.execIllegalOp7 s
  | .illegalOp8F low => Sys2Proof.Machine.execIllegalOp8F low s
  | .illegalRsv rsv op => Sys2Proof.Machine.execIllegalRsv rsv op s
  | .setf v n => Sys2Proof.Machine.execSetf v n s
  | .rdFreq v => Sys2Proof.Machine.execRdFreq v s
  | .wrCodeSel data => Sys2Proof.Machine.execWrCodeSel data s
  | .abort data => Sys2Proof.Machine.execAbort data s

end Sys2Proof.Machine
end

