-- ==== Sys2Proof/Machine/Step.lean ====
section
/-! DEFINITION. One step of the machine: the next agent of the schedule takes its step
(spec/00_scope.md R7, spec/20_memory.md R91, spec/44_control.md R242). -/

namespace Sys2Proof.Machine

open Sys2Proof

/-- The agent at the head of the schedule steps. A host access runs the operation it decodes to, or
has the effect of R80 to R83; an engine step runs a step of the command in `seq`, and an IDLE engine
has none; with nothing scheduled no agent steps. -/
def step (s : State) : Host.Outcome State Fault Refusal :=
  match s.env.schedule with
  | [] => .next s
  | .host a :: rest =>
    match decodeAccess s.env.huffBase a with
    | .instr i => exec i (beginTurn .host rest s)
    | .other why => .next (plainAccess why a.op (beginTurn .host rest s))
  | .engine :: rest =>
    match s.blk.seq.instr? with
    | some i => exec i (beginTurn .engine rest s)
    | none => .next (beginTurn .engine rest s)
  | .bitSource offer :: rest => .next (outsideStep (.bitSource offer) (beginTurn s.env.turn rest s))
  | .bitSink room :: rest => .next (outsideStep (.bitSink room) (beginTurn s.env.turn rest s))
  | .byteSource offer :: rest => .next (outsideStep (.byteSource offer) (beginTurn s.env.turn rest s))
  | .byteSink room :: rest => .next (outsideStep (.byteSink room) (beginTurn s.env.turn rest s))
  | .reset :: rest => .next (outsideStep .reset (beginTurn s.env.turn rest s))

/-- The state in which the next step is the host's access that a word of the opcode table stands
for (`tableTxn`), so that `step` fetches it from the bus and runs exactly it. -/
def State.withFetchWord (s : State) (nbits w : Nat) : State :=
  let t := tableTxn nbits w
  { s with env := { s.env with
      schedule := .host ⟨s.env.huffBase + t.offset.toNat, .word, t.op⟩ :: s.env.schedule } }

end Sys2Proof.Machine
end

