-- ==== Sys2Proof/Safety.lean ====
section
/-! DEFINITION. What counts as a good state and a safe run, in the terms the statements use: the
invariant of the machine (spec/10_state.md R33, R34, R36, R51, R53 to R55, R58) and runs of several
steps. -/

namespace Sys2Proof.Safety

open Sys2Proof Sys2Proof.Machine

/-- `n` steps of the machine, stopping at the first that does not answer a next state. -/
def run : Nat → State → Result
  | 0, s => .next s
  | n + 1, s =>
    match step s with
    | .next s' => run n s'
    | .fault f => .fault f
    | .refused r => .refused r

/-- The block as a command leaves it at its end (R243), with the error code and information. -/
def ended (b : Block) (code : ErrorCode) (err : Bool) (info : Word) : Block :=
  { b with
    seq := .idle, done := true, err := err, errCode := code, errInfo := info, abortReq := false }

/-- The outside as a step of the engine finds it: its turn is taken off the schedule. -/
def engineTurn (e : Env) (rest : List AgentStep) : Env := { e with schedule := rest, turn := .engine }

/-- The outside as a step of the host finds it. -/
def hostTurn (e : Env) (rest : List AgentStep) : Env := { e with schedule := rest, turn := .host }

/-- The next step is a 32-bit host access at the offset. -/
def accessNext (s : State) (off : Nat) (op : BusOp) (rest : List AgentStep) : Prop :=
  s.env.schedule = .host ⟨s.env.huffBase + off, .word, op⟩ :: rest

/-- A host's read that returned `w`: the value is the host's, and nothing else changed (R95). -/
def readReturned (s : State) (rest : List AgentStep) (w : Word) : State :=
  ⟨s.blk, { hostTurn s.env rest with hostReads := s.env.hostReads ++ [w] }⟩

/-- A host's read whose value is unspecified: the next free value is the host's (R57, R82). -/
def readDrawn (s : State) (rest : List AgentStep) : State :=
  ⟨s.blk, { hostTurn s.env rest with
      hostReads := s.env.hostReads ++ [Config.freeWord s.env.draws], draws := s.env.draws + 1 }⟩

/-- The three rows of illegal command words (R112). -/
def isIllegal : Instr → Bool
  | .illegalOp7 => true
  | .illegalOp8F _ => true
  | .illegalRsv _ _ => true
  | .nop => false
  | .clearFreq => false
  | .build => false
  | .writeHeader => false
  | .readHeader => false
  | .encode => false
  | .decode => false
  | .setf _ _ => false
  | .rdFreq _ => false
  | .wrCodeSel _ => false
  | .abort _ => false

/-- A register of the window that R57 lets read as any value while a command runs. -/
def unspecifiedWhileBusy (off : Nat) : Prop :=
  off ∈ [0x010, 0x014, 0x018, 0x01C, 0x020, 0x024, 0x02C] ∨ (∃ k, k < 8 ∧ off = 0x040 + 4 * k)
    ∨ ∃ v, v < 256 ∧ off = 0x400 + 4 * v

/-- A reserved offset of the window (R83). -/
def reservedOffset (off : Nat) : Prop :=
  off % 4 = 0 ∧ ((0x030 ≤ off ∧ off ≤ 0x03C) ∨ (0x060 ≤ off ∧ off ≤ 0x3FC))

/-- A read-only register of the window (R83). -/
def readOnlyOffset (off : Nat) : Prop :=
  off ∈ [0x000, 0x00C, 0x010, 0x014, 0x018, 0x01C, 0x020, 0x024, 0x02C] ∨
    ∃ k, k < 8 ∧ off = 0x040 + 4 * k

/-- The next step of the engine reaches the end of the command before any transaction (R242, R246 (c)):
`finish` or an error that the command's own rule gives (R143, R146, R170, R176, R177, R201, R202,
R222, R244, R245). -/
def endsNow (b : Block) : Prop :=
  match b.seq with
  | .idle => False
  | .nop => True
  | .clearFreq => True
  | .build => True
  | .illegal w => isIllegal (decodeCommand w) = true
  | .readHeader p => ∃ it, p.pending = some it ∧ ∀ q, readItem p it ≠ .more q
  | .writeHeader pos =>
    match b.tree with
    | none => True
    | some t => t.hdr.length ≤ pos
  | .encode p =>
    match b.tree, p with
    | none, _ => True
    | some _, .start => False
    | some t, .got (.byte v) => t.codeOf (symOfByte v) = none
    | some t, .got .endOfMessage => t.codeOf eof = some []
    | some t, .send sym index => sym = eof ∧ ∃ code, t.codeOf eof = some code ∧ code.length ≤ index
  | .decode p =>
    match b.tree, p with
    | none, _ => True
    | some t, .start => t = .leaf eof
    | some _, .emitted => False
    | some _, .got _ .eod => True
    | some _, .got cur (.bit b) => cur.child? b = some (.leaf eof)

/-- The leaves read so far, in the subtrees that are complete (R53). -/
def openLeaves : List (Option Tree) → List Sym
  | [] => []
  | none :: rest => openLeaves rest
  | some l :: rest => l.leaves ++ openLeaves rest

/-- The branches read so far: the open ones and those of the complete subtrees (R53). -/
def openBranches : List (Option Tree) → Nat
  | [] => 0
  | none :: rest => openBranches rest + 1
  | some l :: rest => l.branches + openBranches rest + 1

/-- How many bits READ_HEADER has consumed to stand at `p`: ten for each leaf, one for each branch,
those of the leaf being read, and the bit just received. -/
def bitsRead (p : ReadProgress) : Nat :=
  10 * p.seen.length + p.nbr
    + (match p.field with | none => 0 | some bits => bits.length + 1)
    + (match p.pending with | some (.bit _) => 1 | _ => 0)

/-- READ_HEADER's progress is one it can reach (R53, R176): SEEN holds the leaves read, without
repeats, NBR counts the branches, and a value field being read has at most eight bits. -/
structure ReadOk (p : ReadProgress) : Prop where
  seen_nodup  : p.seen.Nodup
  seen_leaves : p.seen.Perm (openLeaves p.open_)
  nbr_counts  : p.nbr = openBranches p.open_
  nbr_bound   : p.nbr ≤ Config.maxBranches
  field_short : ∀ bits, p.field = some bits → bits.length ≤ 8

/-- ENCODE's position belongs to the tree (R54): past its first step there is a tree, and a code
being sent is one of the tree's, with the index inside it. -/
def EncodeOk (tree : Option Tree) : EncodeProgress → Prop
  | .start => True
  | .got _ => tree.isSome
  | .send sym index => ∃ t code, tree = some t ∧ t.codeOf sym = some code ∧ index ≤ code.length

/-- DECODE's cursor is a branch of the tree wherever a bit is read (R55, R222). -/
def DecodeOk (tree : Option Tree) : DecodeProgress → Prop
  | .start => True
  | .got cur _ => ∃ t, tree = some t ∧ cur ∈ t.nodes ∧ t.isBranch ∧ cur.isBranch
  | .emitted => ∃ t, tree = some t ∧ t.isBranch

/-- The running command, LAST_OP, the tree store and the counters fit together (R33, R53 to R55,
R58, R241). -/
def ProgressOk (b : Block) : Prop :=
  match b.seq with
  | .idle => True
  | .nop => b.lastOp = 0
  | .clearFreq => b.lastOp = 1
  | .build => b.lastOp = 2 ∧ b.tree = none
  | .writeHeader pos =>
    b.lastOp = 3 ∧ b.bitsOut = BitVec.ofNat 32 pos ∧
      match b.tree with
      | none => pos = 0
      | some t => pos ≤ t.hdr.length
  | .readHeader p => b.lastOp = 4 ∧ b.tree = none ∧ ReadOk p ∧ b.bitsIn.toNat = bitsRead p
  | .encode p => b.lastOp = 5 ∧ EncodeOk b.tree p
  | .decode p => b.lastOp = 6 ∧ DecodeOk b.tree p
  | .illegal w => b.lastOp = w.extractLsb' 0 4 ∧ (w.extractLsb' 4 28 ≠ 0 ∨ 7 ≤ (w.extractLsb' 0 4).toNat)

/-- The invariant of the machine, which rules out the states no run reaches. -/
structure Inv (s : State) : Prop where
  /-- R36: the tree in the store keeps the code tree invariants. -/
  tree_valid : ∀ t, s.blk.tree = some t → t.Valid
  /-- R34: ERR = 1 exactly when ERRCODE ≠ 0. -/
  err_code : s.blk.err = true ↔ s.blk.errCode ≠ .none
  /-- R34, R241: DONE = 0 while a command runs. -/
  busy_not_done : s.blk.busy = true → s.blk.done = false
  /-- R34, R241: before a command has ended no error is recorded. -/
  not_done_no_error : s.blk.done = false → s.blk.err = false ∧ s.blk.errInfo = 0
  /-- R51: ABORT_REQ is set only while a command runs. -/
  abort_busy : s.blk.abortReq = true → s.blk.busy = true
  /-- The progress of the running command. -/
  progress : ProgressOk s.blk

end Sys2Proof.Safety
end

