-- ==== Sys2Proof/Certificates/Slice0/Obligations.lean ====
section
/-! DEFINITION. The statements for the provers. Each docstring names the rule of spec/ it formalises.
A statement that one of the host's accesses or one of the engine's steps gives
`.next ⟨block, outside⟩` says the whole next state, so it says its frame too. -/

open Sys2Proof Sys2Proof.Machine Sys2Proof.Safety

/-! ### Encodings -/

/-- R110 to R112, R123: no bit of an operation's encoding is dropped. -/
def Obligations.DecodeOfEncodeIsTheInstruction : Prop :=
  ∀ i : Instr, i.wellFormed = true → decode (encode i) = .instr i

/-- R110 to R112, R123: each transaction that is an operation has one meaning, and the decoder
answers only well-formed instructions. -/
def Obligations.EncodeOfDecodeIsTheTransaction : Prop :=
  ∀ (t : Txn) (i : Instr), decode t = .instr i → encode i = t ∧ i.wellFormed = true

/-- R111: the opcode map, over every 32-bit word. -/
def Obligations.CommandWordSelectsItsOpcode : Prop :=
  ∀ w : Word,
    (decodeCommand w = .nop ↔ w.extractLsb' 4 28 = 0 ∧ w.extractLsb' 0 4 = 0x0) ∧
    (decodeCommand w = .clearFreq ↔ w.extractLsb' 4 28 = 0 ∧ w.extractLsb' 0 4 = 0x1) ∧
    (decodeCommand w = .build ↔ w.extractLsb' 4 28 = 0 ∧ w.extractLsb' 0 4 = 0x2) ∧
    (decodeCommand w = .writeHeader ↔ w.extractLsb' 4 28 = 0 ∧ w.extractLsb' 0 4 = 0x3) ∧
    (decodeCommand w = .readHeader ↔ w.extractLsb' 4 28 = 0 ∧ w.extractLsb' 0 4 = 0x4) ∧
    (decodeCommand w = .encode ↔ w.extractLsb' 4 28 = 0 ∧ w.extractLsb' 0 4 = 0x5) ∧
    (decodeCommand w = .decode ↔ w.extractLsb' 4 28 = 0 ∧ w.extractLsb' 0 4 = 0x6) ∧
    (isIllegal (decodeCommand w) = true ↔ w.extractLsb' 4 28 ≠ 0 ∨ 7 ≤ (w.extractLsb' 0 4).toNat)

/-- R123 and the opcode table: words written out from the spec decode to what they stand for. -/
def Obligations.SampleWordsDecodeAsTheTableSays : Prop :=
  decode ⟨0x008, .write 0x00000002⟩ = .instr .build ∧
  decode ⟨0x008, .write 0x00000006⟩ = .instr .decode ∧
  decode ⟨0x008, .write 0x00000012⟩ = .instr (.illegalRsv 1 2) ∧
  decode ⟨0x008, .write 0x0000000B⟩ = .instr (.illegalOp8F 3) ∧
  decode ⟨0x504, .write 5⟩ = .instr (.setf 65 5) ∧
  decode ⟨0x7FC, .read⟩ = .instr (.rdFreq 255) ∧
  decode ⟨0x028, .write 256⟩ = .instr (.wrCodeSel 256) ∧
  decode ⟨0x004, .write 1⟩ = .instr (.abort 1)

/-! ### Steps -/

/-- R91, R241: a host access that decodes to an operation runs its meaning, on the host's turn; one
outside the window does not reach the block, as the model reads R80 (assumption 11). -/
def Obligations.StepRunsTheDecodedAccess : Prop :=
  ∀ (s : State) (a : Access) (rest : List AgentStep), s.env.schedule = .host a :: rest →
    (∀ i, decodeAccess s.env.huffBase a = .instr i → step s = exec i ⟨s.blk, hostTurn s.env rest⟩) ∧
    (a.addr < s.env.huffBase ∨ s.env.huffBase + 2048 ≤ a.addr →
      step s = .next ⟨s.blk, hostTurn s.env rest⟩)

/-- R242: an engine step runs the meaning of the command that `seq` stands in, on the engine's turn;
an IDLE engine has no step. -/
def Obligations.StepRunsTheRunningCommand : Prop :=
  ∀ (s : State) (rest : List AgentStep), s.env.schedule = .engine :: rest →
    (s.blk.seq = .idle → step s = .next ⟨s.blk, engineTurn s.env rest⟩) ∧
    (s.blk.seq = .nop → step s = exec .nop ⟨s.blk, engineTurn s.env rest⟩) ∧
    (s.blk.seq = .clearFreq → step s = exec .clearFreq ⟨s.blk, engineTurn s.env rest⟩) ∧
    (s.blk.seq = .build → step s = exec .build ⟨s.blk, engineTurn s.env rest⟩) ∧
    (∀ pos, s.blk.seq = .writeHeader pos →
      step s = exec .writeHeader ⟨s.blk, engineTurn s.env rest⟩) ∧
    (∀ p, s.blk.seq = .readHeader p →
      step s = exec .readHeader ⟨s.blk, engineTurn s.env rest⟩) ∧
    (∀ p, s.blk.seq = .encode p → step s = exec .encode ⟨s.blk, engineTurn s.env rest⟩) ∧
    (∀ p, s.blk.seq = .decode p → step s = exec .decode ⟨s.blk, engineTurn s.env rest⟩) ∧
    (∀ w, s.blk.seq = .illegal w →
      step s = exec (decodeCommand w) ⟨s.blk, engineTurn s.env rest⟩)

/-! ### The register window -/

/-- R31: ID reads as its constant in every state and ignores writes. -/
def Obligations.IdReadsItsConstant : Prop :=
  ∀ (s : State) (rest : List AgentStep),
    (accessNext s 0x000 .read rest → step s = .next (readReturned s rest 0x48554631)) ∧
    ∀ w, accessNext s 0x000 (.write w) rest → step s = .next ⟨s.blk, hostTurn s.env rest⟩

/-- R34: every bit of STATUS, in every state. -/
def Obligations.StatusReadShowsEveryField : Prop :=
  ∀ (s : State) (rest : List AgentStep), accessNext s 0x00C .read rest →
    ∃ w : Word, step s = .next (readReturned s rest w) ∧
      (w.getLsbD 0 = true ↔ s.blk.seq ≠ .idle) ∧
      w.getLsbD 1 = s.blk.done ∧
      w.getLsbD 2 = s.blk.err ∧
      w.getLsbD 3 = s.blk.tree.isSome ∧
      w.getLsbD 4 = s.blk.overrun ∧
      w.extractLsb' 5 3 = 0 ∧
      w.extractLsb' 8 4 = s.blk.errCode.code ∧
      w.extractLsb' 12 4 = 0 ∧
      w.extractLsb' 16 4 = s.blk.lastOp ∧
      w.extractLsb' 20 12 = 0

/-- R42, R48, R49, R57: what reads exactly in every state, busy or not: CTRL and CMD read 0, and
CODE_SEL reads SEL with its reserved bits 0. -/
def Obligations.ControlRegistersReadExactly : Prop :=
  ∀ (s : State) (rest : List AgentStep),
    (accessNext s 0x004 .read rest → step s = .next (readReturned s rest 0)) ∧
    (accessNext s 0x008 .read rest → step s = .next (readReturned s rest 0)) ∧
    (accessNext s 0x028 .read rest → ∃ w : Word, step s = .next (readReturned s rest w) ∧
      w.extractLsb' 0 9 = s.blk.codeSel ∧ w.extractLsb' 9 23 = 0)

/-- R57, R301: while BUSY = 1 each of these reads returns a fresh free value and changes nothing of
the block. The statement holds whatever the free values are. -/
def Obligations.BusyReadsReturnAFreeValue : Prop :=
  ∀ (s : State) (off : Nat) (rest : List AgentStep), s.blk.seq ≠ .idle →
    unspecifiedWhileBusy off → accessNext s off .read rest → step s = .next (readDrawn s rest)

/-- R40, R46, R47, R57: while BUSY = 0 ERRINFO, the counters and the FREQ file read exactly. -/
def Obligations.IdleReadsReturnTheRegister : Prop :=
  ∀ (s : State) (rest : List AgentStep), s.blk.seq = .idle →
    (accessNext s 0x010 .read rest → step s = .next (readReturned s rest s.blk.errInfo)) ∧
    (accessNext s 0x014 .read rest → step s = .next (readReturned s rest s.blk.bitsIn)) ∧
    (accessNext s 0x018 .read rest → step s = .next (readReturned s rest s.blk.bitsOut)) ∧
    (accessNext s 0x01C .read rest → step s = .next (readReturned s rest s.blk.bytesIn)) ∧
    (accessNext s 0x020 .read rest → step s = .next (readReturned s rest s.blk.bytesOut)) ∧
    (∀ (v : Nat) (hv : v < 256), accessNext s (0x400 + 4 * v) .read rest →
      step s = .next (readReturned s rest s.blk.freq[v]))

/-- R82: a narrow or misaligned access inside the window has no effect on the block; a read returns
a free value, whatever it is. -/
def Obligations.NarrowOrMisalignedAccessHasNoEffect : Prop :=
  ∀ (s : State) (a : Access) (off : Nat) (rest : List AgentStep), s.env.schedule = .host a :: rest →
    a.addr = s.env.huffBase + off → off < 2048 → a.width ≠ .word ∨ off % 4 ≠ 0 →
    (∀ w, a.op = .write w → step s = .next ⟨s.blk, hostTurn s.env rest⟩) ∧
    (a.op = .read → step s = .next (readDrawn s rest))

/-- R83: reserved offsets read 0; writes to them and to read-only registers are ignored and leave
OVERRUN as it is, busy or not. -/
def Obligations.ReservedAndReadOnlyWritesAreIgnored : Prop :=
  ∀ (s : State) (off : Nat) (rest : List AgentStep),
    (reservedOffset off → accessNext s off .read rest → step s = .next (readReturned s rest 0)) ∧
    (∀ w, reservedOffset off ∨ readOnlyOffset off → accessNext s off (.write w) rest →
      step s = .next ⟨s.blk, hostTurn s.env rest⟩)

/-- R84: while BUSY = 1 a write to CMD, CODE_SEL or a FREQ register changes nothing but OVERRUN, and
a write to CTRL is not dropped. -/
def Obligations.BusyWritesAreDropped : Prop :=
  ∀ (s : State) (off : Nat) (w : Word) (rest : List AgentStep), s.blk.seq ≠ .idle →
    accessNext s off (.write w) rest →
    (off = 0x008 ∨ off = 0x028 ∨ (∃ v, v < 256 ∧ off = 0x400 + 4 * v) →
      step s = .next ⟨{ s.blk with overrun := true }, hostTurn s.env rest⟩) ∧
    (off = 0x004 →
      step s = .next ⟨{ s.blk with abortReq := s.blk.abortReq || w.getLsbD 0 }, hostTurn s.env rest⟩)

/-- R43, R44: CODE_LEN and CODE_BITS show the code of the selected symbol, and read 0 when no entry
is selected. -/
def Obligations.CodeTableReadoutShowsTheCode : Prop :=
  ∀ (s : State) (rest : List AgentStep), s.blk.seq = .idle →
    (∀ (t : Tree) (sym : Sym) (code : Bits), s.blk.tree = some t → t.Valid →
      s.blk.codeSel.toNat = sym.val → t.codeOf sym = some code →
      (accessNext s 0x02C .read rest → ∃ w : Word, step s = .next (readReturned s rest w) ∧
        w.getLsbD 31 = true ∧ (w.extractLsb' 0 9).toNat = code.length ∧ w.extractLsb' 9 22 = 0) ∧
      (∀ k, k < 8 → accessNext s (0x040 + 4 * k) .read rest →
        ∃ w : Word, step s = .next (readReturned s rest w) ∧
          ∀ j, j < 32 → w.getLsbD j = (code[32 * k + j]?).getD false)) ∧
    ((s.blk.tree = none ∨ 257 ≤ s.blk.codeSel.toNat ∨
        ∃ (t : Tree) (sym : Sym), s.blk.tree = some t ∧ s.blk.codeSel.toNat = sym.val ∧ t.codeOf sym = none) →
      (accessNext s 0x02C .read rest → step s = .next (readReturned s rest 0)) ∧
      (∀ k, k < 8 → accessNext s (0x040 + 4 * k) .read rest →
        step s = .next (readReturned s rest 0)))

/-- R45: LEAVES reads the number of leaves, 1 to 257, and 0 without a tree. -/
def Obligations.LeavesRegisterCountsTheLeaves : Prop :=
  ∀ (s : State) (rest : List AgentStep), s.blk.seq = .idle → accessNext s 0x024 .read rest →
    (∀ t : Tree, s.blk.tree = some t → t.Valid →
      ∃ w : Word, step s = .next (readReturned s rest w) ∧
        w.toNat = t.leaves.length ∧ 1 ≤ w.toNat ∧ w.toNat ≤ 257) ∧
    (s.blk.tree = none → step s = .next (readReturned s rest 0))

/-! ### Reset -/

/-- R59: the machine after reset. Every register reads 0 but ID; the engine is IDLE, no abort is
requested and there is no tree. -/
def Obligations.ResetLeavesTheResetValues : Prop :=
  (∀ k, k < 512 → State.reset.blk.readReg (regAt (BitVec.ofNat 11 (4 * k)))
      = some (if k = 0 then 0x48554631 else 0)) ∧
  State.reset.blk.seq = .idle ∧ State.reset.blk.abortReq = false ∧ State.reset.blk.tree = none

/-- R290, R291: reset, asserted in any state, gives the block its reset values in one step; no item
of any stream moves and no agent outside changes. -/
def Obligations.ResetInputResetsOnlyTheBlock : Prop :=
  ∀ (s : State) (rest : List AgentStep), s.env.schedule = .reset :: rest →
    step s = .next ⟨State.reset.blk, { s.env with schedule := rest }⟩

/-! ### Bus operations of the opcode table -/

/-- R141: SETF stores the count in FREQ_v alone, n = 0 and n = 2^32 - 1 included, and v is in the tree
of a BUILD from that file exactly when n is not 0; while BUSY = 1 it changes only OVERRUN. -/
def Obligations.SetfStoresTheCount : Prop :=
  ∀ (v : BitVec 8) (n : Word) (s : State),
    (s.blk.seq = .idle → ∃ t, exec (.setf v n) s = .next t ∧
      t.blk.freq[v.toNat]'v.isLt = n ∧
      (∀ (u : Nat) (hu : u < 256), u ≠ v.toNat → t.blk.freq[u] = s.blk.freq[u]) ∧
      (Fin.ofNat 257 v.toNat ∈ (buildTree t.blk.freq).leaves ↔ n ≠ 0) ∧
      t.blk = { s.blk with freq := t.blk.freq } ∧ t.env = s.env) ∧
    (s.blk.seq ≠ .idle →
      exec (.setf v n) s = .next ⟨{ s.blk with overrun := true }, s.env⟩)

/-- R142: RD FREQ returns FREQ_v while BUSY = 0 and a free value while BUSY = 1, and changes nothing
of the block; after BUILD's step it returns the count BUILD used. -/
def Obligations.RdFreqReturnsTheCount : Prop :=
  ∀ (v : BitVec 8) (s : State),
    (s.blk.seq = .idle → exec (.rdFreq v) s
      = .next ⟨s.blk, { s.env with hostReads := s.env.hostReads ++ [s.blk.freq[v.toNat]'v.isLt] }⟩) ∧
    (s.blk.seq ≠ .idle → exec (.rdFreq v) s
      = .next ⟨s.blk, { s.env with
          hostReads := s.env.hostReads ++ [Config.freeWord s.env.draws], draws := s.env.draws + 1 }⟩) ∧
    (s.env.turn = .engine → s.blk.seq = .build → ∃ t u, exec .build s = .next t ∧
      exec (.rdFreq v) t = .next u ∧
      u.env.hostReads = s.env.hostReads ++ [s.blk.freq[v.toNat]'v.isLt])

/-- R150, R42: WR CODE_SEL keeps bits 8:0 of the data, any value 0 to 511; while BUSY = 1 it changes
only OVERRUN. -/
def Obligations.WrCodeSelKeepsNineBits : Prop :=
  ∀ (data : Word) (s : State),
    (s.blk.seq = .idle → ∃ t, exec (.wrCodeSel data) s = .next t ∧
      t.blk.codeSel.toNat = data.toNat % 512 ∧
      t.blk = { s.blk with codeSel := t.blk.codeSel } ∧ t.env = s.env) ∧
    (s.blk.seq ≠ .idle →
      exec (.wrCodeSel data) s = .next ⟨{ s.blk with overrun := true }, s.env⟩)

/-- R48, R51, R246: ABORT sets the latch of a running command when bit 0 of the data is 1, and
changes nothing otherwise. -/
def Obligations.AbortSetsTheLatchOfARunningCommand : Prop :=
  ∀ (data : Word) (s : State),
    (s.blk.seq ≠ .idle → data.getLsbD 0 = true →
      exec (.abort data) s = .next ⟨{ s.blk with abortReq := true }, s.env⟩) ∧
    (s.blk.seq = .idle ∨ data.getLsbD 0 = false → exec (.abort data) s = .next s)

/-! ### Acceptance and end of commands -/

/-- R241: what accepting a command word leaves, for each of the ten rows of command words, with the
position at which the command starts (R53 to R55); while BUSY = 1 the word is not accepted. -/
def Obligations.AcceptanceStartsTheCommand : Prop :=
  ∀ (i : Instr) (w : Word) (s : State), i.wellFormed = true → encode i = ⟨0x008, .write w⟩ →
    s.env.turn = .host →
    (s.blk.seq = .idle → ∃ t, exec i s = .next t ∧ t.env = s.env ∧
      t.blk.seq.instr? = some i ∧
      (i = .nop → t.blk.seq = .nop) ∧
      (i = .clearFreq → t.blk.seq = .clearFreq) ∧
      (i = .build → t.blk.seq = .build) ∧
      (i = .writeHeader → t.blk.seq = .writeHeader 0) ∧
      (i = .readHeader → t.blk.seq = .readHeader ReadProgress.start) ∧
      (i = .encode → t.blk.seq = .encode .start) ∧
      (i = .decode → t.blk.seq = .decode .start) ∧
      (isIllegal i = true → t.blk.seq = .illegal w) ∧
      t.blk.busy = true ∧ t.blk.done = false ∧ t.blk.err = false ∧ t.blk.errCode = .none ∧
      t.blk.overrun = false ∧ t.blk.lastOp = w.extractLsb' 0 4 ∧ t.blk.errInfo = 0 ∧
      t.blk.bitsIn = 0 ∧ t.blk.bitsOut = 0 ∧ t.blk.bytesIn = 0 ∧ t.blk.bytesOut = 0 ∧
      t.blk.abortReq = false ∧
      t.blk.tree = (if i = .build ∨ i = .readHeader then none else s.blk.tree) ∧
      t.blk.freq = s.blk.freq ∧ t.blk.codeSel = s.blk.codeSel) ∧
    (s.blk.seq ≠ .idle → exec i s = .next ⟨{ s.blk with overrun := true }, s.env⟩)

/-- R244, R243: NOP ends with success in one step, abort or not, and changes nothing else. -/
def Obligations.NopEndsWithSuccess : Prop :=
  ∀ s : State, s.env.turn = .engine → s.blk.seq = .nop →
    exec .nop s = .next ⟨ended s.blk .none false 0, s.env⟩

/-- R245, R112: each illegal row ends with ILLEGAL_CMD and ERRINFO = the word. -/
def Obligations.IllegalCommandReportsItsWord : Prop :=
  ∀ (s : State) (w : Word), s.env.turn = .engine → s.blk.seq = .illegal w →
    exec .illegalOp7 s = .next ⟨ended s.blk .illegalCmd true w, s.env⟩ ∧
    (∀ low, exec (.illegalOp8F low) s = .next ⟨ended s.blk .illegalCmd true w, s.env⟩) ∧
    (∀ rsv op, exec (.illegalRsv rsv op) s = .next ⟨ended s.blk .illegalCmd true w, s.env⟩)

/-- R245: an illegal word written to CMD while BUSY = 0, and the engine's next step: the word is
reported, and tree, FREQ, CODE_SEL and every port are as they were. -/
def Obligations.IllegalWordChangesOnlyStatus : Prop :=
  ∀ (s : State) (w : Word) (rest : List AgentStep), s.blk.seq = .idle →
    w.extractLsb' 4 28 ≠ 0 ∨ 7 ≤ (w.extractLsb' 0 4).toNat →
    accessNext s 0x008 (.write w) (.engine :: rest) →
    run 2 s = .next
      ⟨{ s.blk with
          done := true, err := true, errCode := .illegalCmd, overrun := false,
          lastOp := w.extractLsb' 0 4, errInfo := w, bitsIn := 0, bitsOut := 0, bytesIn := 0,
          bytesOut := 0, abortReq := false },
        engineTurn s.env rest⟩

/-- R143: CLEAR_FREQ zeroes every FREQ register in one step and ends with success, abort or not; the
tree and all else stay. -/
def Obligations.ClearFreqZeroesTheFile : Prop :=
  ∀ s : State, s.env.turn = .engine → s.blk.seq = .clearFreq →
    ∃ t, exec .clearFreq s = .next t ∧ (∀ (v : Nat) (hv : v < 256), t.blk.freq[v] = 0) ∧
      t.blk = { ended s.blk .none false 0 with freq := t.blk.freq } ∧ t.env = s.env

/-- R146, R58: BUILD puts the tree of the frequency file in the store in one step and ends with
success, abort or not; FREQ, CODE_SEL, the counters and every port stay. -/
def Obligations.BuildStoresTheTreeAndEnds : Prop :=
  ∀ s : State, s.env.turn = .engine → s.blk.seq = .build →
    exec .build s
      = .next ⟨{ ended s.blk .none false 0 with tree := some (buildTree s.blk.freq) }, s.env⟩

/-- R170, R201, R222, R264: without a tree the first step of WRITE_HEADER, ENCODE and DECODE ends the
command with NO_TREE, abort or not, and moves no item. -/
def Obligations.NoTreeEndsTheCommandAtItsFirstStep : Prop :=
  ∀ s : State, s.env.turn = .engine → s.blk.tree = none →
    (s.blk.seq = .writeHeader 0 →
      exec .writeHeader s = .next ⟨ended s.blk .noTree true 0, s.env⟩) ∧
    (s.blk.seq = .encode .start → exec .encode s = .next ⟨ended s.blk .noTree true 0, s.env⟩) ∧
    (s.blk.seq = .decode .start → exec .decode s = .next ⟨ended s.blk .noTree true 0, s.env⟩)

/-! ### ABORT and holds -/

/-- R246: at every step that would perform a transaction the requested abort ends the command with
ABORTED, whether or not the partner takes part; where WRITE_HEADER, ENCODE or DECODE reaches
`finish` first, the abort has no effect (R246 (c)). -/
def Obligations.AbortIsTakenBeforeATransaction : Prop :=
  ∀ (s : State) (t : Tree), s.env.turn = .engine → s.blk.abortReq = true →
    (∀ pos, s.blk.tree = some t → s.blk.seq = .writeHeader pos →
      (pos < t.hdr.length → exec .writeHeader s = .next ⟨ended s.blk .aborted true 0, s.env⟩) ∧
      (t.hdr.length ≤ pos → exec .writeHeader s = .next ⟨ended s.blk .none false 0, s.env⟩)) ∧
    (∀ p, s.blk.seq = .readHeader p →
      p.pending = none ∨ (∃ it q, p.pending = some it ∧ readItem p it = .more q) →
      exec .readHeader s = .next ⟨ended s.blk .aborted true 0, s.env⟩) ∧
    (s.blk.tree = some t →
      s.blk.seq = .encode .start ∨
        (∃ sym index code, s.blk.seq = .encode (.send sym index) ∧ t.codeOf sym = some code ∧
          (index < code.length ∨ sym ≠ eof)) ∨
        (∃ v code, s.blk.seq = .encode (.got (.byte v)) ∧ t.codeOf (symOfByte v) = some code) ∨
        (∃ code, s.blk.seq = .encode (.got .endOfMessage) ∧ t.codeOf eof = some code ∧ code ≠ []) →
      exec .encode s = .next ⟨ended s.blk .aborted true 0, s.env⟩) ∧
    (∀ code, s.blk.tree = some t → t.codeOf eof = some code →
      (∃ index, s.blk.seq = .encode (.send eof index) ∧ code.length ≤ index) ∨
        (s.blk.seq = .encode (.got .endOfMessage) ∧ code = []) →
      exec .encode s = .next ⟨ended s.blk .none false 0, s.env⟩) ∧
    (∀ next, s.blk.tree = some t →
      (s.blk.seq = .decode .start ∧ next = t) ∨
        (∃ cur b, s.blk.seq = .decode (.got cur (.bit b)) ∧ cur.child? b = some next) →
      (next ≠ .leaf eof → exec .decode s = .next ⟨ended s.blk .aborted true 0, s.env⟩) ∧
      (next = .leaf eof → exec .decode s = .next ⟨ended s.blk .none false 0, s.env⟩)) ∧
    (s.blk.tree = some t → s.blk.seq = .decode .emitted →
      exec .decode s = .next ⟨ended s.blk .aborted true 0, s.env⟩)

/-- R246, R247: once ABORT_REQ is set, the running command ends at the engine's next step and moves
no item; the counters, CODE_SEL and OVERRUN keep their values, and where the abort was taken the
tree store and the FREQ file do too. -/
def Obligations.AbortRequestEndsTheCommandAtItsNextStep : Prop :=
  ∀ (s t : State) (rest : List AgentStep), Inv s → s.blk.abortReq = true → s.blk.seq ≠ .idle →
    s.env.schedule = .engine :: rest → step s = .next t →
    t.env = engineTurn s.env rest ∧
    ∃ (code : ErrorCode) (err : Bool) (info : Word),
      t.blk = { ended s.blk code err info with tree := t.blk.tree, freq := t.blk.freq } ∧
      (code = .aborted → err = true ∧ info = 0 ∧ t.blk.tree = s.blk.tree ∧ t.blk.freq = s.blk.freq)

/-- R87, R275 (3): where the partner does not take part and no abort is requested, the engine has no
step. The model's engine turn then changes nothing (assumption 5). The first clause is about every
command: with no partner at all, an engine turn ends a command only where the command's own rule
ends it, and else leaves the block as it is. The second says at every position of WRITE_HEADER,
READ_HEADER, ENCODE and DECODE which one partner it is that the step waits for. -/
def Obligations.EngineHoldsForItsPartner : Prop :=
  (∀ (s u : State) (rest : List AgentStep), s.blk.abortReq = false → s.env.bitIn = [] →
    s.env.byteIn = [] → s.env.bitRoom = 0 → s.env.byteRoom = 0 →
    s.env.schedule = .engine :: rest → step s = .next u →
    u.env = engineTurn s.env rest ∧ (¬ endsNow s.blk → u.blk = s.blk) ∧
      (endsNow s.blk → u.blk.seq = .idle ∧ u.blk.done = true)) ∧
  ∀ (s : State) (t : Tree), s.env.turn = .engine → s.blk.abortReq = false →
    (∀ pos, s.blk.tree = some t → s.blk.seq = .writeHeader pos → pos < t.hdr.length →
      s.env.bitRoom = 0 → exec .writeHeader s = .next s) ∧
    (∀ p, s.blk.seq = .readHeader p →
      p.pending = none ∨ (∃ it q, p.pending = some it ∧ readItem p it = .more q) →
      s.env.bitIn = [] → exec .readHeader s = .next s) ∧
    (s.blk.tree = some t → s.env.byteIn = [] →
      s.blk.seq = .encode .start ∨
        (∃ sym index code, s.blk.seq = .encode (.send sym index) ∧ sym ≠ eof ∧
          t.codeOf sym = some code ∧ code.length ≤ index) ∨
        (∃ v, s.blk.seq = .encode (.got (.byte v)) ∧ t.codeOf (symOfByte v) = some []) →
      exec .encode s = .next s) ∧
    (∀ sym index code, s.blk.tree = some t → s.env.bitRoom = 0 → t.codeOf sym = some code →
      index < code.length →
      s.blk.seq = .encode (.send sym index) ∨
        (index = 0 ∧ ∃ v, s.blk.seq = .encode (.got (.byte v)) ∧ sym = symOfByte v) ∨
        (index = 0 ∧ s.blk.seq = .encode (.got .endOfMessage) ∧ sym = eof) →
      exec .encode s = .next s) ∧
    (∀ cur, s.blk.tree = some t → s.env.bitIn = [] →
      (s.blk.seq = .decode .start ∧ cur = t ∧ cur.isBranch = true) ∨
        (s.blk.seq = .decode .emitted ∧ cur = t) ∨
        (∃ above b, s.blk.seq = .decode (.got above (.bit b)) ∧ above.child? b = some cur ∧
          cur.isBranch = true) →
      exec .decode s = .next s) ∧
    (∀ sym, s.blk.tree = some t → s.env.byteRoom = 0 → sym ≠ eof →
      (s.blk.seq = .decode .start ∧ t = .leaf sym) ∨
        (∃ above b, s.blk.seq = .decode (.got above (.bit b)) ∧ above.child? b = some (.leaf sym)) →
      exec .decode s = .next s)

/-! ### Whole-machine rules -/

/-- R87, R88, R47: a step of the engine moves at most one item, counts it, and touches nothing else
outside the block. -/
def Obligations.EngineStepMovesAtMostOneItem : Prop :=
  ∀ (s t : State) (rest : List AgentStep), s.env.schedule = .engine :: rest → step s = .next t →
    (t.env = engineTurn s.env rest ∧ t.blk.bitsIn = s.blk.bitsIn ∧ t.blk.bitsOut = s.blk.bitsOut ∧
      t.blk.bytesIn = s.blk.bytesIn ∧ t.blk.bytesOut = s.blk.bytesOut) ∨
    (∃ it, s.env.bitIn = it :: t.env.bitIn ∧
      t.env = { engineTurn s.env rest with bitIn := t.env.bitIn } ∧
      t.blk.bitsIn = s.blk.bitsIn + (match it with | .bit _ => 1 | .eod => 0) ∧
      t.blk.bitsOut = s.blk.bitsOut ∧ t.blk.bytesIn = s.blk.bytesIn ∧
      t.blk.bytesOut = s.blk.bytesOut) ∨
    (∃ b, s.env.bitRoom = t.env.bitRoom + 1 ∧
      t.env = { engineTurn s.env rest with
        bitOut := s.env.bitOut ++ [b], bitRoom := t.env.bitRoom } ∧
      t.blk.bitsOut = s.blk.bitsOut + 1 ∧ t.blk.bitsIn = s.blk.bitsIn ∧
      t.blk.bytesIn = s.blk.bytesIn ∧ t.blk.bytesOut = s.blk.bytesOut) ∨
    (∃ it, s.env.byteIn = it :: t.env.byteIn ∧
      t.env = { engineTurn s.env rest with byteIn := t.env.byteIn } ∧
      t.blk.bytesIn = s.blk.bytesIn + (match it with | .byte _ => 1 | .endOfMessage => 0) ∧
      t.blk.bitsIn = s.blk.bitsIn ∧ t.blk.bitsOut = s.blk.bitsOut ∧
      t.blk.bytesOut = s.blk.bytesOut) ∨
    (∃ v, s.env.byteRoom = t.env.byteRoom + 1 ∧
      t.env = { engineTurn s.env rest with
        byteOut := s.env.byteOut ++ [v], byteRoom := t.env.byteRoom } ∧
      t.blk.bytesOut = s.blk.bytesOut + 1 ∧ t.blk.bitsIn = s.blk.bitsIn ∧
      t.blk.bitsOut = s.blk.bitsOut ∧ t.blk.bytesIn = s.blk.bytesIn)

/-- R58, R241, R290: the tree store changes only when BUILD or READ_HEADER is accepted, at BUILD's
engine step, at READ_HEADER's last step, or at reset. -/
def Obligations.OnlyBuildReadHeaderAndResetChangeTheTree : Prop :=
  ∀ s t : State, step s = .next t → t.blk.tree ≠ s.blk.tree →
    (∃ a rest, s.env.schedule = .host a :: rest ∧ s.blk.seq = .idle ∧ t.blk.tree = none ∧
      (decodeAccess s.env.huffBase a = .instr .build ∨
        decodeAccess s.env.huffBase a = .instr .readHeader)) ∨
    (∃ rest, s.env.schedule = .engine :: rest ∧ s.blk.seq = .build) ∨
    (∃ rest p, s.env.schedule = .engine :: rest ∧ s.blk.seq = .readHeader p ∧
      t.blk.seq = .idle ∧ t.blk.err = false) ∨
    (∃ rest, s.env.schedule = .reset :: rest)

/-- R40, R84, R96: the FREQ file changes only by SETF while BUSY = 0, by CLEAR_FREQ's engine step,
or at reset. -/
def Obligations.OnlySetfClearFreqAndResetChangeTheCounts : Prop :=
  ∀ s t : State, step s = .next t → t.blk.freq ≠ s.blk.freq →
    (∃ a rest v n, s.env.schedule = .host a :: rest ∧ s.blk.seq = .idle ∧
      decodeAccess s.env.huffBase a = .instr (.setf v n)) ∨
    (∃ rest, s.env.schedule = .engine :: rest ∧ s.blk.seq = .clearFreq) ∨
    (∃ rest, s.env.schedule = .reset :: rest)

/-- R240, R49: the engine starts a command only on a write to CMD while it is IDLE. -/
def Obligations.OnlyACmdWriteStartsACommand : Prop :=
  ∀ s t : State, step s = .next t → s.blk.seq = .idle → t.blk.seq ≠ .idle →
    ∃ rest w, accessNext s 0x008 (.write w) rest

/-! ### Codes, header and tree builder -/

/-- R38: the codes of a valid tree are prefix-free and at most 256 bits long. -/
def Obligations.CodesArePrefixFreeAndShort : Prop :=
  ∀ (t : Tree), t.Valid →
    (∀ (a b : Sym) (ca cb : Bits), t.codeOf a = some ca → t.codeOf b = some cb → a ≠ b →
      ¬ ca <+: cb) ∧
    (∀ (a : Sym) (ca : Bits), t.codeOf a = some ca → ca.length ≤ 256)

/-- R118: the header of a valid tree with L leaves has exactly 11L - 1 bits, between 10 and 2826. -/
def Obligations.HeaderHasElevenBitsALeafLessOne : Prop :=
  ∀ t : Tree, t.hdr.length = 11 * t.leaves.length - 1 ∧
    (t.Valid → 10 ≤ t.hdr.length ∧ t.hdr.length ≤ 2826)

/-- R116: the symbol field is nine bits, least significant first, for every value 0 to 511, and
reading it back gives the value. -/
def Obligations.SymbolFieldIsNineBitsLsbFirst : Prop :=
  ∀ v : Nat, v < 512 → (f9 v).length = 9 ∧ (∀ i, i < 9 → (f9 v)[i]? = some (v.testBit i)) ∧
    valueLE (f9 v) = v

/-- R144, R148, R36: the tree of a frequency file is valid; its leaves are EOF and the byte values
with a nonzero count. -/
def Obligations.BuildTreeHasTheNonzeroSymbolsAndEof : Prop :=
  ∀ freq : Vector Word 256, (buildTree freq).Valid ∧
    (∀ (v : Nat) (hv : v < 256), Fin.ofNat 257 v ∈ (buildTree freq).leaves ↔ freq[v] ≠ 0) ∧
    (buildTree freq).leaves.length = (freq.toList.filter (· ≠ 0)).length + 1

/-- R147: the root's weight is the sum of all counts plus 1, exactly, and stays below 2^40. -/
def Obligations.BuildWeightsAreExact : Prop :=
  ∀ freq : Vector Word 256, ∃ root, buildRoot freq.toList = some root ∧
    root.t = buildTree freq ∧
    root.w = (freq.toList.map BitVec.toNat).sum + 1 ∧ root.w ≤ 2 ^ 40 - 255

/-- R145, R146: what BUILD removes from the priority structure comes before every node it leaves,
by weight and then by sequence number, and nothing else is lost. -/
def Obligations.BuildRemovesTheFirstNode : Prop :=
  ∀ (q r : List Node) (m : Node), (q.map Node.k).Nodup → takeFirst q = some (m, r) →
    q.Perm (m :: r) ∧ ∀ x ∈ r, m.w < x.w ∨ (m.w = x.w ∧ m.k < x.k)

/-- R146 (a), (b): the trees of the empty file and of a file with one nonzero count. -/
def Obligations.BuildOfAtMostOneSymbol : Prop :=
  (∀ freq : Vector Word 256, (∀ (u : Nat) (hu : u < 256), freq[u] = 0) →
    buildTree freq = .leaf eof) ∧
  (∀ (freq : Vector Word 256) (v : Nat) (hv : v < 256),
    (∀ (u : Nat) (hu : u < 256), u ≠ v → freq[u] = 0) →
    (freq[v] = 1 → buildTree freq = .branch (.leaf (Fin.ofNat 257 v)) (.leaf eof)) ∧
    (2 ≤ freq[v].toNat → buildTree freq = .branch (.leaf eof) (.leaf (Fin.ofNat 257 v))))

/-! ### WRITE_HEADER -/

/-- R170, R242: every engine step of WRITE_HEADER that no abort and no hold stops: it sends the bit
at its position, and after the last bit it ends with success. -/
def Obligations.WriteHeaderStepSendsTheNextBit : Prop :=
  ∀ (s : State) (t : Tree) (pos : Nat), s.env.turn = .engine → s.blk.abortReq = false →
    s.blk.seq = .writeHeader pos → s.blk.tree = some t →
    (∀ (h : pos < t.hdr.length) (room : Nat), s.env.bitRoom = room + 1 →
      exec .writeHeader s = .next
        ⟨{ s.blk with seq := .writeHeader (pos + 1), bitsOut := s.blk.bitsOut + 1 },
          { s.env with bitOut := s.env.bitOut ++ [t.hdr[pos]], bitRoom := room }⟩) ∧
    (t.hdr.length ≤ pos → exec .writeHeader s = .next ⟨ended s.blk .none false 0, s.env⟩)

/-- R170, R171, R115: WRITE_HEADER, with a sink that accepts, sends exactly `hdr(tree)`, one bit a
step and one final step, and changes nothing else. -/
def Obligations.WriteHeaderSendsTheHeader : Prop :=
  ∀ (s : State) (t : Tree) (rest : List AgentStep),
    s.blk.seq = .writeHeader 0 → s.blk.tree = some t → s.blk.abortReq = false →
    t.hdr.length ≤ s.env.bitRoom →
    s.env.schedule = List.replicate (t.hdr.length + 1) .engine ++ rest →
    run (t.hdr.length + 1) s = .next
      ⟨{ ended s.blk .none false 0 with bitsOut := s.blk.bitsOut + BitVec.ofNat 32 t.hdr.length },
        { engineTurn s.env rest with
          bitOut := s.env.bitOut ++ t.hdr, bitRoom := s.env.bitRoom - t.hdr.length }⟩

/-! ### READ_HEADER -/

/-- R176, R242: the engine steps of READ_HEADER that go on to another bit: the first step, after a
discriminator, inside a leaf's field, and after a leaf that completes the branches whose left
children are `ls` and with them the left child of an outer branch. Each consumes the next item. -/
def Obligations.ReadHeaderStepConsumesTheNextItem : Prop :=
  ∀ (s : State) (p : ReadProgress) (it : BitItem) (more : List BitItem),
    s.env.turn = .engine → s.blk.abortReq = false → s.blk.seq = .readHeader p →
    s.env.bitIn = it :: more →
    let goesOnAt : ReadProgress → Prop := fun q => exec .readHeader s = .next
      ⟨{ s.blk with
          seq := .readHeader { q with pending := some it }
          bitsIn := s.blk.bitsIn + (match it with | .bit _ => 1 | .eod => 0) },
        { s.env with bitIn := more }⟩
    (p.pending = none → goesOnAt p) ∧
    (p.pending = some (.bit true) → p.field = none → goesOnAt { p with field := some [] }) ∧
    (p.pending = some (.bit false) → p.field = none → p.nbr < 256 →
      goesOnAt { p with open_ := none :: p.open_, nbr := p.nbr + 1 }) ∧
    (∀ b bits, p.pending = some (.bit b) → p.field = some bits → bits.length < 8 →
      goesOnAt { p with field := some (bits ++ [b]) }) ∧
    (∀ b bits sym, p.pending = some (.bit b) → p.field = some bits → bits.length = 8 →
      valueLE (bits ++ [b]) = sym.val → sym ∉ p.seen →
      ∀ (ls : List Tree) (outer : List (Option Tree)), p.open_ = ls.map some ++ none :: outer →
        goesOnAt ⟨some (ls.foldl (fun t l => .branch l t) (.leaf sym)) :: outer, sym :: p.seen,
          p.nbr, none, none⟩)

/-- R177: the five checks of READ_HEADER, each at its place, abort or not; no further item is
consumed. -/
def Obligations.ReadHeaderReportsEachFormatError : Prop :=
  ∀ (s : State) (p : ReadProgress), s.env.turn = .engine → s.blk.seq = .readHeader p →
    (p.pending = some .eod →
      exec .readHeader s = .next ⟨ended s.blk .hdrTruncated true 0, s.env⟩) ∧
    (p.pending = some (.bit false) → p.field = none → p.nbr = 256 →
      exec .readHeader s = .next ⟨ended s.blk .hdrTooManyNodes true 0, s.env⟩) ∧
    (∀ b bits, p.pending = some (.bit b) → p.field = some bits → bits.length = 8 →
      (256 < valueLE (bits ++ [b]) →
        exec .readHeader s = .next
          ⟨ended s.blk .hdrBadSymbol true (BitVec.ofNat 32 (valueLE (bits ++ [b]))), s.env⟩) ∧
      (∀ sym : Sym, valueLE (bits ++ [b]) = sym.val → sym ∈ p.seen →
        exec .readHeader s = .next
          ⟨ended s.blk .hdrDupSymbol true (BitVec.ofNat 32 sym.val), s.env⟩) ∧
      (∀ sym : Sym, valueLE (bits ++ [b]) = sym.val → sym ∉ p.seen →
        (∃ ls : List Tree, p.open_ = ls.map some) → sym ≠ eof → eof ∉ p.seen →
        exec .readHeader s = .next ⟨ended s.blk .hdrNoEof true 0, s.env⟩))

/-- R176: the last step of READ_HEADER: the last leaf completes every open branch, whose left children
are `ls`, and with EOF among the leaves the tree is stored. A header of one leaf has `ls` empty. -/
def Obligations.ReadHeaderStoresTheCompleteTree : Prop :=
  ∀ (s : State) (p : ReadProgress) (b : Bool) (bits : Bits) (sym : Sym) (ls : List Tree),
    s.env.turn = .engine → s.blk.seq = .readHeader p → p.pending = some (.bit b) →
    p.field = some bits → bits.length = 8 → valueLE (bits ++ [b]) = sym.val → sym ∉ p.seen →
    sym = eof ∨ eof ∈ p.seen → p.open_ = ls.map some →
    exec .readHeader s = .next
      ⟨{ ended s.blk .none false 0 with
          tree := some (ls.foldl (fun t l => .branch l t) (.leaf sym)) }, s.env⟩

/-- R180: READ_HEADER on a bit source that starts with `hdr(t)` stores t, consumes exactly those bits
and ends with success, for every valid tree. -/
def Obligations.ReadHeaderReadsBackTheTree : Prop :=
  ∀ (s : State) (t : Tree) (after : List BitItem) (rest : List AgentStep), t.Valid →
    s.blk.seq = .readHeader ReadProgress.start → s.blk.abortReq = false →
    s.env.bitIn = t.hdr.map .bit ++ after →
    s.env.schedule = List.replicate (t.hdr.length + 1) .engine ++ rest →
    run (t.hdr.length + 1) s = .next
      ⟨{ ended s.blk .none false 0 with
          tree := some t, bitsIn := s.blk.bitsIn + BitVec.ofNat 32 t.hdr.length },
        { engineTurn s.env rest with bitIn := after }⟩

/-- R179, R117: in every good state READ_HEADER has consumed at most 2826 bits. -/
def Obligations.ReadHeaderConsumesAtMost2826Bits : Prop :=
  ∀ (s : State) (p : ReadProgress), Inv s → s.blk.seq = .readHeader p →
    s.blk.bitsIn.toNat ≤ 2826

/-- R179: READ_HEADER ends within 2827 engine steps from its acceptance when the bit source keeps
offering items, whatever they are. -/
def Obligations.ReadHeaderEndsOnEveryBitSource : Prop :=
  ∀ (s : State) (rest : List AgentStep), Inv s →
    s.blk.seq = .readHeader ReadProgress.start → 2826 ≤ s.env.bitIn.length →
    s.env.schedule = List.replicate 2827 .engine ++ rest →
    ∃ t, run 2827 s = .next t ∧ t.blk.seq = .idle ∧ t.blk.done = true

/-! ### ENCODE -/

/-- R201, R242: the engine steps of ENCODE that no abort and no hold stops. -/
def Obligations.EncodeStepFollowsTheMessage : Prop :=
  ∀ (s : State) (t : Tree), s.env.turn = .engine → s.blk.abortReq = false →
    s.blk.tree = some t →
    (∀ it more, s.env.byteIn = it :: more →
      s.blk.seq = .encode .start ∨
        (∃ sym index code, s.blk.seq = .encode (.send sym index) ∧ sym ≠ eof ∧
          t.codeOf sym = some code ∧ code.length ≤ index) ∨
        (∃ v, s.blk.seq = .encode (.got (.byte v)) ∧ t.codeOf (symOfByte v) = some []) →
      exec .encode s = .next
        ⟨{ s.blk with
            seq := .encode (.got it)
            bytesIn := s.blk.bytesIn + (match it with | .byte _ => 1 | .endOfMessage => 0) },
          { s.env with byteIn := more }⟩) ∧
    (∀ sym index code room, t.codeOf sym = some code → s.env.bitRoom = room + 1 →
      ∀ h : index < code.length,
      s.blk.seq = .encode (.send sym index) ∨
        (index = 0 ∧ ∃ v, s.blk.seq = .encode (.got (.byte v)) ∧ sym = symOfByte v) ∨
        (index = 0 ∧ s.blk.seq = .encode (.got .endOfMessage) ∧ sym = eof) →
      exec .encode s = .next
        ⟨{ s.blk with seq := .encode (.send sym (index + 1)), bitsOut := s.blk.bitsOut + 1 },
          { s.env with bitOut := s.env.bitOut ++ [code[index]], bitRoom := room }⟩) ∧
    (∀ code, t.codeOf eof = some code →
      (∃ index, s.blk.seq = .encode (.send eof index) ∧ code.length ≤ index) ∨
        (s.blk.seq = .encode (.got .endOfMessage) ∧ code = []) →
      exec .encode s = .next ⟨ended s.blk .none false 0, s.env⟩)

/-- R202: an unmapped byte ends ENCODE at once, abort or not, with ERRINFO = the byte; nothing more
is consumed or sent. -/
def Obligations.EncodeStopsAtAnUnmappedByte : Prop :=
  ∀ (s : State) (t : Tree) (v : Byte), s.env.turn = .engine → s.blk.tree = some t →
    s.blk.seq = .encode (.got (.byte v)) → t.codeOf (symOfByte v) = none →
    exec .encode s = .next ⟨ended s.blk .encUnmapped true (BitVec.ofNat 32 v.toNat), s.env⟩

/-- R201, R203, R114: ENCODE of a message whose bytes are all mapped, with a sink that accepts, sends
exactly the payload, consumes the message and its `End`, and ends with success. -/
def Obligations.EncodeSendsThePayload : Prop :=
  ∀ (s : State) (t : Tree) (m : List Byte) (p : Bits) (after : List ByteItem)
    (rest : List AgentStep),
    t.payload m = some p → s.blk.tree = some t → s.blk.seq = .encode .start →
    s.blk.abortReq = false → s.env.byteIn = m.map .byte ++ .endOfMessage :: after →
    p.length ≤ s.env.bitRoom →
    s.env.schedule = List.replicate (m.length + p.length + 2) .engine ++ rest →
    run (m.length + p.length + 2) s = .next
      ⟨{ ended s.blk .none false 0 with
          bytesIn := s.blk.bytesIn + BitVec.ofNat 32 m.length
          bitsOut := s.blk.bitsOut + BitVec.ofNat 32 p.length },
        { engineTurn s.env rest with
          byteIn := after, bitOut := s.env.bitOut ++ p, bitRoom := s.env.bitRoom - p.length }⟩

/-! ### DECODE -/

/-- R222, R223, R242: the engine steps of DECODE that no abort and no hold stops: a bit is read at a
branch, the byte of a leaf is sent, and the EOF leaf ends the command with success. -/
def Obligations.DecodeStepWalksTheTree : Prop :=
  ∀ (s : State) (t : Tree), s.env.turn = .engine → s.blk.abortReq = false →
    s.blk.tree = some t →
    (∀ cur it more, s.env.bitIn = it :: more →
      (s.blk.seq = .decode .start ∧ cur = t ∧ cur.isBranch = true) ∨
        (s.blk.seq = .decode .emitted ∧ cur = t) ∨
        (∃ above b, s.blk.seq = .decode (.got above (.bit b)) ∧ above.child? b = some cur ∧
          cur.isBranch = true) →
      exec .decode s = .next
        ⟨{ s.blk with
            seq := .decode (.got cur it)
            bitsIn := s.blk.bitsIn + (match it with | .bit _ => 1 | .eod => 0) },
          { s.env with bitIn := more }⟩) ∧
    (∀ sym room, sym ≠ eof → s.env.byteRoom = room + 1 →
      (s.blk.seq = .decode .start ∧ t = .leaf sym) ∨
        (∃ above b, s.blk.seq = .decode (.got above (.bit b)) ∧
          above.child? b = some (.leaf sym)) →
      exec .decode s = .next
        ⟨{ s.blk with seq := .decode .emitted, bytesOut := s.blk.bytesOut + 1 },
          { s.env with
            byteOut := s.env.byteOut ++ [BitVec.ofNat 8 sym.val], byteRoom := room }⟩) ∧
    ((s.blk.seq = .decode .start ∧ t = .leaf eof) ∨
        (∃ above b, s.blk.seq = .decode (.got above (.bit b)) ∧
          above.child? b = some (.leaf eof)) →
      exec .decode s = .next ⟨ended s.blk .none false 0, s.env⟩)

/-- R222, R224: EOD before the EOF leaf ends DECODE with DEC_TRUNCATED, abort or not; what was sent
stays sent. -/
def Obligations.DecodeReportsATruncatedStream : Prop :=
  ∀ (s : State) (t cur : Tree), s.env.turn = .engine → s.blk.tree = some t →
    s.blk.seq = .decode (.got cur .eod) →
    exec .decode s = .next ⟨ended s.blk .decTruncated true 0, s.env⟩

/-- R225, R203, R88: DECODE on a bit source that starts with the payload of m sends m, consumes
exactly the payload, whatever follows it, and ends with success. -/
def Obligations.DecodeRecoversTheMessage : Prop :=
  ∀ (s : State) (t : Tree) (m : List Byte) (p : Bits) (after : List BitItem)
    (rest : List AgentStep),
    t.payload m = some p → s.blk.tree = some t → s.blk.seq = .decode .start →
    s.blk.abortReq = false → s.env.bitIn = p.map .bit ++ after → m.length ≤ s.env.byteRoom →
    s.env.schedule = List.replicate (m.length + p.length + 1) .engine ++ rest →
    run (m.length + p.length + 1) s = .next
      ⟨{ ended s.blk .none false 0 with
          bitsIn := s.blk.bitsIn + BitVec.ofNat 32 p.length
          bytesOut := s.blk.bytesOut + BitVec.ofNat 32 m.length },
        { engineTurn s.env rest with
          bitIn := after, byteOut := s.env.byteOut ++ m, byteRoom := s.env.byteRoom - m.length }⟩

/-! ### The invariant -/

/-- R59: the invariant holds after reset. -/
def Obligations.InvariantHoldsAfterReset : Prop := Inv State.reset

/-- R33, R34, R36, R51, R53 to R55, R58: every step of every agent, in every good state, leads to a
good state. -/
def Obligations.EveryStepKeepsTheInvariant : Prop :=
  ∀ s t : State, Inv s → step s = .next t → Inv t

/-- R222, R261, R275: in a good state no step stops the machine; an error is an outcome recorded in
STATUS, never a fault or a refusal of the model. -/
def Obligations.NoStepOfAGoodStateStops : Prop :=
  ∀ s : State, Inv s → ∃ t, step s = .next t
end

