-- ==== Sys2Proof/Laws/Decode.lean ====
section
/-! SUPPORT. Lemmas of the encodings: the fields of a command word, and the register map read in
both directions. -/

namespace Sys2Proof.Laws

open Sys2Proof

/-- Bit i of a command word is bit i of OP, or bit i - 4 of RSV (R110). -/
theorem rsvWord_getLsbD (rsv : BitVec 28) (op : BitVec 4) (i : Nat) :
    (rsvWord rsv op).getLsbD i = if i < 4 then op.getLsbD i else rsv.getLsbD (i - 4) :=
  BitVec.getLsbD_append.trans (by split <;> simp_all)

@[simp] theorem rsvWord_rsv (rsv : BitVec 28) (op : BitVec 4) :
    (rsvWord rsv op).extractLsb' 4 28 = rsv := by
  apply BitVec.eq_of_getLsbD_eq
  intro i hi
  have h4 : ¬ 4 + i < 4 := by omega
  simp only [BitVec.getLsbD_extractLsb', rsvWord_getLsbD, hi, h4]
  simp

@[simp] theorem rsvWord_op (rsv : BitVec 28) (op : BitVec 4) :
    (rsvWord rsv op).extractLsb' 0 4 = op := by
  apply BitVec.eq_of_getLsbD_eq
  intro i hi
  simp only [BitVec.getLsbD_extractLsb', rsvWord_getLsbD, Nat.zero_add, hi]
  simp

/-- A command word is its RSV field and its OP field (R110). -/
theorem rsvWord_fields (w : Word) : rsvWord (w.extractLsb' 4 28) (w.extractLsb' 0 4) = w := by
  apply BitVec.eq_of_getLsbD_eq
  intro i hi
  simp only [rsvWord_getLsbD, BitVec.getLsbD_extractLsb']
  split
  · simp_all
  · have h1 : i - 4 < 28 := by omega
    have h2 : 4 + (i - 4) = i := by omega
    simp [h1, h2]

/-- FREQ_v's offset is aligned and is FREQ_v's (R32). -/
theorem regAt_freqOffset (v : BitVec 8) :
    (regOffset (.freq v)).extractLsb' 0 2 = 0 ∧ regAt (regOffset (.freq v)) = .freq v := by
  revert v
  decide +kernel

/-- What `regAt` says an aligned offset is, `regOffset` gives back, for the registers that a host
write or an operation names (R32). -/
theorem regOffset_regAt (off : BitVec 11) (ha : off.extractLsb' 0 2 = 0) :
    match regAt off with
    | .cmd => off = 0x008
    | .ctrl => off = 0x004
    | .codeSel => off = 0x028
    | .freq v => off = regOffset (.freq v)
    | _ => True := by
  have h : ∀ off : BitVec 11, off.extractLsb' 0 2 = 0 →
      (match regAt off with
        | .cmd => decide (off = 0x008)
        | .ctrl => decide (off = 0x004)
        | .codeSel => decide (off = 0x028)
        | .freq v => decide (off = regOffset (.freq v))
        | _ => true) = true := by decide +kernel
  have := h off ha
  cases hr : regAt off <;> simp_all

/-- An access inside the window is decoded by its offset (R80). -/
theorem decodeAccess_word (base off : Nat) (op : BusOp) (h : off < 2048) :
    decodeAccess base ⟨base + off, .word, op⟩ = decode ⟨BitVec.ofNat 11 off, op⟩ := by
  have h1 : ¬ (base + off < base ∨ base + Config.windowBytes ≤ base + off) := by
    simp only [Config.windowBytes]; omega
  rw [decodeAccess, if_neg h1]
  simp

end Sys2Proof.Laws
end

