-- ==== Sys2Proof/Laws/Tree.lean ====
section
/-! SUPPORT. Small lemmas of the code tree, its codes and its header, and of BUILD's priority
structure. -/

namespace Sys2Proof.Laws

open Sys2Proof Sys2Proof.Machine

/-! ### Bit strings -/

@[simp] theorem bitsLE_length (n v : Nat) : (bitsLE n v).length = n := by
  induction n generalizing v with
  | zero => rfl
  | succ n ih => simp [bitsLE, ih]

@[simp] theorem f9_length (v : Nat) : (f9 v).length = 9 := bitsLE_length 9 v

theorem valueLE_bitsLE (n v : Nat) (h : v < 2 ^ n) : valueLE (bitsLE n v) = v := by
  induction n generalizing v with
  | zero => simp at h; simp [bitsLE, valueLE, h]
  | succ n ih =>
    have h2 : v / 2 < 2 ^ n := by omega
    simp only [bitsLE, valueLE, ih _ h2]
    rcases Nat.mod_two_eq_zero_or_one v with h | h <;> simp [h] <;> omega

theorem valueLE_lt (bs : Bits) : valueLE bs < 2 ^ bs.length := by
  induction bs with
  | nil => simp [valueLE]
  | cons b bs ih =>
    have : b.toNat ≤ 1 := by cases b <;> simp
    simp only [valueLE, List.length_cons]
    omega

theorem valueLE_testBit (bs : Bits) (i : Nat) : (valueLE bs).testBit i = (bs[i]?).getD false := by
  induction bs generalizing i with
  | nil => simp [valueLE]
  | cons b bs ih =>
    cases i with
    | zero => cases b <;> simp [valueLE, Nat.testBit_zero]
    | succ i =>
      have : (b.toNat + 2 * valueLE bs) / 2 = valueLE bs := by cases b <;> (simp; try omega)
      simp [valueLE, Nat.testBit_succ, this, ih]

/-! ### Trees -/

theorem leaves_ne_nil (t : Tree) : t.leaves ≠ [] := by
  induction t with
  | leaf s => simp [Tree.leaves]
  | branch l r ihl ihr => simp [Tree.leaves, ihl]

theorem leaves_length (t : Tree) : t.leaves.length = t.branches + 1 := by
  induction t with
  | leaf s => rfl
  | branch l r ihl ihr => simp [Tree.leaves, Tree.branches, ihl, ihr]; omega

/-- No more than 257 leaves carry distinct symbols (R36). -/
theorem leaves_length_le (t : Tree) (h : t.leaves.Nodup) : t.leaves.length ≤ 257 := by
  simpa using h.length_le_card

theorem mem_nodes_self (t : Tree) : t ∈ t.nodes := by cases t <;> simp [Tree.nodes]

/-- The cursor of DECODE stays inside the tree. -/
theorem child_mem_nodes {t cur next : Tree} {b : Bool} (h : cur ∈ t.nodes)
    (hc : cur.child? b = some next) : next ∈ t.nodes := by
  induction t with
  | leaf s =>
    simp only [Tree.nodes, List.mem_singleton] at h
    subst h
    simp [Tree.child?] at hc
  | branch l r ihl ihr =>
    simp only [Tree.nodes, List.mem_cons, List.mem_append] at h ⊢
    rcases h with h | h | h
    · subst h
      cases b <;> simp only [Tree.child?, Option.some.injEq] at hc <;> subst hc
      · exact .inr (.inl (mem_nodes_self _))
      · exact .inr (.inr (mem_nodes_self _))
    · exact .inr (.inl (ihl h))
    · exact .inr (.inr (ihr h))

/-! ### Codes -/

theorem codesFrom_append (t : Tree) (p q : Bits) :
    t.codesFrom (p ++ q) = (t.codesFrom q).map fun e => (e.1, p ++ e.2) := by
  induction t generalizing q with
  | leaf s => simp [Tree.codesFrom]
  | branch l r ihl ihr => simp [Tree.codesFrom, ihl, ihr, List.append_assoc]

theorem codesFrom_keys (t : Tree) (p : Bits) : (t.codesFrom p).map Prod.fst = t.leaves := by
  induction t generalizing p with
  | leaf s => rfl
  | branch l r ihl ihr => simp [Tree.codesFrom, Tree.leaves, ihl, ihr]

theorem lookup_map_append (es : List (Sym × Bits)) (p : Bits) (s : Sym) :
    (es.map fun e => (e.1, p ++ e.2)).lookup s = (es.lookup s).map (p ++ ·) := by
  induction es with
  | nil => rfl
  | cons e es ih =>
    by_cases h : s = e.1
    · simp [List.lookup, h]
    · have hb : (s == e.1) = false := by simpa using h
      simpa [List.lookup, hb] using ih

@[simp] theorem codeOf_leaf (a s : Sym) :
    (Tree.leaf a).codeOf s = if s = a then some [] else none := by
  by_cases h : s = a
  · simp [Tree.codeOf, Tree.codes, Tree.codesFrom, h]
  · have hb : (s == a) = false := by simpa using h
    simp [Tree.codeOf, Tree.codes, Tree.codesFrom, List.lookup, hb, h]

/-- The code of a symbol goes left where the left subtree maps it and right otherwise (R37). -/
theorem codeOf_branch (l r : Tree) (s : Sym) :
    (Tree.branch l r).codeOf s =
      ((l.codeOf s).map (false :: ·)).or ((r.codeOf s).map (true :: ·)) := by
  have hl := codesFrom_append l [false] []
  have hr := codesFrom_append r [true] []
  simp only [List.append_nil] at hl hr
  simp only [Tree.codeOf, Tree.codes, Tree.codesFrom, List.nil_append, List.lookup_append, hl, hr,
    lookup_map_append]
  rfl

/-- A symbol is mapped exactly when it is a leaf (R37). -/
theorem codeOf_isSome (t : Tree) (s : Sym) : (t.codeOf s).isSome ↔ s ∈ t.leaves := by
  induction t with
  | leaf a => by_cases h : s = a <;> simp [Tree.leaves, h]
  | branch l r ihl ihr =>
    simp only [codeOf_branch, Tree.leaves, List.mem_append, ← ihl, ← ihr]
    cases l.codeOf s <;> cases r.codeOf s <;> simp

theorem codeOf_eq_none (t : Tree) (s : Sym) : t.codeOf s = none ↔ s ∉ t.leaves := by
  rw [← codeOf_isSome]
  cases t.codeOf s <;> simp

/-- A code is at most as long as the tree has branches. -/
theorem codeOf_length_le (t : Tree) (s : Sym) (c : Bits) (h : t.codeOf s = some c) :
    c.length ≤ t.branches := by
  induction t generalizing c with
  | leaf a =>
    rw [codeOf_leaf] at h
    split at h
    · simp [← Option.some.inj h]
    · simp at h
  | branch l r ihl ihr =>
    rw [codeOf_branch] at h
    simp only [Tree.branches]
    cases hl : l.codeOf s with
    | some d =>
      simp [hl] at h
      have := ihl d hl
      simp [← h]; omega
    | none =>
      cases hr : r.codeOf s with
      | some d =>
        simp [hl, hr] at h
        have := ihr d hr
        simp [← h]; omega
      | none => simp [hl, hr] at h

/-! ### The priority structure -/

theorem takeFirst_isSome (q : List Node) : (takeFirst q).isSome ↔ q ≠ [] := by
  cases q with
  | nil => simp [takeFirst]
  | cons a rest =>
    simp only [takeFirst]
    split
    · simp
    · split <;> simp

/-- Nothing is lost or made when the first node is removed. -/
theorem takeFirst_perm {q r : List Node} {m : Node} (h : takeFirst q = some (m, r)) :
    q.Perm (m :: r) := by
  induction q generalizing m r with
  | nil => simp [takeFirst] at h
  | cons a rest ih =>
    simp only [takeFirst] at h
    split at h
    · rename_i hr
      have : rest = [] := by
        by_contra hne
        have := (takeFirst_isSome rest).2 hne
        simp [hr] at this
      simp_all
    · rename_i b q hr
      have hp := ih hr
      split at h
      · obtain ⟨rfl, rfl⟩ := by simpa using h
        exact (List.Perm.cons a hp).trans (List.Perm.swap b a q)
      · obtain ⟨rfl, rfl⟩ := by simpa using h
        exact List.Perm.refl _

theorem takeFirst_length {q r : List Node} {m : Node} (h : takeFirst q = some (m, r)) :
    q.length = r.length + 1 := by simpa using (takeFirst_perm h).length_eq

/-- The loop of BUILD keeps what it is given: any quantity that adds up over a merge is that of the
whole structure in the node it ends with. -/
theorem mergeNodes_keeps {α : Type} [AddCommMonoid α] (f : Node → α)
    (hf : ∀ (a b : Node) (k : Nat), f ⟨a.w + b.w, k, .branch a.t b.t⟩ = f a + f b)
    (fuel k : Nat) (q : List Node) (root : Node) (h : mergeNodes fuel k q = some root) :
    f root = (q.map f).sum := by
  induction fuel generalizing k q with
  | zero => simp [mergeNodes] at h
  | succ fuel ih =>
    simp only [mergeNodes] at h
    split at h
    · simp at h
    · rename_i a q1 h1
      split at h
      · rename_i h2
        have hq1 : q1 = [] := by
          by_contra hne
          have := (takeFirst_isSome q1).2 hne
          simp [h2] at this
        have hp := (takeFirst_perm h1).map f
        simp only [Option.some.injEq] at h
        subst h hq1
        simpa using hp.sum_eq.symm
      · rename_i b q2 h2
        have hp1 := ((takeFirst_perm h1).map f).sum_eq
        have hp2 := ((takeFirst_perm h2).map f).sum_eq
        rw [ih _ _ h, hp1]
        simp only [List.map_cons, List.sum_cons] at hp1 hp2 ⊢
        rw [hp2]
        simp only [List.map_append, List.sum_append, hf, List.map_nil, List.sum_nil, List.sum_cons,
          List.map_cons, add_zero]
        rw [add_comm, add_assoc]

/-- With a turn for each element the loop ends with a node. -/
theorem mergeNodes_isSome (fuel k : Nat) (q : List Node) (hq : q ≠ []) (hf : q.length ≤ fuel) :
    (mergeNodes fuel k q).isSome := by
  induction fuel generalizing k q with
  | zero => simp_all
  | succ fuel ih =>
    simp only [mergeNodes]
    split
    · rename_i h
      have := (takeFirst_isSome q).2 hq
      simp [h] at this
    · rename_i a q1 h1
      split
      · simp
      · rename_i b q2 h2
        have := takeFirst_length h1
        have := takeFirst_length h2
        exact ih _ _ (by simp) (by simp; omega)

theorem leafNodes_ne_nil (v k : Nat) (cs : List Word) : leafNodes v k cs ≠ [] := by
  induction cs generalizing v k with
  | nil => simp [leafNodes]
  | cons c cs ih => simp only [leafNodes]; split <;> simp [ih]

/-- BUILD always ends with a root (R146: "BUILD cannot fail"). -/
theorem buildRoot_isSome (freq : List Word) : (buildRoot freq).isSome :=
  mergeNodes_isSome _ _ _ (leafNodes_ne_nil 0 0 freq) le_rfl

end Sys2Proof.Laws
end

