-- ==== Sys2Proof/Laws/Header.lean ====
section
/-! SUPPORT. Lemmas of the header (R115, R118) and of READ_HEADER's progress (R176). -/

namespace Sys2Proof.Laws

open Sys2Proof Sys2Proof.Machine Sys2Proof.Safety

/-- A complete subtree goes through the branches whose left child is known and stops as the left
child of the first that has none. -/
theorem plugTree_more (ls : List Tree) (outer : List (Option Tree)) (t : Tree) (seen : List Sym)
    (n : Nat) :
    plugTree t seen n (ls.map some ++ none :: outer) =
      .more ⟨some (ls.foldl (fun t l => .branch l t) t) :: outer, seen, n, none, none⟩ := by
  induction ls generalizing t with
  | nil => rfl
  | cons l ls ih => simp [plugTree, ih]

/-- A complete subtree that completes every open branch is the whole tree. -/
theorem plugTree_complete (ls : List Tree) (t : Tree) (seen : List Sym) (n : Nat) :
    plugTree t seen n (ls.map some) =
      .complete (ls.foldl (fun t l => .branch l t) t) seen := by
  induction ls generalizing t with
  | nil => rfl
  | cons l ls ih => simp [plugTree, ih]

/-- The ninth value bit of a new symbol makes its leaf. -/
theorem readItem_leaf {p : ReadProgress} {b : Bool} {bits : Bits} {sym : Sym}
    (hf : p.field = some bits) (hl : bits.length = 8) (hv : valueLE (bits ++ [b]) = sym.val)
    (hn : sym ∉ p.seen) :
    readItem p (.bit b) = plugTree (.leaf sym) (sym :: p.seen) p.nbr p.open_ := by
  have : (⟨sym.val, sym.isLt⟩ : Sym) = sym := rfl
  simp [readItem, hf, hl, readLeaf, hv, hn]

/-- The complete subtrees have no more leaves than READ_HEADER has read branches. -/
theorem openLeaves_length_le (st : List (Option Tree)) :
    (openLeaves st).length ≤ openBranches st := by
  induction st with
  | nil => simp [openLeaves, openBranches]
  | cons a st ih =>
    cases a with
    | none => simp [openLeaves, openBranches]; omega
    | some l => simp [openLeaves, openBranches, leaves_length]; omega

/-- The length of a header by the tree's branches (R118). -/
theorem hdr_length (t : Tree) : t.hdr.length = 11 * t.branches + 10 := by
  have h9 : ∀ n v, (bitsLE n v).length = n := by
    intro n
    induction n with
    | zero => intro v; rfl
    | succ n ih => intro v; simp [bitsLE, ih]
  induction t with
  | leaf s => simp [Tree.hdr, Tree.branches, f9, h9]
  | branch l r ihl ihr => simp [Tree.hdr, Tree.branches, ihl, ihr]; omega

end Sys2Proof.Laws
end

