-- ==== Sys2Proof/Laws/State.lean ====
section
/-! SUPPORT. What each field of the state is after each update of Machine/Ops.lean: one lemma per
field, true by rfl, so that no later proof unfolds a record update. -/

namespace Sys2Proof.Laws

open Sys2Proof Sys2Proof.Machine

section hostTakes
variable (w : Word) (s : State)
@[simp] theorem hostTakes_blk : (hostTakes w s).blk = s.blk := rfl
@[simp] theorem hostTakes_basePage : (hostTakes w s).env.basePage = s.env.basePage := rfl
@[simp] theorem hostTakes_schedule : (hostTakes w s).env.schedule = s.env.schedule := rfl
@[simp] theorem hostTakes_turn : (hostTakes w s).env.turn = s.env.turn := rfl
@[simp] theorem hostTakes_hostReads : (hostTakes w s).env.hostReads = s.env.hostReads ++ [w] := rfl
@[simp] theorem hostTakes_bitIn : (hostTakes w s).env.bitIn = s.env.bitIn := rfl
@[simp] theorem hostTakes_bitRoom : (hostTakes w s).env.bitRoom = s.env.bitRoom := rfl
@[simp] theorem hostTakes_bitOut : (hostTakes w s).env.bitOut = s.env.bitOut := rfl
@[simp] theorem hostTakes_byteIn : (hostTakes w s).env.byteIn = s.env.byteIn := rfl
@[simp] theorem hostTakes_byteRoom : (hostTakes w s).env.byteRoom = s.env.byteRoom := rfl
@[simp] theorem hostTakes_byteOut : (hostTakes w s).env.byteOut = s.env.byteOut := rfl
@[simp] theorem hostTakes_draws : (hostTakes w s).env.draws = s.env.draws := rfl
end hostTakes

section hostDraws
variable (s : State)
@[simp] theorem hostDraws_blk : (hostDraws s).blk = s.blk := rfl
@[simp] theorem hostDraws_basePage : (hostDraws s).env.basePage = s.env.basePage := rfl
@[simp] theorem hostDraws_schedule : (hostDraws s).env.schedule = s.env.schedule := rfl
@[simp] theorem hostDraws_turn : (hostDraws s).env.turn = s.env.turn := rfl
@[simp] theorem hostDraws_hostReads : (hostDraws s).env.hostReads = s.env.hostReads ++ [Config.freeWord s.env.draws] := rfl
@[simp] theorem hostDraws_bitIn : (hostDraws s).env.bitIn = s.env.bitIn := rfl
@[simp] theorem hostDraws_bitRoom : (hostDraws s).env.bitRoom = s.env.bitRoom := rfl
@[simp] theorem hostDraws_bitOut : (hostDraws s).env.bitOut = s.env.bitOut := rfl
@[simp] theorem hostDraws_byteIn : (hostDraws s).env.byteIn = s.env.byteIn := rfl
@[simp] theorem hostDraws_byteRoom : (hostDraws s).env.byteRoom = s.env.byteRoom := rfl
@[simp] theorem hostDraws_byteOut : (hostDraws s).env.byteOut = s.env.byteOut := rfl
@[simp] theorem hostDraws_draws : (hostDraws s).env.draws = s.env.draws + 1 := rfl
end hostDraws

section dropWrite
variable (s : State)
@[simp] theorem dropWrite_seq : (dropWrite s).blk.seq = s.blk.seq := rfl
@[simp] theorem dropWrite_done : (dropWrite s).blk.done = s.blk.done := rfl
@[simp] theorem dropWrite_err : (dropWrite s).blk.err = s.blk.err := rfl
@[simp] theorem dropWrite_overrun : (dropWrite s).blk.overrun = true := rfl
@[simp] theorem dropWrite_errCode : (dropWrite s).blk.errCode = s.blk.errCode := rfl
@[simp] theorem dropWrite_lastOp : (dropWrite s).blk.lastOp = s.blk.lastOp := rfl
@[simp] theorem dropWrite_errInfo : (dropWrite s).blk.errInfo = s.blk.errInfo := rfl
@[simp] theorem dropWrite_bitsIn : (dropWrite s).blk.bitsIn = s.blk.bitsIn := rfl
@[simp] theorem dropWrite_bitsOut : (dropWrite s).blk.bitsOut = s.blk.bitsOut := rfl
@[simp] theorem dropWrite_bytesIn : (dropWrite s).blk.bytesIn = s.blk.bytesIn := rfl
@[simp] theorem dropWrite_bytesOut : (dropWrite s).blk.bytesOut = s.blk.bytesOut := rfl
@[simp] theorem dropWrite_codeSel : (dropWrite s).blk.codeSel = s.blk.codeSel := rfl
@[simp] theorem dropWrite_freq : (dropWrite s).blk.freq = s.blk.freq := rfl
@[simp] theorem dropWrite_tree : (dropWrite s).blk.tree = s.blk.tree := rfl
@[simp] theorem dropWrite_abortReq : (dropWrite s).blk.abortReq = s.blk.abortReq := rfl
@[simp] theorem dropWrite_env : (dropWrite s).env = s.env := rfl
end dropWrite

section acceptCommand
variable (w : Word) (s : State)
@[simp] theorem acceptCommand_seq : (acceptCommand w s).blk.seq = seqOfWord w := rfl
@[simp] theorem acceptCommand_done : (acceptCommand w s).blk.done = false := rfl
@[simp] theorem acceptCommand_err : (acceptCommand w s).blk.err = false := rfl
@[simp] theorem acceptCommand_overrun : (acceptCommand w s).blk.overrun = false := rfl
@[simp] theorem acceptCommand_errCode : (acceptCommand w s).blk.errCode = .none := rfl
@[simp] theorem acceptCommand_lastOp : (acceptCommand w s).blk.lastOp = w.extractLsb' 0 4 := rfl
@[simp] theorem acceptCommand_errInfo : (acceptCommand w s).blk.errInfo = 0 := rfl
@[simp] theorem acceptCommand_bitsIn : (acceptCommand w s).blk.bitsIn = 0 := rfl
@[simp] theorem acceptCommand_bitsOut : (acceptCommand w s).blk.bitsOut = 0 := rfl
@[simp] theorem acceptCommand_bytesIn : (acceptCommand w s).blk.bytesIn = 0 := rfl
@[simp] theorem acceptCommand_bytesOut : (acceptCommand w s).blk.bytesOut = 0 := rfl
@[simp] theorem acceptCommand_codeSel : (acceptCommand w s).blk.codeSel = s.blk.codeSel := rfl
@[simp] theorem acceptCommand_freq : (acceptCommand w s).blk.freq = s.blk.freq := rfl
@[simp] theorem acceptCommand_tree : (acceptCommand w s).blk.tree = if clearsTree w then none else s.blk.tree := rfl
@[simp] theorem acceptCommand_abortReq : (acceptCommand w s).blk.abortReq = false := rfl
@[simp] theorem acceptCommand_env : (acceptCommand w s).env = s.env := rfl
end acceptCommand

section endCommand
variable (e : ErrorCode) (i : Word) (s : State)
@[simp] theorem endCommand_seq : (endCommand e i s).blk.seq = .idle := rfl
@[simp] theorem endCommand_done : (endCommand e i s).blk.done = true := rfl
@[simp] theorem endCommand_err : (endCommand e i s).blk.err = (e != .none) := rfl
@[simp] theorem endCommand_overrun : (endCommand e i s).blk.overrun = s.blk.overrun := rfl
@[simp] theorem endCommand_errCode : (endCommand e i s).blk.errCode = e := rfl
@[simp] theorem endCommand_lastOp : (endCommand e i s).blk.lastOp = s.blk.lastOp := rfl
@[simp] theorem endCommand_errInfo : (endCommand e i s).blk.errInfo = i := rfl
@[simp] theorem endCommand_bitsIn : (endCommand e i s).blk.bitsIn = s.blk.bitsIn := rfl
@[simp] theorem endCommand_bitsOut : (endCommand e i s).blk.bitsOut = s.blk.bitsOut := rfl
@[simp] theorem endCommand_bytesIn : (endCommand e i s).blk.bytesIn = s.blk.bytesIn := rfl
@[simp] theorem endCommand_bytesOut : (endCommand e i s).blk.bytesOut = s.blk.bytesOut := rfl
@[simp] theorem endCommand_codeSel : (endCommand e i s).blk.codeSel = s.blk.codeSel := rfl
@[simp] theorem endCommand_freq : (endCommand e i s).blk.freq = s.blk.freq := rfl
@[simp] theorem endCommand_tree : (endCommand e i s).blk.tree = s.blk.tree := rfl
@[simp] theorem endCommand_abortReq : (endCommand e i s).blk.abortReq = false := rfl
@[simp] theorem endCommand_env : (endCommand e i s).env = s.env := rfl
end endCommand

section setSeq
variable (q : Seq) (s : State)
@[simp] theorem setSeq_seq : (setSeq q s).blk.seq = q := rfl
@[simp] theorem setSeq_done : (setSeq q s).blk.done = s.blk.done := rfl
@[simp] theorem setSeq_err : (setSeq q s).blk.err = s.blk.err := rfl
@[simp] theorem setSeq_overrun : (setSeq q s).blk.overrun = s.blk.overrun := rfl
@[simp] theorem setSeq_errCode : (setSeq q s).blk.errCode = s.blk.errCode := rfl
@[simp] theorem setSeq_lastOp : (setSeq q s).blk.lastOp = s.blk.lastOp := rfl
@[simp] theorem setSeq_errInfo : (setSeq q s).blk.errInfo = s.blk.errInfo := rfl
@[simp] theorem setSeq_bitsIn : (setSeq q s).blk.bitsIn = s.blk.bitsIn := rfl
@[simp] theorem setSeq_bitsOut : (setSeq q s).blk.bitsOut = s.blk.bitsOut := rfl
@[simp] theorem setSeq_bytesIn : (setSeq q s).blk.bytesIn = s.blk.bytesIn := rfl
@[simp] theorem setSeq_bytesOut : (setSeq q s).blk.bytesOut = s.blk.bytesOut := rfl
@[simp] theorem setSeq_codeSel : (setSeq q s).blk.codeSel = s.blk.codeSel := rfl
@[simp] theorem setSeq_freq : (setSeq q s).blk.freq = s.blk.freq := rfl
@[simp] theorem setSeq_tree : (setSeq q s).blk.tree = s.blk.tree := rfl
@[simp] theorem setSeq_abortReq : (setSeq q s).blk.abortReq = s.blk.abortReq := rfl
@[simp] theorem setSeq_env : (setSeq q s).env = s.env := rfl
end setSeq

section takeBitItem
variable (it : BitItem) (r : List BitItem) (s : State)
@[simp] theorem takeBitItem_seq : (takeBitItem it r s).blk.seq = s.blk.seq := rfl
@[simp] theorem takeBitItem_done : (takeBitItem it r s).blk.done = s.blk.done := rfl
@[simp] theorem takeBitItem_err : (takeBitItem it r s).blk.err = s.blk.err := rfl
@[simp] theorem takeBitItem_overrun : (takeBitItem it r s).blk.overrun = s.blk.overrun := rfl
@[simp] theorem takeBitItem_errCode : (takeBitItem it r s).blk.errCode = s.blk.errCode := rfl
@[simp] theorem takeBitItem_lastOp : (takeBitItem it r s).blk.lastOp = s.blk.lastOp := rfl
@[simp] theorem takeBitItem_errInfo : (takeBitItem it r s).blk.errInfo = s.blk.errInfo := rfl
@[simp] theorem takeBitItem_bitsIn : (takeBitItem it r s).blk.bitsIn = s.blk.bitsIn + (match it with | .bit _ => 1 | .eod => 0) := rfl
@[simp] theorem takeBitItem_bitsOut : (takeBitItem it r s).blk.bitsOut = s.blk.bitsOut := rfl
@[simp] theorem takeBitItem_bytesIn : (takeBitItem it r s).blk.bytesIn = s.blk.bytesIn := rfl
@[simp] theorem takeBitItem_bytesOut : (takeBitItem it r s).blk.bytesOut = s.blk.bytesOut := rfl
@[simp] theorem takeBitItem_codeSel : (takeBitItem it r s).blk.codeSel = s.blk.codeSel := rfl
@[simp] theorem takeBitItem_freq : (takeBitItem it r s).blk.freq = s.blk.freq := rfl
@[simp] theorem takeBitItem_tree : (takeBitItem it r s).blk.tree = s.blk.tree := rfl
@[simp] theorem takeBitItem_abortReq : (takeBitItem it r s).blk.abortReq = s.blk.abortReq := rfl
@[simp] theorem takeBitItem_basePage : (takeBitItem it r s).env.basePage = s.env.basePage := rfl
@[simp] theorem takeBitItem_schedule : (takeBitItem it r s).env.schedule = s.env.schedule := rfl
@[simp] theorem takeBitItem_turn : (takeBitItem it r s).env.turn = s.env.turn := rfl
@[simp] theorem takeBitItem_hostReads : (takeBitItem it r s).env.hostReads = s.env.hostReads := rfl
@[simp] theorem takeBitItem_bitIn : (takeBitItem it r s).env.bitIn = r := rfl
@[simp] theorem takeBitItem_bitRoom : (takeBitItem it r s).env.bitRoom = s.env.bitRoom := rfl
@[simp] theorem takeBitItem_bitOut : (takeBitItem it r s).env.bitOut = s.env.bitOut := rfl
@[simp] theorem takeBitItem_byteIn : (takeBitItem it r s).env.byteIn = s.env.byteIn := rfl
@[simp] theorem takeBitItem_byteRoom : (takeBitItem it r s).env.byteRoom = s.env.byteRoom := rfl
@[simp] theorem takeBitItem_byteOut : (takeBitItem it r s).env.byteOut = s.env.byteOut := rfl
@[simp] theorem takeBitItem_draws : (takeBitItem it r s).env.draws = s.env.draws := rfl
end takeBitItem

section takeByteItem
variable (it : ByteItem) (r : List ByteItem) (s : State)
@[simp] theorem takeByteItem_seq : (takeByteItem it r s).blk.seq = s.blk.seq := rfl
@[simp] theorem takeByteItem_done : (takeByteItem it r s).blk.done = s.blk.done := rfl
@[simp] theorem takeByteItem_err : (takeByteItem it r s).blk.err = s.blk.err := rfl
@[simp] theorem takeByteItem_overrun : (takeByteItem it r s).blk.overrun = s.blk.overrun := rfl
@[simp] theorem takeByteItem_errCode : (takeByteItem it r s).blk.errCode = s.blk.errCode := rfl
@[simp] theorem takeByteItem_lastOp : (takeByteItem it r s).blk.lastOp = s.blk.lastOp := rfl
@[simp] theorem takeByteItem_errInfo : (takeByteItem it r s).blk.errInfo = s.blk.errInfo := rfl
@[simp] theorem takeByteItem_bitsIn : (takeByteItem it r s).blk.bitsIn = s.blk.bitsIn := rfl
@[simp] theorem takeByteItem_bitsOut : (takeByteItem it r s).blk.bitsOut = s.blk.bitsOut := rfl
@[simp] theorem takeByteItem_bytesIn : (takeByteItem it r s).blk.bytesIn = s.blk.bytesIn + (match it with | .byte _ => 1 | .endOfMessage => 0) := rfl
@[simp] theorem takeByteItem_bytesOut : (takeByteItem it r s).blk.bytesOut = s.blk.bytesOut := rfl
@[simp] theorem takeByteItem_codeSel : (takeByteItem it r s).blk.codeSel = s.blk.codeSel := rfl
@[simp] theorem takeByteItem_freq : (takeByteItem it r s).blk.freq = s.blk.freq := rfl
@[simp] theorem takeByteItem_tree : (takeByteItem it r s).blk.tree = s.blk.tree := rfl
@[simp] theorem takeByteItem_abortReq : (takeByteItem it r s).blk.abortReq = s.blk.abortReq := rfl
@[simp] theorem takeByteItem_basePage : (takeByteItem it r s).env.basePage = s.env.basePage := rfl
@[simp] theorem takeByteItem_schedule : (takeByteItem it r s).env.schedule = s.env.schedule := rfl
@[simp] theorem takeByteItem_turn : (takeByteItem it r s).env.turn = s.env.turn := rfl
@[simp] theorem takeByteItem_hostReads : (takeByteItem it r s).env.hostReads = s.env.hostReads := rfl
@[simp] theorem takeByteItem_bitIn : (takeByteItem it r s).env.bitIn = s.env.bitIn := rfl
@[simp] theorem takeByteItem_bitRoom : (takeByteItem it r s).env.bitRoom = s.env.bitRoom := rfl
@[simp] theorem takeByteItem_bitOut : (takeByteItem it r s).env.bitOut = s.env.bitOut := rfl
@[simp] theorem takeByteItem_byteIn : (takeByteItem it r s).env.byteIn = r := rfl
@[simp] theorem takeByteItem_byteRoom : (takeByteItem it r s).env.byteRoom = s.env.byteRoom := rfl
@[simp] theorem takeByteItem_byteOut : (takeByteItem it r s).env.byteOut = s.env.byteOut := rfl
@[simp] theorem takeByteItem_draws : (takeByteItem it r s).env.draws = s.env.draws := rfl
end takeByteItem

section giveBit
variable (b : Bool) (n : Nat) (s : State)
@[simp] theorem giveBit_seq : (giveBit b n s).blk.seq = s.blk.seq := rfl
@[simp] theorem giveBit_done : (giveBit b n s).blk.done = s.blk.done := rfl
@[simp] theorem giveBit_err : (giveBit b n s).blk.err = s.blk.err := rfl
@[simp] theorem giveBit_overrun : (giveBit b n s).blk.overrun = s.blk.overrun := rfl
@[simp] theorem giveBit_errCode : (giveBit b n s).blk.errCode = s.blk.errCode := rfl
@[simp] theorem giveBit_lastOp : (giveBit b n s).blk.lastOp = s.blk.lastOp := rfl
@[simp] theorem giveBit_errInfo : (giveBit b n s).blk.errInfo = s.blk.errInfo := rfl
@[simp] theorem giveBit_bitsIn : (giveBit b n s).blk.bitsIn = s.blk.bitsIn := rfl
@[simp] theorem giveBit_bitsOut : (giveBit b n s).blk.bitsOut = s.blk.bitsOut + 1 := rfl
@[simp] theorem giveBit_bytesIn : (giveBit b n s).blk.bytesIn = s.blk.bytesIn := rfl
@[simp] theorem giveBit_bytesOut : (giveBit b n s).blk.bytesOut = s.blk.bytesOut := rfl
@[simp] theorem giveBit_codeSel : (giveBit b n s).blk.codeSel = s.blk.codeSel := rfl
@[simp] theorem giveBit_freq : (giveBit b n s).blk.freq = s.blk.freq := rfl
@[simp] theorem giveBit_tree : (giveBit b n s).blk.tree = s.blk.tree := rfl
@[simp] theorem giveBit_abortReq : (giveBit b n s).blk.abortReq = s.blk.abortReq := rfl
@[simp] theorem giveBit_basePage : (giveBit b n s).env.basePage = s.env.basePage := rfl
@[simp] theorem giveBit_schedule : (giveBit b n s).env.schedule = s.env.schedule := rfl
@[simp] theorem giveBit_turn : (giveBit b n s).env.turn = s.env.turn := rfl
@[simp] theorem giveBit_hostReads : (giveBit b n s).env.hostReads = s.env.hostReads := rfl
@[simp] theorem giveBit_bitIn : (giveBit b n s).env.bitIn = s.env.bitIn := rfl
@[simp] theorem giveBit_bitRoom : (giveBit b n s).env.bitRoom = n := rfl
@[simp] theorem giveBit_bitOut : (giveBit b n s).env.bitOut = s.env.bitOut ++ [b] := rfl
@[simp] theorem giveBit_byteIn : (giveBit b n s).env.byteIn = s.env.byteIn := rfl
@[simp] theorem giveBit_byteRoom : (giveBit b n s).env.byteRoom = s.env.byteRoom := rfl
@[simp] theorem giveBit_byteOut : (giveBit b n s).env.byteOut = s.env.byteOut := rfl
@[simp] theorem giveBit_draws : (giveBit b n s).env.draws = s.env.draws := rfl
end giveBit

section giveByte
variable (v : Byte) (n : Nat) (s : State)
@[simp] theorem giveByte_seq : (giveByte v n s).blk.seq = s.blk.seq := rfl
@[simp] theorem giveByte_done : (giveByte v n s).blk.done = s.blk.done := rfl
@[simp] theorem giveByte_err : (giveByte v n s).blk.err = s.blk.err := rfl
@[simp] theorem giveByte_overrun : (giveByte v n s).blk.overrun = s.blk.overrun := rfl
@[simp] theorem giveByte_errCode : (giveByte v n s).blk.errCode = s.blk.errCode := rfl
@[simp] theorem giveByte_lastOp : (giveByte v n s).blk.lastOp = s.blk.lastOp := rfl
@[simp] theorem giveByte_errInfo : (giveByte v n s).blk.errInfo = s.blk.errInfo := rfl
@[simp] theorem giveByte_bitsIn : (giveByte v n s).blk.bitsIn = s.blk.bitsIn := rfl
@[simp] theorem giveByte_bitsOut : (giveByte v n s).blk.bitsOut = s.blk.bitsOut := rfl
@[simp] theorem giveByte_bytesIn : (giveByte v n s).blk.bytesIn = s.blk.bytesIn := rfl
@[simp] theorem giveByte_bytesOut : (giveByte v n s).blk.bytesOut = s.blk.bytesOut + 1 := rfl
@[simp] theorem giveByte_codeSel : (giveByte v n s).blk.codeSel = s.blk.codeSel := rfl
@[simp] theorem giveByte_freq : (giveByte v n s).blk.freq = s.blk.freq := rfl
@[simp] theorem giveByte_tree : (giveByte v n s).blk.tree = s.blk.tree := rfl
@[simp] theorem giveByte_abortReq : (giveByte v n s).blk.abortReq = s.blk.abortReq := rfl
@[simp] theorem giveByte_basePage : (giveByte v n s).env.basePage = s.env.basePage := rfl
@[simp] theorem giveByte_schedule : (giveByte v n s).env.schedule = s.env.schedule := rfl
@[simp] theorem giveByte_turn : (giveByte v n s).env.turn = s.env.turn := rfl
@[simp] theorem giveByte_hostReads : (giveByte v n s).env.hostReads = s.env.hostReads := rfl
@[simp] theorem giveByte_bitIn : (giveByte v n s).env.bitIn = s.env.bitIn := rfl
@[simp] theorem giveByte_bitRoom : (giveByte v n s).env.bitRoom = s.env.bitRoom := rfl
@[simp] theorem giveByte_bitOut : (giveByte v n s).env.bitOut = s.env.bitOut := rfl
@[simp] theorem giveByte_byteIn : (giveByte v n s).env.byteIn = s.env.byteIn := rfl
@[simp] theorem giveByte_byteRoom : (giveByte v n s).env.byteRoom = n := rfl
@[simp] theorem giveByte_byteOut : (giveByte v n s).env.byteOut = s.env.byteOut ++ [v] := rfl
@[simp] theorem giveByte_draws : (giveByte v n s).env.draws = s.env.draws := rfl
end giveByte

section beginTurn
variable (t : Turn) (r : List AgentStep) (s : State)
@[simp] theorem beginTurn_blk : (beginTurn t r s).blk = s.blk := rfl
@[simp] theorem beginTurn_basePage : (beginTurn t r s).env.basePage = s.env.basePage := rfl
@[simp] theorem beginTurn_schedule : (beginTurn t r s).env.schedule = r := rfl
@[simp] theorem beginTurn_turn : (beginTurn t r s).env.turn = t := rfl
@[simp] theorem beginTurn_hostReads : (beginTurn t r s).env.hostReads = s.env.hostReads := rfl
@[simp] theorem beginTurn_bitIn : (beginTurn t r s).env.bitIn = s.env.bitIn := rfl
@[simp] theorem beginTurn_bitRoom : (beginTurn t r s).env.bitRoom = s.env.bitRoom := rfl
@[simp] theorem beginTurn_bitOut : (beginTurn t r s).env.bitOut = s.env.bitOut := rfl
@[simp] theorem beginTurn_byteIn : (beginTurn t r s).env.byteIn = s.env.byteIn := rfl
@[simp] theorem beginTurn_byteRoom : (beginTurn t r s).env.byteRoom = s.env.byteRoom := rfl
@[simp] theorem beginTurn_byteOut : (beginTurn t r s).env.byteOut = s.env.byteOut := rfl
@[simp] theorem beginTurn_draws : (beginTurn t r s).env.draws = s.env.draws := rfl
end beginTurn

section resetBlock
variable (s : State)
@[simp] theorem resetBlock_blk : (resetBlock s).blk = Block.reset := rfl
@[simp] theorem resetBlock_env : (resetBlock s).env = s.env := rfl
end resetBlock

/-! ### The views of STATUS -/

@[simp] theorem busy_eq_false (b : Block) : b.busy = false ↔ b.seq = .idle := by
  unfold Block.busy
  split <;> simp_all

@[simp] theorem busy_eq_true (b : Block) : b.busy = true ↔ b.seq ≠ .idle := by
  unfold Block.busy
  split <;> simp_all

/-! ### The FREQ file -/

@[simp] theorem freqAt_setFreq_self (b : Block) (v : BitVec 8) (n : Word) :
    (b.setFreq v n).freqAt v = n := by
  simp [Block.freqAt, Block.setFreq]

@[simp] theorem freqAt_setFreq_other (b : Block) (u v : BitVec 8) (n : Word) (h : u ≠ v) :
    (b.setFreq v n).freqAt u = b.freqAt u := by
  have hne : v.toNat ≠ u.toNat := fun he => h (BitVec.eq_of_toNat_eq he.symm)
  simp [Block.freqAt, Block.setFreq, hne]

end Sys2Proof.Laws
end

