-- ==== Sys2Proof/Laws/Ops.lean ====
section
/-! SUPPORT. For each shared operation, once, everything it can do; later proofs cite these and do
not unfold the operation. -/

namespace Sys2Proof.Laws

open Sys2Proof Sys2Proof.Machine

/-- A transaction with the abort test ends the command or performs the transaction (R246). -/
theorem unlessAborted_cases (f : State → State) (s : State) :
    (s.blk.abortReq = true ∧ unlessAborted f s = raise .aborted 0 s) ∨
    (s.blk.abortReq = false ∧ unlessAborted f s = f s) := by
  cases h : s.blk.abortReq <;> simp [unlessAborted, h]

/-- InBit() aborts, holds, or consumes the next item (R87). -/
theorem inBit_cases (k : BitItem → Seq) (s : State) :
    (s.blk.abortReq = true ∧ inBit k s = raise .aborted 0 s) ∨
    (s.blk.abortReq = false ∧ s.env.bitIn = [] ∧ inBit k s = s) ∨
    (∃ it rest, s.blk.abortReq = false ∧ s.env.bitIn = it :: rest ∧
      inBit k s = setSeq (k it) (takeBitItem it rest s)) := by
  rcases unlessAborted_cases _ s with ⟨h, e⟩ | ⟨h, e⟩
  · exact .inl ⟨h, e⟩
  · cases hb : s.env.bitIn with
    | nil => exact .inr (.inl ⟨h, rfl, by rw [inBit, e, hb]⟩)
    | cons it rest => exact .inr (.inr ⟨it, rest, h, rfl, by rw [inBit, e, hb]⟩)

/-- InByte() aborts, holds, or consumes the next item (R87). -/
theorem inByte_cases (k : ByteItem → Seq) (s : State) :
    (s.blk.abortReq = true ∧ inByte k s = raise .aborted 0 s) ∨
    (s.blk.abortReq = false ∧ s.env.byteIn = [] ∧ inByte k s = s) ∨
    (∃ it rest, s.blk.abortReq = false ∧ s.env.byteIn = it :: rest ∧
      inByte k s = setSeq (k it) (takeByteItem it rest s)) := by
  rcases unlessAborted_cases _ s with ⟨h, e⟩ | ⟨h, e⟩
  · exact .inl ⟨h, e⟩
  · cases hb : s.env.byteIn with
    | nil => exact .inr (.inl ⟨h, rfl, by rw [inByte, e, hb]⟩)
    | cons it rest => exact .inr (.inr ⟨it, rest, h, rfl, by rw [inByte, e, hb]⟩)

/-- OutBit(b) aborts, holds, or gives the bit to the sink (R87). -/
theorem outBit_cases (b : Bool) (k : Seq) (s : State) :
    (s.blk.abortReq = true ∧ outBit b k s = raise .aborted 0 s) ∨
    (s.blk.abortReq = false ∧ s.env.bitRoom = 0 ∧ outBit b k s = s) ∨
    (∃ room, s.blk.abortReq = false ∧ s.env.bitRoom = room + 1 ∧
      outBit b k s = setSeq k (giveBit b room s)) := by
  rcases unlessAborted_cases _ s with ⟨h, e⟩ | ⟨h, e⟩
  · exact .inl ⟨h, e⟩
  · cases hb : s.env.bitRoom with
    | zero => exact .inr (.inl ⟨h, rfl, by rw [outBit, e, hb]⟩)
    | succ room => exact .inr (.inr ⟨room, h, rfl, by rw [outBit, e, hb]⟩)

/-- OutByte(v) aborts, holds, or gives the byte to the sink (R87). -/
theorem outByte_cases (v : Byte) (k : Seq) (s : State) :
    (s.blk.abortReq = true ∧ outByte v k s = raise .aborted 0 s) ∨
    (s.blk.abortReq = false ∧ s.env.byteRoom = 0 ∧ outByte v k s = s) ∨
    (∃ room, s.blk.abortReq = false ∧ s.env.byteRoom = room + 1 ∧
      outByte v k s = setSeq k (giveByte v room s)) := by
  rcases unlessAborted_cases _ s with ⟨h, e⟩ | ⟨h, e⟩
  · exact .inl ⟨h, e⟩
  · cases hb : s.env.byteRoom with
    | zero => exact .inr (.inl ⟨h, rfl, by rw [outByte, e, hb]⟩)
    | succ room => exact .inr (.inr ⟨room, h, rfl, by rw [outByte, e, hb]⟩)

/-- A write that a running command drops (R84). -/
theorem writeWhenIdle_cases (f : State → State) (s : State) :
    (s.blk.seq ≠ .idle ∧ writeWhenIdle f s = dropWrite s) ∨
    (s.blk.seq = .idle ∧ writeWhenIdle f s = f s) := by
  cases h : s.blk.busy
  · exact .inr ⟨(busy_eq_false _).1 h, by simp [writeWhenIdle, h]⟩
  · exact .inl ⟨(busy_eq_true _).1 h, by simp [writeWhenIdle, h]⟩

/-- A register read gives the host the register's value or a free value (R57, R95). -/
theorem hostReadReg_cases (r : Reg) (s : State) :
    (∃ w, s.blk.readReg r = some w ∧ hostReadReg r s = hostTakes w s) ∨
    (s.blk.readReg r = none ∧ hostReadReg r s = hostDraws s) := by
  cases h : s.blk.readReg r <;> simp [hostReadReg, h]

@[simp] theorem hostReadReg_blk (r : Reg) (s : State) : (hostReadReg r s).blk = s.blk := by
  rcases hostReadReg_cases r s with ⟨w, -, h⟩ | ⟨-, h⟩ <;> rw [h] <;> rfl

/-- An access that is no operation of the table changes nothing of the block (R80 to R83). -/
@[simp] theorem plainAccess_blk (why : NotInstr) (op : BusOp) (s : State) :
    (plainAccess why op s).blk = s.blk := by
  cases why <;> simp only [plainAccess, hostReadReg_blk]
  · split <;> rfl
  · split <;> rfl

/-- A command's step is the host's write of its word or a step of the engine (R241, R242). -/
theorem commandStep_cases (w : Word) (f : State → Result) (s : State) :
    (s.env.turn = .host ∧ commandStep w f s = .next (writeCmd w s)) ∨
    (s.env.turn = .engine ∧ commandStep w f s = f s) := by
  cases h : s.env.turn <;> simp [commandStep, h]

/-- No command word decodes to a bus operation (R110 to R112). -/
theorem decodeCommand_is_command (w : Word) :
    decodeCommand w ∈ [Instr.nop, .clearFreq, .build, .writeHeader, .readHeader, .encode, .decode,
      .illegalOp7] ∨ (∃ low, decodeCommand w = .illegalOp8F low) ∨
      ∃ rsv op, decodeCommand w = .illegalRsv rsv op := by
  unfold decodeCommand
  split
  · exact .inr (.inr ⟨_, _, rfl⟩)
  · split <;> simp

end Sys2Proof.Laws
end

