-- ==== Sys2Proof/Laws/PerInstr.lean ====
section
/-! SUPPORT. Statements about every constructor of `Instr`, one lemma each. The family RowMatch: the
transaction the encoder writes for an operation carries the fixed bits that its row of
spec/opcode_table.json gives. -/

namespace Sys2Proof.Laws.RowMatch

open Sys2Proof

/-- The fixed bits of the operation's row: for a command the word written to CMD, under the row's
mask; for a bus access the window offset under the row's mask, and whether it is a write. -/
def Statement (i : Instr) : Prop :=
  match i with
  | .nop => encode i = ⟨0x008, .write 0x00000000⟩
  | .clearFreq => encode i = ⟨0x008, .write 0x00000001⟩
  | .build => encode i = ⟨0x008, .write 0x00000002⟩
  | .writeHeader => encode i = ⟨0x008, .write 0x00000003⟩
  | .readHeader => encode i = ⟨0x008, .write 0x00000004⟩
  | .encode => Sys2Proof.encode i = ⟨0x008, .write 0x00000005⟩
  | .decode => Sys2Proof.encode i = ⟨0x008, .write 0x00000006⟩
  | .illegalOp7 => encode i = ⟨0x008, .write 0x00000007⟩
  | .illegalOp8F low => ∃ w : Word, encode i = ⟨0x008, .write w⟩ ∧ w &&& 0xFFFFFFF8 = 0x00000008 ∧
      w.extractLsb' 0 3 = low
  | .illegalRsv rsv op => ∃ w : Word, encode i = ⟨0x008, .write w⟩ ∧ w.extractLsb' 4 28 = rsv ∧
      w.extractLsb' 0 4 = op
  | .setf v n => ∃ off : BitVec 11, encode i = ⟨off, .write n⟩ ∧ off &&& 0x403 = 0x400 ∧
      off.extractLsb' 2 8 = v
  | .rdFreq v => ∃ off : BitVec 11, encode i = ⟨off, .read⟩ ∧ off &&& 0x403 = 0x400 ∧
      off.extractLsb' 2 8 = v
  | .wrCodeSel data => encode i = ⟨0x028, .write data⟩
  | .abort data => encode i = ⟨0x004, .write data⟩

/-- FREQ_v's offset has the fixed bits of the rows SETF and RD_FREQ. -/
theorem freqOffset (v : BitVec 8) :
    regOffset (.freq v) &&& 0x403 = 0x400 ∧ (regOffset (.freq v)).extractLsb' 2 8 = v := by
  revert v
  decide +kernel

theorem nop : Statement .nop := rfl
theorem clearFreq : Statement .clearFreq := rfl
theorem build : Statement .build := rfl
theorem writeHeader : Statement .writeHeader := rfl
theorem readHeader : Statement .readHeader := rfl
theorem encode : Statement .encode := rfl
theorem decode : Statement .decode := rfl
theorem illegalOp7 : Statement .illegalOp7 := rfl

theorem illegalOp8F (low : BitVec 3) : Statement (.illegalOp8F low) :=
  ⟨op8FWord low, rfl, by revert low; decide +kernel, by revert low; decide +kernel⟩

theorem illegalRsv (rsv : BitVec 28) (op : BitVec 4) : Statement (.illegalRsv rsv op) :=
  ⟨rsvWord rsv op, rfl, rsvWord_rsv rsv op, rsvWord_op rsv op⟩

theorem setf (v : BitVec 8) (n : Word) : Statement (.setf v n) :=
  ⟨regOffset (.freq v), rfl, (freqOffset v).1, (freqOffset v).2⟩

theorem rdFreq (v : BitVec 8) : Statement (.rdFreq v) :=
  ⟨regOffset (.freq v), rfl, (freqOffset v).1, (freqOffset v).2⟩

theorem wrCodeSel (data : Word) : Statement (.wrCodeSel data) := rfl
theorem abort (data : Word) : Statement (.abort data) := rfl

end Sys2Proof.Laws.RowMatch
end

