-- ==== Sys2Proof/Laws/Step.lean ====
section
/-! SUPPORT. Lemmas of steps and runs: what a host access and an engine step come to, and how a run
takes one step. -/

namespace Sys2Proof.Laws

open Sys2Proof Sys2Proof.Machine Sys2Proof.Safety

/-- A run takes its first step. -/
theorem run_succ {n : Nat} {s s' : State} (h : step s = .next s') : run (n + 1) s = run n s' := by
  simp [run, h]

/-- The host's word access inside the window, by the transaction the block sees (R80, R91). -/
theorem step_access {s : State} {off : Nat} {op : BusOp} {rest : List AgentStep}
    (h : accessNext s off op rest) (ho : off < 2048) :
    step s = match decode ⟨BitVec.ofNat 11 off, op⟩ with
      | .instr i => exec i ⟨s.blk, hostTurn s.env rest⟩
      | .other why => .next (plainAccess why op ⟨s.blk, hostTurn s.env rest⟩) := by
  unfold accessNext at h
  unfold step
  rw [h]
  simp only [decodeAccess_word _ _ _ ho]
  rfl

/-- The first of several engine steps (R242). -/
theorem step_engine_replicate {s : State} {i : Instr} {n : Nat} {rest : List AgentStep}
    (hs : s.env.schedule = List.replicate (n + 1) AgentStep.engine ++ rest)
    (hi : s.blk.seq.instr? = some i) :
    step s = exec i ⟨s.blk, engineTurn s.env (List.replicate n .engine ++ rest)⟩ := by
  simp [step, hs, List.replicate_succ, hi, beginTurn, engineTurn]

/-- A run of engine steps takes its first one by the running command's meaning (R242). -/
theorem run_engine {s s' : State} {i : Instr} {n : Nat} {rest : List AgentStep}
    (hs : s.env.schedule = List.replicate (n + 1) AgentStep.engine ++ rest)
    (hi : s.blk.seq.instr? = some i)
    (h : exec i ⟨s.blk, engineTurn s.env (List.replicate n .engine ++ rest)⟩ = .next s') :
    run (n + 1) s = run n s' :=
  run_succ ((step_engine_replicate hs hi).trans h)

/-- The sequencer state that a command word starts belongs to the command it decodes to (R241). -/
theorem seqOfWord_instr (w : Word) : (seqOfWord w).instr? = some (decodeCommand w) := by
  unfold seqOfWord
  split <;> simp_all [Seq.instr?]

/-- A write of any word to CMD is its command (R111, R123). -/
theorem decode_cmd (w : Word) : decode ⟨8, .write w⟩ = .instr (decodeCommand w) := by
  have hr : regAt 8#11 = .cmd := by decide
  simp [decode, hr, decodeReg]

/-- FREQ_v stands at 0x400 + 4v (R32). -/
theorem regAt_freq {v : Nat} (hv : v < 256) :
    regAt (BitVec.ofNat 11 (0x400 + 4 * v)) = .freq (BitVec.ofNat 8 v) := by
  have h : ∀ v : Fin 256, regAt (BitVec.ofNat 11 (0x400 + 4 * v.val)) = .freq (BitVec.ofNat 8 v.val) := by
    decide +kernel
  exact h ⟨v, hv⟩

/-- CODE_BITS_k stands at 0x040 + 4k (R32). -/
theorem regAt_codeBits {k : Nat} (hk : k < 8) :
    regAt (BitVec.ofNat 11 (0x40 + 4 * k)) = .codeBits ⟨k, hk⟩ := by
  have h : ∀ k : Fin 8, regAt (BitVec.ofNat 11 (0x40 + 4 * k.val)) = .codeBits k := by decide
  exact h ⟨k, hk⟩

/-- A byte of an aligned register is its byte lane (R85). -/
theorem windowByte_aligned (b : Block) (off : BitVec 11) (i : Nat) (hi : i < 4)
    (ha : off.extractLsb' 0 2 = 0) :
    b.windowByte (off + BitVec.ofNat 11 i) = (b.readReg (regAt off)).map fun w => wordByte w i := by
  have h : ∀ off : BitVec 11, off.extractLsb' 0 2 = 0 → ∀ i : Fin 4,
      (off + BitVec.ofNat 11 i.val) &&& 0x7FC = off ∧ (off + BitVec.ofNat 11 i.val).toNat % 4 = i.val := by
    decide +kernel
  obtain ⟨h1, h2⟩ := h off ha ⟨i, hi⟩
  simp only at h1 h2
  rw [Block.windowByte, h1, h2]

/-- An IDLE engine ends no command. -/
theorem not_endsNow_idle {b : Block} (h : b.seq = .idle) : ¬ endsNow b := by simp [endsNow, h]

/-- WRITE_HEADER ends past the last bit of the header (R170). -/
theorem endsNow_writeHeader {b : Block} {pos : Nat} {t : Tree} (h : b.seq = .writeHeader pos)
    (ht : b.tree = some t) : endsNow b ↔ t.hdr.length ≤ pos := by simp [endsNow, h, ht]

/-- READ_HEADER goes on where its item leaves more to read (R176). -/
theorem not_endsNow_readHeader {b : Block} {p q : ReadProgress} {it : BitItem}
    (h : b.seq = .readHeader p) (hp : p.pending = some it) (hr : readItem p it = .more q) :
    ¬ endsNow b := by
  simp only [endsNow, h, hp]
  rintro ⟨_, he, hx⟩
  exact hx q (Option.some.inj he ▸ hr)

/-- ENCODE in the middle of a code ends only after the EOF code (R201). -/
theorem endsNow_encode_send {b : Block} {sym : Sym} {index : Nat} {t : Tree}
    (h : b.seq = .encode (.send sym index)) (ht : b.tree = some t) :
    endsNow b ↔ sym = eof ∧ ∃ code, t.codeOf eof = some code ∧ code.length ≤ index := by
  simp [endsNow, h, ht]

/-- DECODE after a bit ends only at the EOF leaf (R222). -/
theorem endsNow_decode_bit {b : Block} {cur t : Tree} {x : Bool}
    (h : b.seq = .decode (.got cur (.bit x))) (ht : b.tree = some t) :
    endsNow b ↔ cur.child? x = some (.leaf eof) := by simp [endsNow, h, ht]

/-- `withFetchWord` makes the next step run the word's instruction, on the host's turn. -/
theorem step_withFetchWord (s : State) (nbits w : Nat) (i : Instr)
    (h : decodeTableWord nbits w = some i) :
    step (s.withFetchWord nbits w) = exec i ⟨s.blk, hostTurn s.env s.env.schedule⟩ := by
  have hd : decode (tableTxn nbits w) = .instr i := by
    rw [decodeTableWord] at h
    cases hx : decode (tableTxn nbits w) <;> simp_all [Decoded.instr?]
  have ha : accessNext (s.withFetchWord nbits w) (tableTxn nbits w).offset.toNat
      (tableTxn nbits w).op s.env.schedule := rfl
  rw [step_access ha (tableTxn nbits w).offset.isLt]
  simp only [BitVec.ofNat_toNat, BitVec.setWidth_eq, hd]
  rfl

end Sys2Proof.Laws
end

