-- ==== Sys2Proof/Tests/Slice0.lean ====
section
/-! SUPPORT. The model's own tests. Expected values are the spec's: the rows V-... are those of
spec/95_test_vectors.md, the words are written out from spec/30_encoding.md and
spec/opcode_table.json. The theorems witness_... show states and operands that meet the hypotheses
of the statement they name, clause by clause. -/

namespace Sys2Proof.Tests

open Sys2Proof Sys2Proof.Machine Sys2Proof.Safety

/-! ### Helpers -/

/-- What a test looks at in the state a step leads to. -/
def after {α : Type} (r : Result) (look : State → α) : Option α :=
  match r with
  | .next s => some (look s)
  | .fault _ => none
  | .refused _ => none

/-- STATUS and ERRINFO. -/
def report (s : State) : Word × Word := (s.blk.statusWord, s.blk.errInfo)

/-- The block after reset, with the engine at `q` of a command and a tree in the store. -/
def blockAt (q : Seq) (lastOp : BitVec 4) (t : Option Machine.Tree) : Block :=
  { Block.reset with seq := q, lastOp := lastOp, tree := t }

/-- The next step is a 32-bit host access at an offset of a window at 2048. -/
def hostNext (b : Block) (off : Nat) (op : BusOp) : State :=
  ⟨b, { Env.initial with basePage := 1, schedule := [.host ⟨2048 + off, .word, op⟩] }⟩

/-- It is the engine's turn, with the streams of `e`. -/
def engineNow (b : Block) (e : Env) : State := ⟨b, { e with turn := .engine }⟩

/-- The next step is the engine's. -/
def engineNext (b : Block) : State := ⟨b, { Env.initial with schedule := [.engine] }⟩

/-- Streams that offer items and room. -/
def streams : Env :=
  { Env.initial with
    bitIn := [.bit true, .eod], bitRoom := 2, byteIn := [.byte 65, .endOfMessage], byteRoom := 2 }

/-- A bit string of the spec. -/
def bits (s : String) : Bits := s.toList.map (· == '1')

/-- The trees of V-B1, V-B2 and V-B4. -/
def treeB1 : Machine.Tree := .leaf eof
def treeB2 : Machine.Tree := .branch (.leaf eof) (.leaf 65)
def treeB4 : Machine.Tree :=
  .branch (.branch (.leaf eof) (.leaf 65)) (.branch (.leaf 66) (.leaf 67))

/-- A frequency file with these counts, the others 0. -/
def file (counts : List (BitVec 8 × Word)) : Block :=
  counts.foldl (fun b c => b.setFreq c.1 c.2) Block.reset

/-! ### WellFormed: the one check refuses an ill-formed term (R112) -/

theorem test_wf_refuses_rsv_zero : (Instr.illegalRsv 0 2).wellFormed = false := by decide
theorem test_wf_accepts_rsv_one : (Instr.illegalRsv 1 2).wellFormed = true := by decide

/-! ### Decoding: a word written out bit by bit from the spec, for every constructor -/

theorem test_decode_nop :
    decode ⟨0b00000001000, .write 0b00000000000000000000000000000000⟩ = .instr .nop := by decide
theorem test_decode_clearFreq :
    decode ⟨0b00000001000, .write 0b00000000000000000000000000000001⟩ = .instr .clearFreq := by decide
theorem test_decode_build :
    decode ⟨0b00000001000, .write 0b00000000000000000000000000000010⟩ = .instr .build := by decide
theorem test_decode_writeHeader :
    decode ⟨0b00000001000, .write 0b00000000000000000000000000000011⟩ = .instr .writeHeader := by decide
theorem test_decode_readHeader :
    decode ⟨0b00000001000, .write 0b00000000000000000000000000000100⟩ = .instr .readHeader := by decide
theorem test_decode_encode :
    decode ⟨0b00000001000, .write 0b00000000000000000000000000000101⟩ = .instr .encode := by decide
theorem test_decode_decode :
    decode ⟨0b00000001000, .write 0b00000000000000000000000000000110⟩ = .instr .decode := by decide
theorem test_decode_illegalOp7 :
    decode ⟨0b00000001000, .write 0b00000000000000000000000000000111⟩ = .instr .illegalOp7 := by decide
theorem test_decode_illegalOp8F :
    decode ⟨0b00000001000, .write 0b00000000000000000000000000001110⟩ = .instr (.illegalOp8F 6) := by decide
theorem test_decode_illegalRsv :
    decode ⟨0b00000001000, .write 0b10000000000000000000000000010010⟩
      = .instr (.illegalRsv 0b1000000000000000000000000001 0b0010) := by decide
theorem test_decode_setf :
    decode ⟨0b10100000100, .write 5⟩ = .instr (.setf 0b01000001 5) := by decide
theorem test_decode_rdFreq : decode ⟨0b11111111100, .read⟩ = .instr (.rdFreq 0b11111111) := by decide
theorem test_decode_wrCodeSel :
    decode ⟨0b00000101000, .write 0xFFFFFE41⟩ = .instr (.wrCodeSel 0xFFFFFE41) := by decide
theorem test_decode_abort :
    decode ⟨0b00000000100, .write 1⟩ = .instr (.abort 1) := by decide

/-- Misaligned, reserved and read-only accesses are no operation, by name (R82, R83). -/
theorem test_decode_rejects :
    decode ⟨0x00E, .read⟩ = .other .misaligned ∧
    decode ⟨0x3FC, .write 1⟩ = .other (.ignoredWrite .reserved) ∧
    decode ⟨0x05C, .read⟩ = .other (.registerRead (.codeBits 7)) ∧
    decodeAccess 2048 ⟨2048 + 8, .byte, .write 2⟩ = .other .narrow ∧
    decodeAccess 2048 ⟨2047, .word, .read⟩ = .other .outsideWindow ∧
    decodeAccess 2048 ⟨4096, .word, .read⟩ = .other .outsideWindow := by decide

/-- The opcode table's words (assumption 9). -/
theorem test_table_words :
    decodeTableWord 32 0x00000002 = some .build ∧ decodeTableWord 32 0x0000000F = some (.illegalOp8F 7) ∧
    decodeTableWord 16 0x0028 = some (.wrCodeSel 0) ∧ decodeTableWord 16 0x0004 = some (.abort 0) ∧
    decodeTableWord 16 0x0400 = some (.setf 0 0) := by decide

/-- After reset the word BUILD, fetched, is accepted (R241). -/
theorem test_fetch_build :
    after (step (State.reset.withFetchWord 32 2)) report = some (0x00020001, 0) := by decide

/-! ### Registers -/

/-- V-A1, V-A2, V-A3. -/
theorem test_read_id : after (step (hostNext Block.reset 0x000 .read)) (·.env.hostReads)
    = some [0x48554631] := by decide
theorem test_read_reserved : after (step (hostNext Block.reset 0x3FC .read)) (·.env.hostReads)
    = some [0] := by decide

/-- V-A4. -/
theorem test_write_status_ignored :
    after (step (hostNext Block.reset 0x00C (.write 0xFFFFFFFF))) report = some (0, 0) := by decide

/-- V-A6. -/
theorem test_narrow_write_ignored :
    after (step ⟨Block.reset, { Env.initial with schedule := [.host ⟨8, .byte, .write 2⟩] }⟩) report
      = some (0, 0) := by decide

/-- V-K12. -/
theorem test_status_of_a_holding_encode :
    (blockAt (.encode (.send 65 0)) 5 (some treeB2)).statusWord = 0x00050009 := by decide

/-- V-C1 to V-C6 and V-C12. -/
theorem test_code_readout :
    let b := fun sel => { blockAt .idle 2 (some treeB4) with codeSel := sel }
    [65, 66, 67, 256, 68, 300].map (fun sel => ((b sel).codeLenWord, (b sel).codeBitsReg 0)) =
      [(0x80000002, 2), (0x80000002, 1), (0x80000002, 3), (0x80000002, 0), (0, 0), (0, 0)] ∧
    { Block.reset with codeSel := 256 }.codeLenWord = 0 := by decide

/-- R85: byte 1 of FREQ_65 = 0x0000AB05. -/
theorem test_window_byte : (file [(65, 0xAB05)]).windowByte 0x505 = some 0xAB := by decide

/-- R57: while a command runs the value read is free, whatever it is. -/
theorem test_busy_read_is_free :
    step (hostNext (blockAt .nop 0 none) 0x010 .read)
      = .next (readDrawn (hostNext (blockAt .nop 0 none) 0x010 .read) []) := rfl

/-! ### One step of each operation -/

/-- V-K2; V-K1, where a tree is in the store. -/
theorem test_nop_ends : after (exec .nop (engineNow (blockAt .nop 0 none) streams)) report
    = some (0x00000002, 0) := by decide
theorem test_nop_keeps_tree :
    after (exec .nop (engineNow (blockAt .nop 0 (some treeB2)) streams)) report
      = some (0x0000000A, 0) := by decide

/-- V-F1, V-F2. -/
theorem test_clearFreq_zeroes :
    after (exec .clearFreq (engineNow { file [(65, 5), (7, 9)] with seq := .clearFreq } streams))
      (fun s => (s.blk.freqAt 65, s.blk.freqAt 7)) = some (0, 0) := by decide +kernel
theorem test_clearFreq_keeps_tree :
    after (exec .clearFreq (engineNow (blockAt .clearFreq 1 (some treeB2)) streams)) report
      = some (0x0001000A, 0) := by decide

/-- V-B4, with its STATUS; V-B7. -/
theorem test_build_ties :
    after (exec .build (engineNow
        { file [(65, 2), (66, 2), (67, 2)] with seq := .build, lastOp := 2 } streams))
      (fun s => (s.blk.tree, s.blk.statusWord)) = some (some treeB4, 0x0002000A) := by decide +kernel
theorem test_build_edges :
    after (exec .build (engineNow { file [(0, 3), (1, 1), (2, 1)] with seq := .build } streams))
      (·.blk.tree) = some (some (.branch (.leaf 0) (.branch (.leaf eof) (.branch (.leaf 1) (.leaf 2))))) := by
  decide +kernel

/-- V-H0, V-H2. -/
theorem test_header_fields :
    f9 0 = bits "000000000" ∧ f9 65 = bits "100000100" ∧ f9 255 = bits "111111110" ∧
    f9 256 = bits "000000001" ∧ treeB2.hdr = bits "010000000011100000100" := by decide

/-- V-H1, its last step; V-H6e. -/
theorem test_writeHeader_ends :
    after (exec .writeHeader (engineNow (blockAt (.writeHeader 10) 3 (some treeB1)) streams)) report
      = some (0x0003000A, 0) := by decide
theorem test_writeHeader_no_tree :
    after (exec .writeHeader (engineNow (blockAt (.writeHeader 0) 3 none) streams)) report
      = some (0x00030206, 0) := by decide

/-- V-H10b, its last step: the symbol 300. -/
theorem test_readHeader_bad_symbol :
    after (exec .readHeader (engineNow
        (blockAt (.readHeader ⟨[none], [], 1, some (bits "00110100"), some (.bit true)⟩) 4 none)
        streams)) report = some (0x00040406, 0x0000012C) := by decide

/-- V-H9, its last step. -/
theorem test_readHeader_stores_eof_leaf :
    after (exec .readHeader (engineNow
        (blockAt (.readHeader ⟨[], [], 0, some (bits "00000000"), some (.bit true)⟩) 4 none)
        streams)) (fun s => (s.blk.tree, s.blk.statusWord)) = some (some treeB1, 0x0004000A) := by
  decide

/-- V-E8, its last step. -/
theorem test_encode_unmapped :
    after (exec .encode (engineNow (blockAt (.encode (.got (.byte 66))) 5 (some treeB2)) streams))
      report = some (0x0005080E, 0x00000042) := by decide

/-- V-E3: the second bit of 66, whose code is 10. -/
theorem test_encode_second_bit :
    after (exec .encode (engineNow (blockAt (.encode (.send 66 1)) 5 (some treeB4)) streams))
      (fun s => (s.env.bitOut, s.env.bitRoom, s.blk.bitsOut)) = some ([false], 1, 1) := by decide

/-- V-D8, its last step. -/
theorem test_decode_truncated :
    after (exec .decode (engineNow (blockAt (.decode (.got treeB4 .eod)) 6 (some treeB4)) streams))
      report = some (0x0006090E, 0) := by decide

/-- V-D7: from the right subtree the bit 0 leads to 66. -/
theorem test_decode_sends_byte :
    after (exec .decode (engineNow
        (blockAt (.decode (.got (.branch (.leaf 66) (.leaf 67)) (.bit false))) 6 (some treeB4))
        streams)) (fun s => (s.env.byteOut, s.blk.bytesOut)) = some ([66], 1) := by decide

/-- V-K3, its two steps. -/
theorem test_illegalOp7_accepted :
    after (step (hostNext Block.reset 0x008 (.write 7))) report = some (0x00070001, 0) := by decide
theorem test_illegalOp7_reports :
    after (exec .illegalOp7 (engineNow (blockAt (.illegal 7) 7 none) streams)) report
      = some (0x00070106, 7) := by decide

theorem test_illegalOp8F_reports :
    after (exec (.illegalOp8F 7) (engineNow (blockAt (.illegal 0xF) 0xF none) streams)) report
      = some (0x000F0106, 0xF) := by decide

/-- V-K4, V-K5. -/
theorem test_illegalRsv_keeps_tree :
    after (step (hostNext (blockAt .idle 0 (some treeB2)) 0x008 (.write 0x12)))
      (fun s => (s.blk.tree, s.blk.statusWord)) = some (some treeB2, 0x00020009) := by decide
theorem test_illegalRsv_reports :
    after (exec (.illegalRsv 0xFFFFFFF 0xF)
        (engineNow (blockAt (.illegal 0xFFFFFFFF) 0xF (some treeB2)) streams)) report
      = some (0x000F010E, 0xFFFFFFFF) := by decide

/-- V-F0, V-F3. -/
theorem test_setf_stores :
    after (exec (.setf 65 5) State.reset) (fun s => (s.blk.freqAt 65, s.blk.freqAt 66, s.blk.statusWord))
      = some (5, 0, 0) := by decide +kernel
theorem test_setf_dropped :
    after (exec (.setf 65 7) (engineNext (blockAt (.encode .start) 5 none)))
      (fun s => (s.blk.freqAt 65, s.blk.overrun)) = some (0, true) := by decide +kernel

/-- V-A9. -/
theorem test_rdFreq_returns :
    after (exec (.rdFreq 0) ⟨file [(0, 0xFFFFFFFF)], Env.initial⟩) (·.env.hostReads)
      = some [0xFFFFFFFF] := by decide +kernel

/-- V-A8. -/
theorem test_wrCodeSel_keeps_nine_bits :
    after (exec (.wrCodeSel 0xFFFFFE41) State.reset) (fun s => s.blk.readReg .codeSel)
      = some (some 0x00000041) := by decide

/-- V-K10, and bit 0 of the data decides. -/
theorem test_abort_has_no_effect :
    after (exec (.abort 1) State.reset) (·.blk.abortReq) = some false ∧
    after (exec (.abort 0xFFFFFFFE) (engineNext (blockAt .nop 0 none))) (·.blk.abortReq)
      = some false := by decide

/-- V-K6: the BUILD of a host that does not wait is dropped. -/
theorem test_busy_command_dropped :
    after (exec .build ⟨blockAt (.decode .emitted) 6 (some treeB2), Env.initial⟩)
      (fun s => (s.blk.seq, s.blk.overrun)) = some (.decode .emitted, true) := by decide

/-! ### Witnesses -/

theorem witness_DecodeOfEncodeIsTheInstruction :
    (Instr.illegalRsv 1 2).wellFormed = true ∧ (Instr.setf 255 0).wellFormed = true := by decide

theorem witness_EncodeOfDecodeIsTheTransaction :
    decode ⟨0x400, .read⟩ = .instr (.rdFreq 0) ∧ decode ⟨0x7FC, .write 0⟩ = .instr (.setf 255 0) := by
  decide

theorem witness_StepRunsTheDecodedAccess :
    (hostNext Block.reset 0x7FC .read).env.schedule = [.host ⟨2048 + 0x7FC, .word, .read⟩] ∧
    (hostNext Block.reset 0x7FC .read).env.huffBase = 2048 ∧
    decodeAccess 2048 ⟨2048 + 0x7FC, .word, .read⟩ = .instr (.rdFreq 255) ∧
    2047 < 2048 ∧ 2048 + 2048 ≤ 4096 := by decide

/-- One state for each clause of the running commands. -/
theorem witness_StepRunsTheRunningCommand :
    ∀ q ∈ [Seq.idle, .nop, .clearFreq, .build, .writeHeader 0, .readHeader ReadProgress.start,
        .encode .start, .decode .start, .illegal 7],
      (engineNext (blockAt q 0 none)).env.schedule = [.engine] ∧
      (engineNext (blockAt q 0 none)).blk.seq = q := by decide

theorem witness_IdReadsItsConstant :
    accessNext (hostNext Block.reset 0x000 .read) 0x000 .read [] ∧
    accessNext (hostNext Block.reset 0x000 (.write 7)) 0x000 (.write 7) [] := ⟨rfl, rfl⟩

theorem witness_StatusReadShowsEveryField :
    accessNext (hostNext Block.reset 0x00C .read) 0x00C .read [] := rfl

theorem witness_ControlRegistersReadExactly :
    accessNext (hostNext Block.reset 0x004 .read) 0x004 .read [] ∧
    accessNext (hostNext Block.reset 0x008 .read) 0x008 .read [] ∧
    accessNext (hostNext Block.reset 0x028 .read) 0x028 .read [] := ⟨rfl, rfl, rfl⟩

/-- A running command, and the lowest and the highest register of R57 with both ranges' ends. -/
theorem witness_BusyReadsReturnAFreeValue :
    (blockAt .nop 0 none).seq ≠ .idle ∧
    (unspecifiedWhileBusy 0x010 ∧
      accessNext (hostNext (blockAt .nop 0 none) 0x010 .read) 0x010 .read []) ∧
    (unspecifiedWhileBusy 0x05C ∧
      accessNext (hostNext (blockAt .nop 0 none) 0x05C .read) 0x05C .read []) ∧
    (unspecifiedWhileBusy 0x7FC ∧
      accessNext (hostNext (blockAt .nop 0 none) 0x7FC .read) 0x7FC .read []) :=
  ⟨by decide, ⟨.inl (by decide), rfl⟩, ⟨.inr (.inl ⟨7, by decide, rfl⟩), rfl⟩,
    ⟨.inr (.inr ⟨255, by decide, rfl⟩), rfl⟩⟩

theorem witness_IdleReadsReturnTheRegister :
    Block.reset.seq = .idle ∧
    accessNext (hostNext Block.reset 0x010 .read) 0x010 .read [] ∧
    accessNext (hostNext Block.reset 0x014 .read) 0x014 .read [] ∧
    accessNext (hostNext Block.reset 0x018 .read) 0x018 .read [] ∧
    accessNext (hostNext Block.reset 0x01C .read) 0x01C .read [] ∧
    accessNext (hostNext Block.reset 0x020 .read) 0x020 .read [] ∧
    accessNext (hostNext Block.reset 0x400 .read) (0x400 + 4 * 0) .read [] ∧
    accessNext (hostNext Block.reset 0x7FC .read) (0x400 + 4 * 255) .read [] :=
  ⟨rfl, rfl, rfl, rfl, rfl, rfl, rfl, rfl⟩

/-- The last byte of the window, misaligned, and its first, narrow. -/
theorem witness_NarrowOrMisalignedAccessHasNoEffect :
    (hostNext Block.reset 2047 .read).env.schedule = [.host ⟨2048 + 2047, .word, .read⟩] ∧
    (hostNext Block.reset 2047 .read).env.huffBase = 2048 ∧ 2047 < 2048 ∧ 2047 % 4 ≠ 0 ∧
    ({ Env.initial with basePage := 1, schedule := [.host ⟨2048, .byte, .write 1⟩] } : Env).schedule
      = [.host ⟨2048 + 0, .byte, .write 1⟩] ∧ Width.byte ≠ Width.word ∧ 0 < 2048 := by decide

theorem witness_ReservedAndReadOnlyWritesAreIgnored :
    (reservedOffset 0x030 ∧ reservedOffset 0x03C ∧ reservedOffset 0x060 ∧ reservedOffset 0x3FC) ∧
    (readOnlyOffset 0x000 ∧ readOnlyOffset 0x05C) ∧
    accessNext (hostNext Block.reset 0x030 .read) 0x030 .read [] ∧
    accessNext (hostNext Block.reset 0x3FC (.write 1)) 0x3FC (.write 1) [] ∧
    accessNext (hostNext Block.reset 0x05C (.write 1)) 0x05C (.write 1) [] := by
  refine ⟨?_, ⟨.inl (by decide), .inr ⟨7, by decide, rfl⟩⟩, rfl, rfl, rfl⟩
  unfold reservedOffset
  decide

theorem witness_BusyWritesAreDropped :
    (blockAt .nop 0 none).seq ≠ .idle ∧
    accessNext (hostNext (blockAt .nop 0 none) 0x008 (.write 2)) 0x008 (.write 2) [] ∧
    accessNext (hostNext (blockAt .nop 0 none) 0x028 (.write 2)) 0x028 (.write 2) [] ∧
    accessNext (hostNext (blockAt .nop 0 none) 0x7FC (.write 2)) (0x400 + 4 * 255) (.write 2) [] ∧
    accessNext (hostNext (blockAt .nop 0 none) 0x004 (.write 1)) 0x004 (.write 1) [] :=
  ⟨by decide, rfl, rfl, rfl, rfl⟩

/-- EOF is mapped, 68 is not, 257 and 511 are no symbol, and there is a state without a tree. -/
theorem witness_CodeTableReadoutShowsTheCode :
    (blockAt .idle 2 (some treeB4)).seq = .idle ∧ (blockAt .idle 2 (some treeB4)).tree = some treeB4 ∧
    treeB4.Valid ∧ (256 : BitVec 9).toNat = eof.val ∧ treeB4.codeOf eof = some [false, false] ∧
    treeB4.codeOf 68 = none ∧ (68 : BitVec 9).toNat = (68 : Sym).val ∧
    257 ≤ (257 : BitVec 9).toNat ∧ 257 ≤ (511 : BitVec 9).toNat ∧ Block.reset.tree = none := by decide

theorem witness_LeavesRegisterCountsTheLeaves :
    (blockAt .idle 2 (some treeB1)).seq = .idle ∧ treeB1.Valid ∧ Block.reset.tree = none ∧
    accessNext (hostNext (blockAt .idle 2 (some treeB1)) 0x024 .read) 0x024 .read [] :=
  ⟨rfl, by decide, rfl, rfl⟩

theorem witness_ResetInputResetsOnlyTheBlock :
    ({ Env.initial with schedule := [.reset] } : Env).schedule = [.reset] := rfl

theorem witness_SetfStoresTheCount :
    State.reset.blk.seq = .idle ∧ (blockAt .nop 0 none).seq ≠ .idle := by decide

theorem witness_RdFreqReturnsTheCount :
    State.reset.blk.seq = .idle ∧ (blockAt .nop 0 none).seq ≠ .idle ∧
    (engineNow (blockAt .build 2 none) streams).env.turn = .engine ∧
    (blockAt .build 2 none).seq = .build := by decide

theorem witness_WrCodeSelKeepsNineBits :
    State.reset.blk.seq = .idle ∧ (blockAt .nop 0 none).seq ≠ .idle := by decide

theorem witness_AbortSetsTheLatchOfARunningCommand :
    (blockAt .nop 0 none).seq ≠ .idle ∧ (1 : Word).getLsbD 0 = true ∧
    State.reset.blk.seq = .idle ∧ (0xFFFFFFFE : Word).getLsbD 0 = false := by decide

/-- Each of the ten rows has a word that meets the hypotheses at reset. -/
theorem witness_AcceptanceStartsTheCommand :
    State.reset.env.turn = .host ∧ State.reset.blk.seq = .idle ∧
    (hostNext (blockAt .nop 0 none) 8 .read).env.turn = .host ∧ (blockAt .nop 0 none).seq ≠ .idle ∧
    ∀ e ∈ [(Instr.nop, (0 : Word)), (.clearFreq, 1), (.build, 2), (.writeHeader, 3), (.readHeader, 4),
        (.encode, 5), (.decode, 6), (.illegalOp7, 7), (.illegalOp8F 0, 8), (.illegalOp8F 7, 15),
        (.illegalRsv 1 2, 0x12)],
      e.1.wellFormed = true ∧ encode e.1 = ⟨0x008, .write e.2⟩ := by decide

theorem witness_NopEndsWithSuccess :
    (engineNow (blockAt .nop 0 none) streams).env.turn = .engine ∧ (blockAt .nop 0 none).seq = .nop := by
  decide

theorem witness_IllegalCommandReportsItsWord :
    (engineNow (blockAt (.illegal 7) 7 none) streams).env.turn = .engine ∧
    (blockAt (.illegal 7) 7 none).seq = .illegal 7 := by decide

theorem witness_IllegalWordChangesOnlyStatus :
    State.reset.blk.seq = .idle ∧ (0x10 : Word).extractLsb' 4 28 ≠ 0 ∧
    7 ≤ ((7 : Word).extractLsb' 0 4).toNat ∧
    accessNext ⟨Block.reset, { Env.initial with schedule := [.host ⟨8, .word, .write 7⟩, .engine] }⟩
      0x008 (.write 7) (.engine :: []) := ⟨rfl, by decide, by decide, rfl⟩

theorem witness_ClearFreqZeroesTheFile :
    (engineNow (blockAt .clearFreq 1 none) streams).env.turn = .engine ∧
    (blockAt .clearFreq 1 none).seq = .clearFreq := by decide

theorem witness_BuildStoresTheTreeAndEnds :
    (engineNow (blockAt .build 2 none) streams).env.turn = .engine ∧
    (blockAt .build 2 none).seq = .build := by decide

theorem witness_NoTreeEndsTheCommandAtItsFirstStep :
    ∀ q ∈ [Seq.writeHeader 0, .encode .start, .decode .start],
      (engineNow (blockAt q 0 none) streams).env.turn = .engine ∧ (blockAt q 0 none).tree = none ∧
      (blockAt q 0 none).seq = q := by decide

/-- A block in which the abort of the command at `q` is requested. -/
def aborting (q : Seq) : Block := { blockAt q 0 (some treeB4) with abortReq := true }

/-- READ_HEADER after five bits, as in V-K8, with the last of them still to be worked on. -/
def afterFiveBits : ReadProgress := ⟨[none], [], 1, some (bits "10"), some (.bit true)⟩

/-- Every position of the clauses, on V-B4's tree. -/
theorem witness_AbortIsTakenBeforeATransaction :
    (∀ q ∈ [Seq.writeHeader 0, .writeHeader 43, .readHeader ReadProgress.start,
        .readHeader afterFiveBits, .encode .start, .encode (.send eof 1), .encode (.send 66 2),
        .encode (.got (.byte 66)), .encode (.got .endOfMessage), .encode (.send eof 2),
        .decode .start, .decode (.got treeB4 (.bit false)), .decode (.got treeB2 (.bit false)),
        .decode .emitted],
      (engineNow (aborting q) streams).env.turn = .engine ∧ (aborting q).abortReq = true ∧
      (aborting q).tree = some treeB4 ∧ (aborting q).seq = q) ∧
    0 < treeB4.hdr.length ∧ treeB4.hdr.length ≤ 43 ∧ ReadProgress.start.pending = none ∧
    afterFiveBits.pending = some (.bit true) ∧
    readItem afterFiveBits (.bit true) = .more ⟨[none], [], 1, some (bits "101"), none⟩ ∧
    treeB4.codeOf eof = some [false, false] ∧ 1 < [false, false].length ∧
    [false, false].length ≤ 2 ∧ [false, false] ≠ [] ∧ treeB4.codeOf (symOfByte 66) = some [true, false] ∧
    treeB4.codeOf 66 = some [true, false] ∧ (66 : Sym) ≠ eof ∧ treeB1.codeOf eof = some [] ∧
    treeB4 ≠ .leaf eof ∧ treeB4.child? false = some treeB2 ∧ treeB2 ≠ .leaf eof ∧
    treeB2.child? false = some (.leaf eof) := by decide

/-- V-K7 and V-K8, their last steps: DECODE holding on its first bit, READ_HEADER after five. -/
theorem test_abort_of_holding_commands :
    after (exec .decode (engineNow
        { blockAt (.decode .start) 6 (some treeB2) with abortReq := true, overrun := true }
        Env.initial)) report = some (0x00060A1E, 0) ∧
    after (exec .readHeader (engineNow
        { blockAt (.readHeader afterFiveBits) 4 none with abortReq := true, bitsIn := 5 }
        Env.initial)) (fun s => (report s, s.blk.bitsIn, s.blk.tree))
      = some ((0x00040A06, 0), 5, none) := by decide

/-- READ_HEADER just accepted is a good state, abort requested or not. -/
theorem inv_readStart (e : Env) (a : Bool) :
    Inv ⟨{ blockAt (.readHeader ReadProgress.start) 4 none with abortReq := a }, e⟩ where
  tree_valid := by intro t h; cases h
  err_code := by simp [blockAt, Block.reset]
  busy_not_done := fun _ => rfl
  not_done_no_error := fun _ => ⟨rfl, rfl⟩
  abort_busy := fun _ => rfl
  progress := ⟨rfl, rfl,
    ⟨List.nodup_nil, List.Perm.refl _, rfl, by decide, by intro _ h; cases h⟩, rfl⟩

theorem witness_AbortRequestEndsTheCommandAtItsNextStep :
    ∃ s t : State, Inv s ∧ s.blk.abortReq = true ∧ s.blk.seq ≠ .idle ∧
      s.env.schedule = [.engine] ∧ step s = .next t :=
  ⟨⟨{ blockAt (.readHeader ReadProgress.start) 4 none with abortReq := true },
    { streams with schedule := [.engine] }⟩, _, inv_readStart _ true, rfl, by decide, rfl, rfl⟩

/-- The first clause, on a command that holds and on one that ends, and a state for each position of
the others: on V-B4's tree, and on a leaf of 65 for a byte with an empty code. -/
theorem witness_EngineHoldsForItsPartner :
    (∃ u, step (engineNext (blockAt (.decode .emitted) 6 (some treeB2))) = .next u) ∧
    ¬ endsNow (blockAt (.decode .emitted) 6 (some treeB2)) ∧
    (∃ u, step (engineNext (blockAt .nop 0 none)) = .next u) ∧ endsNow (blockAt .nop 0 none) ∧
    (∀ b ∈ [blockAt (.decode .emitted) 6 (some treeB2), blockAt .nop 0 none],
      (engineNext b).env.bitIn = [] ∧ (engineNext b).env.byteIn = [] ∧
      (engineNext b).env.bitRoom = 0 ∧ (engineNext b).env.byteRoom = 0 ∧
      (engineNext b).env.schedule = [.engine] ∧ b.abortReq = false) ∧
    (∀ t ∈ [treeB4, .leaf 65], ∀ q ∈ [Seq.writeHeader 0, .readHeader ReadProgress.start,
        .readHeader afterFiveBits, .encode .start, .encode (.send 66 2), .encode (.got (.byte 65)),
        .encode (.send 66 1), .encode (.got (.byte 66)), .encode (.got .endOfMessage),
        .decode .start, .decode .emitted, .decode (.got treeB4 (.bit false)),
        .decode (.got treeB2 (.bit true))],
      (engineNow (blockAt q 0 (some t)) Env.initial).env.turn = .engine ∧
      (blockAt q 0 (some t)).abortReq = false ∧ (blockAt q 0 (some t)).tree = some t ∧
      (blockAt q 0 (some t)).seq = q) ∧
    0 < treeB4.hdr.length ∧
    readItem afterFiveBits (.bit true) = .more ⟨[none], [], 1, some (bits "101"), none⟩ ∧
    treeB4.codeOf 66 = some [true, false] ∧ (66 : Sym) = symOfByte 66 ∧ (66 : Sym) ≠ eof ∧
    treeB4.codeOf eof = some [false, false] ∧ (Tree.leaf 65).codeOf (symOfByte 65) = some [] ∧
    treeB4.isBranch = true ∧ treeB4.child? false = some treeB2 ∧ treeB2.isBranch = true ∧
    treeB2.child? true = some (.leaf 65) ∧ (65 : Sym) ≠ eof :=
  ⟨⟨_, rfl⟩, id, ⟨_, rfl⟩, trivial, by decide, by decide, by decide, by decide, by decide, by decide,
    by decide, by decide, by decide, by decide, rfl, by decide, rfl, by decide⟩

theorem witness_EngineStepMovesAtMostOneItem :
    ∃ t, (engineNext (blockAt (.decode .emitted) 6 (some treeB2))).env.schedule = .engine :: [] ∧
      step (engineNext (blockAt (.decode .emitted) 6 (some treeB2))) = .next t := ⟨_, rfl, rfl⟩

theorem witness_OnlyBuildReadHeaderAndResetChangeTheTree :
    ∃ t, step (engineNext (blockAt .build 2 none)) = .next t ∧
      t.blk.tree ≠ (engineNext (blockAt .build 2 none)).blk.tree :=
  ⟨_, rfl, by intro h; cases h⟩

theorem witness_OnlySetfClearFreqAndResetChangeTheCounts :
    ∃ t, step (hostNext Block.reset 0x7FC (.write 1)) = .next t ∧ t.blk.freq ≠ Block.reset.freq :=
  ⟨_, rfl, by decide +kernel⟩

theorem witness_OnlyACmdWriteStartsACommand :
    ∃ t, step (hostNext Block.reset 0x008 (.write 0)) = .next t ∧ Block.reset.seq = .idle ∧
      t.blk.seq ≠ .idle := ⟨_, rfl, rfl, by decide⟩

theorem witness_CodesArePrefixFreeAndShort :
    treeB4.Valid ∧ treeB4.codeOf eof = some [false, false] ∧ treeB4.codeOf 67 = some [true, true] ∧
    eof ≠ (67 : Sym) := by decide

theorem witness_HeaderHasElevenBitsALeafLessOne : treeB1.Valid ∧ treeB4.Valid := by decide

theorem witness_BuildRemovesTheFirstNode :
    ([⟨2, 0, treeB1⟩, ⟨1, 1, treeB2⟩].map Node.k).Nodup ∧
    takeFirst [⟨2, 0, treeB1⟩, ⟨1, 1, treeB2⟩] = some (⟨1, 1, treeB2⟩, [⟨2, 0, treeB1⟩]) := by decide

theorem witness_BuildOfAtMostOneSymbol :
    (∀ (u : Nat) (hu : u < 256), Block.reset.freq[u] = 0) ∧
    (∀ (u : Nat) (hu : u < 256), u ≠ 255 → (file [(255, 1)]).freq[u] = 0) ∧
    (file [(255, 1)]).freq[255] = 1 ∧
    (∀ (u : Nat) (hu : u < 256), u ≠ 0 → (file [(0, 2)]).freq[u] = 0) ∧
    2 ≤ ((file [(0, 2)]).freq[0] : Word).toNat := by
  refine ⟨fun u hu => ?_, fun u hu h => ?_, ?_, fun u hu h => ?_, ?_⟩
  · simp [Block.reset]
  · simp [file, Block.setFreq, Block.reset, Ne.symm h]
  · simp [file, Block.setFreq]
  · simp [file, Block.setFreq, Block.reset, Ne.symm h]
  · simp [file, Block.setFreq]

theorem witness_WriteHeaderStepSendsTheNextBit :
    (∀ pos ∈ [0, 9, 10],
      (engineNow (blockAt (.writeHeader pos) 3 (some treeB1)) streams).env.turn = .engine ∧
      (blockAt (.writeHeader pos) 3 (some treeB1)).abortReq = false ∧
      (blockAt (.writeHeader pos) 3 (some treeB1)).seq = .writeHeader pos ∧
      (blockAt (.writeHeader pos) 3 (some treeB1)).tree = some treeB1) ∧
    9 < treeB1.hdr.length ∧ streams.bitRoom = 1 + 1 ∧ treeB1.hdr.length ≤ 10 := by decide

theorem witness_WriteHeaderSendsTheHeader :
    (blockAt (.writeHeader 0) 3 (some treeB1)).seq = .writeHeader 0 ∧
    (blockAt (.writeHeader 0) 3 (some treeB1)).tree = some treeB1 ∧
    (blockAt (.writeHeader 0) 3 (some treeB1)).abortReq = false ∧ treeB1.hdr.length ≤ 10 ∧
    List.replicate 11 AgentStep.engine = List.replicate (treeB1.hdr.length + 1) .engine ++ [] := by
  decide

/-- READ_HEADER's positions of the five clauses: the first step; a leaf's discriminator; a branch's,
the 256th; inside a field with 7 bits; and the leaf 65 that completes a branch in an outer one. -/
theorem witness_ReadHeaderStepConsumesTheNextItem :
    (∀ p ∈ [ReadProgress.start, ⟨[], [], 0, none, some (.bit true)⟩, ⟨[], [], 255, none, some (.bit false)⟩,
        ⟨[], [], 0, some (bits "1000001"), some (.bit false)⟩,
        ⟨[some treeB1, none], [eof], 2, some (bits "10000010"), some (.bit false)⟩],
      (engineNow (blockAt (.readHeader p) 4 none) streams).env.turn = .engine ∧
      (blockAt (.readHeader p) 4 none).abortReq = false ∧
      (blockAt (.readHeader p) 4 none).seq = .readHeader p) ∧
    streams.bitIn = .bit true :: [.eod] ∧ 255 < 256 ∧ (bits "1000001").length < 8 ∧
    (bits "10000010").length = 8 ∧ valueLE (bits "10000010" ++ [false]) = (65 : Sym).val ∧
    (65 : Sym) ∉ [eof] ∧ [some treeB1, none] = [treeB1].map some ++ none :: [] := by decide

/-- The five checks: EOD; the 257th branch; 257 as a symbol; a repeated symbol; no EOF. -/
theorem witness_ReadHeaderReportsEachFormatError :
    (∀ p ∈ [(⟨[], [], 0, none, some .eod⟩ : ReadProgress), ⟨[], [], 256, none, some (.bit false)⟩,
        ⟨[], [], 0, some (bits "10000000"), some (.bit true)⟩,
        ⟨[some treeB1], [eof], 1, some (bits "00000000"), some (.bit true)⟩,
        ⟨[], [], 0, some (bits "00000010"), some (.bit false)⟩],
      (engineNow (blockAt (.readHeader p) 4 none) streams).env.turn = .engine ∧
      (blockAt (.readHeader p) 4 none).seq = .readHeader p) ∧
    256 < valueLE (bits "10000000" ++ [true]) ∧ valueLE (bits "00000000" ++ [true]) = eof.val ∧
    eof ∈ [eof] ∧ valueLE (bits "00000010" ++ [false]) = (64 : Sym).val ∧ (64 : Sym) ∉ ([] : List Sym) ∧
    ([] : List (Option Machine.Tree)) = ([] : List Machine.Tree).map some ∧ (64 : Sym) ≠ eof ∧
    eof ∉ ([] : List Sym) := by decide

theorem witness_ReadHeaderStoresTheCompleteTree :
    (bits "00000000").length = 8 ∧ valueLE (bits "00000000" ++ [true]) = eof.val ∧
    eof ∉ [(65 : Sym)] ∧ [some (Tree.leaf 65)] = [Tree.leaf 65].map some ∧
    (blockAt (.readHeader ⟨[some (.leaf 65)], [65], 1, some (bits "00000000"), some (.bit true)⟩) 4
      none).seq = .readHeader ⟨[some (.leaf 65)], [65], 1, some (bits "00000000"), some (.bit true)⟩ := by
  decide

theorem witness_ReadHeaderReadsBackTheTree :
    treeB1.Valid ∧
    (blockAt (.readHeader ReadProgress.start) 4 none).seq = .readHeader ReadProgress.start ∧
    (blockAt (.readHeader ReadProgress.start) 4 none).abortReq = false ∧
    (bits "1000000001").map BitItem.bit ++ [.eod] = treeB1.hdr.map .bit ++ [.eod] ∧
    List.replicate 11 AgentStep.engine = List.replicate (treeB1.hdr.length + 1) .engine ++ [] := by
  decide

theorem witness_ReadHeaderConsumesAtMost2826Bits :
    Inv ⟨blockAt (.readHeader ReadProgress.start) 4 none, Env.initial⟩ ∧
    (blockAt (.readHeader ReadProgress.start) 4 none).seq = .readHeader ReadProgress.start :=
  ⟨inv_readStart _ false, rfl⟩

theorem witness_ReadHeaderEndsOnEveryBitSource :
    ∃ s : State, Inv s ∧ s.blk.seq = .readHeader ReadProgress.start ∧ 2826 ≤ s.env.bitIn.length ∧
      s.env.schedule = List.replicate 2827 .engine ++ [] :=
  ⟨⟨blockAt (.readHeader ReadProgress.start) 4 none,
      { Env.initial with
        bitIn := List.replicate 2826 (.bit false), schedule := List.replicate 2827 .engine }⟩,
    inv_readStart _ false, rfl, List.length_replicate.ge, (List.append_nil _).symm⟩

/-- A tree in which the byte 65 has the empty code, which only an unreachable state holds, meets the
clauses of a byte with an empty code; the others are met by V-B4's tree. -/
theorem witness_EncodeStepFollowsTheMessage :
    (∀ q ∈ [EncodeProgress.start, .send 66 2, .got (.byte 65), .send 66 1, .got (.byte 66),
        .got .endOfMessage, .send eof 2],
      (engineNow (blockAt (.encode q) 5 (some treeB4)) streams).env.turn = .engine ∧
      (blockAt (.encode q) 5 (some treeB4)).abortReq = false ∧
      (blockAt (.encode q) 5 (some treeB4)).tree = some treeB4 ∧
      (blockAt (.encode q) 5 (some treeB4)).seq = .encode q) ∧
    streams.byteIn = .byte 65 :: [.endOfMessage] ∧ streams.bitRoom = 1 + 1 ∧
    treeB4.codeOf 66 = some [true, false] ∧ (66 : Sym) ≠ eof ∧ (66 : Sym) = symOfByte 66 ∧
    [true, false].length ≤ 2 ∧ 1 < [true, false].length ∧
    treeB4.codeOf eof = some [false, false] ∧ [false, false].length ≤ 2 ∧
    (Tree.leaf 65).codeOf (symOfByte 65) = some [] ∧ treeB1.codeOf eof = some [] := by decide

theorem witness_EncodeStopsAtAnUnmappedByte :
    (engineNow (blockAt (.encode (.got (.byte 66))) 5 (some treeB2)) streams).env.turn = .engine ∧
    (blockAt (.encode (.got (.byte 66))) 5 (some treeB2)).tree = some treeB2 ∧
    (blockAt (.encode (.got (.byte 66))) 5 (some treeB2)).seq = .encode (.got (.byte 66)) ∧
    treeB2.codeOf (symOfByte 66) = none := by decide

/-- V-E3; V-E1, whose payload is empty. -/
theorem witness_EncodeSendsThePayload :
    treeB4.payload [65, 66, 67] = some (bits "01101100") ∧ treeB1.payload [] = some [] ∧
    (blockAt (.encode .start) 5 (some treeB4)).tree = some treeB4 ∧
    (blockAt (.encode .start) 5 (some treeB4)).seq = .encode .start ∧
    (blockAt (.encode .start) 5 (some treeB4)).abortReq = false ∧
    [ByteItem.byte 65, .byte 66, .byte 67, .endOfMessage] = [65, 66, 67].map .byte ++ .endOfMessage :: [] ∧
    (bits "01101100").length ≤ 8 ∧
    List.replicate 13 AgentStep.engine = List.replicate (3 + (bits "01101100").length + 2) .engine ++ [] := by
  decide

theorem witness_DecodeStepWalksTheTree :
    (∀ q ∈ [DecodeProgress.start, .emitted, .got treeB4 (.bit false),
        .got (.branch (.leaf eof) (.leaf 65)) (.bit true), .got (.branch (.leaf eof) (.leaf 65)) (.bit false)],
      (engineNow (blockAt (.decode q) 6 (some treeB4)) streams).env.turn = .engine ∧
      (blockAt (.decode q) 6 (some treeB4)).abortReq = false ∧
      (blockAt (.decode q) 6 (some treeB4)).tree = some treeB4 ∧
      (blockAt (.decode q) 6 (some treeB4)).seq = .decode q) ∧
    streams.bitIn = .bit true :: [.eod] ∧ treeB4.isBranch = true ∧
    treeB4.child? false = some treeB2 ∧ treeB2.isBranch = true ∧ streams.byteRoom = 1 + 1 ∧
    treeB2.child? true = some (.leaf 65) ∧ (65 : Sym) ≠ eof ∧ treeB2.child? false = some (.leaf eof) ∧
    treeB1 = .leaf eof := by decide

theorem witness_DecodeReportsATruncatedStream :
    (engineNow (blockAt (.decode (.got treeB4 .eod)) 6 (some treeB4)) streams).env.turn = .engine ∧
    (blockAt (.decode (.got treeB4 .eod)) 6 (some treeB4)).tree = some treeB4 ∧
    (blockAt (.decode (.got treeB4 .eod)) 6 (some treeB4)).seq = .decode (.got treeB4 .eod) := by decide

/-- V-D7; V-D1, whose payload is empty. -/
theorem witness_DecodeRecoversTheMessage :
    treeB4.payload [65, 66, 67] = some (bits "01101100") ∧ treeB1.payload [] = some [] ∧
    (blockAt (.decode .start) 6 (some treeB4)).tree = some treeB4 ∧
    (blockAt (.decode .start) 6 (some treeB4)).seq = .decode .start ∧
    (blockAt (.decode .start) 6 (some treeB4)).abortReq = false ∧
    (bits "011011001111").map BitItem.bit ++ [.eod]
      = (bits "01101100").map .bit ++ ((bits "1111").map .bit ++ [.eod]) ∧
    List.replicate 12 AgentStep.engine = List.replicate (3 + (bits "01101100").length + 1) .engine ++ [] := by
  decide

theorem witness_EveryStepKeepsTheInvariant :
    ∃ s t : State, Inv s ∧ step s = .next t :=
  ⟨⟨blockAt (.readHeader ReadProgress.start) 4 none, { streams with schedule := [.engine] }⟩, _,
    inv_readStart _ false, rfl⟩

theorem witness_NoStepOfAGoodStateStops :
    Inv ⟨blockAt (.readHeader ReadProgress.start) 4 none, { streams with schedule := [.engine] }⟩ :=
  inv_readStart _ false

end Sys2Proof.Tests
end

section
/-! PROOFS. The register window: what a host read of a register comes to, and the registers'
values (10_state.md R31 to R49, R57, R59). -/

namespace Sys2Proof.Proofs

open Sys2Proof Sys2Proof.Machine Sys2Proof.Safety Sys2Proof.Laws

/-! ### Reads of a register -/

/-- The register `r` is the one at the aligned offset `off` of the window (R32). -/
abbrev StandsAt (r : Reg) (off : Nat) : Prop :=
  off < 2048 ∧ (BitVec.ofNat 11 off).extractLsb' 0 2 = 0 ∧ regAt (BitVec.ofNat 11 off) = r

theorem freq_standsAt {v : Nat} (hv : v < 256) :
    StandsAt (.freq (BitVec.ofNat 8 v)) (0x400 + 4 * v) := by
  refine ⟨by omega, ?_, regAt_freq hv⟩
  apply BitVec.eq_of_toNat_eq
  simp

theorem codeBits_standsAt {k : Nat} (hk : k < 8) :
    StandsAt (.codeBits ⟨k, hk⟩) (0x040 + 4 * k) := by
  refine ⟨by omega, ?_, regAt_codeBits hk⟩
  apply BitVec.eq_of_toNat_eq
  simp

section
variable {s : State} {r : Reg} {off : Nat} {rest : List AgentStep}

/-- A read of any register is the host's read of that register, FREQ_v included (R81, R142). -/
theorem step_read (hr : StandsAt r off) (h : accessNext s off .read rest) :
    step s = .next (hostReadReg r ⟨s.blk, hostTurn s.env rest⟩) := by
  obtain ⟨hoff, halign, hreg⟩ := hr
  rw [step_access h hoff]
  cases r <;> simp [decode, halign, hreg, decodeReg, plainAccess, exec, execRdFreq]

/-- A register with a specified value returns it, and nothing else changes (R95). -/
theorem step_read_exact {w : Word} (hr : StandsAt r off) (h : accessNext s off .read rest)
    (hw : s.blk.readReg r = some w) : step s = .next (readReturned s rest w) := by
  rw [step_read hr h, hostReadReg, hw]
  rfl

/-- A register with an unspecified value returns the next free value (R57). -/
theorem step_read_free (hr : StandsAt r off) (h : accessNext s off .read rest)
    (hw : s.blk.readReg r = none) : step s = .next (readDrawn s rest) := by
  rw [step_read hr h, hostReadReg, hw]
  rfl

end

@[simp] theorem whenIdle_of_idle {b : Block} (w : Word) (h : b.seq = .idle) :
    b.whenIdle w = some w := by
  simp [Block.whenIdle, (busy_eq_false b).2 h]

@[simp] theorem whenIdle_of_busy {b : Block} (w : Word) (h : b.seq ≠ .idle) :
    b.whenIdle w = none := by
  simp [Block.whenIdle, (busy_eq_true b).2 h]

/-- Settles O7: ID is at offset 0 and read-only. -/
theorem idReadsItsConstant : Obligations.IdReadsItsConstant := by
  intro s rest
  refine ⟨fun h => step_read_exact (r := .id) (by decide) h rfl, fun w h => ?_⟩
  rw [step_access h (by decide)]
  have hdec : decode ⟨BitVec.ofNat 11 0, .write w⟩ = .other (.ignoredWrite .id) := rfl
  simp only [hdec, plainAccess]

/-- Settles O9. -/
theorem controlRegistersReadExactly : Obligations.ControlRegistersReadExactly := by
  intro s rest
  refine ⟨fun h => step_read_exact (r := .ctrl) (by decide) h rfl,
    fun h => step_read_exact (r := .cmd) (by decide) h rfl,
    fun h => ⟨s.blk.codeSel.setWidth 32,
      step_read_exact (r := .codeSel) (by decide) h rfl, ?_, ?_⟩⟩
  · apply BitVec.eq_of_toNat_eq
    simpa using s.blk.codeSel.isLt
  · ext i hi
    simp

/-- Every register that R57 leaves open while a command runs is one whose value is exact only when
the engine is IDLE. -/
theorem unspecifiedWhileBusy_standsAt {off : Nat} (h : unspecifiedWhileBusy off) :
    ∃ r, StandsAt r off ∧ ∀ b : Block, b.seq ≠ .idle → b.readReg r = none := by
  rcases h with h | ⟨k, hk, rfl⟩ | ⟨v, hv, rfl⟩
  · have hlist : ∀ off ∈ [0x010, 0x014, 0x018, 0x01C, 0x020, 0x024, 0x02C],
        ∃ r ∈ [Reg.errInfo, .bitsIn, .bitsOut, .bytesIn, .bytesOut, .leaves, .codeLen],
          StandsAt r off := by decide
    obtain ⟨r, hr, hat⟩ := hlist off h
    refine ⟨r, hat, fun b hb => ?_⟩
    simp only [List.mem_cons, List.not_mem_nil, or_false] at hr
    rcases hr with rfl | rfl | rfl | rfl | rfl | rfl | rfl <;> exact whenIdle_of_busy _ hb
  · exact ⟨_, codeBits_standsAt hk, fun b hb => whenIdle_of_busy _ hb⟩
  · exact ⟨_, freq_standsAt hv, fun b hb => whenIdle_of_busy _ hb⟩

/-- Settles O10. -/
theorem busyReadsReturnAFreeValue : Obligations.BusyReadsReturnAFreeValue := by
  intro s off rest hbusy hoff h
  obtain ⟨r, hat, hnone⟩ := unspecifiedWhileBusy_standsAt hoff
  exact step_read_free hat h (hnone _ hbusy)

/-- Settles O11. -/
theorem idleReadsReturnTheRegister : Obligations.IdleReadsReturnTheRegister := by
  intro s rest hidle
  refine ⟨fun h => step_read_exact (r := .errInfo) (by decide) h (whenIdle_of_idle _ hidle),
    fun h => step_read_exact (r := .bitsIn) (by decide) h (whenIdle_of_idle _ hidle),
    fun h => step_read_exact (r := .bitsOut) (by decide) h (whenIdle_of_idle _ hidle),
    fun h => step_read_exact (r := .bytesIn) (by decide) h (whenIdle_of_idle _ hidle),
    fun h => step_read_exact (r := .bytesOut) (by decide) h (whenIdle_of_idle _ hidle),
    fun v hv h => step_read_exact (freq_standsAt hv) h ?_⟩
  have hfreq : s.blk.freqAt (BitVec.ofNat 8 v) = s.blk.freq[v] := by
    simp [Block.freqAt, Nat.mod_eq_of_lt hv]
  exact (whenIdle_of_idle _ hidle).trans (congrArg some hfreq)

/-! ### STATUS (R34) -/

/-- The single-bit fields of STATUS, bits 4:0. -/
theorem statusWord_flags (b : Block) :
    b.statusWord.getLsbD 0 = b.busy ∧ b.statusWord.getLsbD 1 = b.done ∧
    b.statusWord.getLsbD 2 = b.err ∧ b.statusWord.getLsbD 3 = b.treeValid ∧
    b.statusWord.getLsbD 4 = b.overrun := by
  unfold Block.statusWord
  simp only [BitVec.getLsbD_append]
  simp

/-- The fields of STATUS above bit 4: ERRCODE in 11:8, LAST_OP in 19:16, zeros elsewhere. -/
theorem statusWord_fields (b : Block) :
    b.statusWord.extractLsb' 5 3 = 0 ∧ b.statusWord.extractLsb' 8 4 = b.errCode.code ∧
    b.statusWord.extractLsb' 12 4 = 0 ∧ b.statusWord.extractLsb' 16 4 = b.lastOp ∧
    b.statusWord.extractLsb' 20 12 = 0 := by
  unfold Block.statusWord
  simp (disch := decide) only [BitVec.extractLsb'_append_eq_of_le]
  exact ⟨BitVec.extractLsb'_append_eq_right, BitVec.extractLsb'_append_eq_right,
    BitVec.extractLsb'_append_eq_right, BitVec.extractLsb'_append_eq_right, rfl⟩

/-- Settles O8: a read of STATUS returns `statusWord`, whose fields are the state's. -/
theorem statusReadShowsEveryField : Obligations.StatusReadShowsEveryField := by
  intro s rest h
  obtain ⟨hbusy, hdone, herr, htree, hoverrun⟩ := statusWord_flags s.blk
  exact ⟨s.blk.statusWord, step_read_exact (r := .status) (by decide) h rfl,
    hbusy ▸ busy_eq_true s.blk, hdone, herr, htree, hoverrun, statusWord_fields s.blk⟩

/-! ### Codes of a valid tree (R38) -/

/-- A valid tree has at most 257 leaves, so no code is longer than 256 bits. -/
theorem codeOf_length_le_256 {t : Tree} (ht : t.Valid) {sym : Sym} {code : Bits}
    (h : t.codeOf sym = some code) : code.length ≤ 256 := by
  have hbranches := codeOf_length_le t sym code h
  have hleaves := leaves_length_le t ht.2
  rw [leaves_length] at hleaves
  omega

/-- The codes of two symbols part at the branch below which the symbols lie on different sides, so
neither begins with the other. -/
theorem codeOf_not_isPrefix (t : Tree) {a b : Sym} (hab : a ≠ b) :
    ∀ {ca cb : Bits}, t.codeOf a = some ca → t.codeOf b = some cb → ¬ ca <+: cb := by
  induction t with
  | leaf s =>
    intro ca cb ha hb
    simp only [codeOf_leaf, Option.ite_none_right_eq_some] at ha hb
    exact absurd (ha.1.trans hb.1.symm) hab
  | branch l r ihl ihr =>
    intro ca cb ha hb
    rw [codeOf_branch] at ha hb
    have onRight {x : Sym} {c : Bits} (hx : l.codeOf x = none)
        (hc : ((l.codeOf x).map (false :: ·)).or ((r.codeOf x).map (true :: ·)) = some c) :
        ∃ d, r.codeOf x = some d ∧ true :: d = c := by simpa [hx] using hc
    cases hla : l.codeOf a with
    | some da =>
      obtain rfl : false :: da = ca := by simpa [hla] using ha
      cases hlb : l.codeOf b with
      | some db =>
        obtain rfl : false :: db = cb := by simpa [hlb] using hb
        simpa using ihl hla hlb
      | none =>
        obtain ⟨db, -, rfl⟩ := onRight hlb hb
        simp
    | none =>
      obtain ⟨da, hra, rfl⟩ := onRight hla ha
      cases hlb : l.codeOf b with
      | some db =>
        obtain rfl : false :: db = cb := by simpa [hlb] using hb
        simp
      | none =>
        obtain ⟨db, hrb, rfl⟩ := onRight hlb hb
        simpa using ihr hra hrb

/-- Settles O37: that codes never begin with one another needs no validity; the length does. -/
theorem codesArePrefixFreeAndShort : Obligations.CodesArePrefixFreeAndShort :=
  fun t ht => ⟨fun _ _ _ _ ha hb hab => codeOf_not_isPrefix t hab ha hb,
    fun _ _ h => codeOf_length_le_256 ht h⟩

/-! ### The code table's readout (R41 to R45) -/

theorem selectedCode_of_sym {b : Block} {t : Tree} {sym : Sym} (ht : b.tree = some t)
    (hsel : b.codeSel.toNat = sym.val) : b.selectedCode = t.codeOf sym := by
  have hlt : b.codeSel.toNat < 257 := hsel ▸ sym.isLt
  have hsym : (⟨b.codeSel.toNat, hlt⟩ : Sym) = sym := Fin.ext hsel
  simp [Block.selectedCode, hlt, ht, hsym]

/-- CODE_SEL selects no code without a tree, from 257 on, and for a symbol that is not mapped. -/
theorem selectedCode_eq_none {b : Block}
    (h : b.tree = none ∨ 257 ≤ b.codeSel.toNat ∨ ∃ (t : Tree) (sym : Sym),
      b.tree = some t ∧ b.codeSel.toNat = sym.val ∧ t.codeOf sym = none) :
    b.selectedCode = none := by
  rcases h with hnone | hbig | ⟨t, sym, ht, hsel, hunmapped⟩
  · simp [Block.selectedCode, hnone]
  · simp [Block.selectedCode, Nat.not_lt.2 hbig]
  · rw [selectedCode_of_sym ht hsel, hunmapped]

theorem codeLenWord_of_none {b : Block} (h : b.selectedCode = none) : b.codeLenWord = 0 := by
  rw [Block.codeLenWord, h]

theorem codeBitsReg_of_none {b : Block} (k : Fin 8) (h : b.selectedCode = none) :
    b.codeBitsReg k = 0 := by
  rw [Block.codeBitsReg, h]

theorem codeBitsReg_of_some {b : Block} {code : Bits} (k : Fin 8)
    (h : b.selectedCode = some code) : b.codeBitsReg k = codeBitsWord code k.val := by
  rw [Block.codeBitsReg, h]

/-- The fields of CODE_LEN for a code whose length fits in the nine bits of LEN (R43). -/
theorem codeLenWord_fields {b : Block} {code : Bits} (h : b.selectedCode = some code)
    (hlen : code.length < 512) :
    b.codeLenWord.getLsbD 31 = true ∧ (b.codeLenWord.extractLsb' 0 9).toNat = code.length ∧
    b.codeLenWord.extractLsb' 9 22 = 0 := by
  rw [Block.codeLenWord, h]
  refine ⟨?_, ?_, ?_⟩
  · simp only [BitVec.getLsbD_append]
    simp
  · rw [BitVec.extractLsb'_append_eq_right, BitVec.toNat_ofNat, Nat.mod_eq_of_lt hlen]
  · rw [BitVec.extractLsb'_append_eq_of_le (by decide)]
    exact BitVec.extractLsb'_append_eq_right

/-- Bit `j` of CODE_BITS_k is code bit `32k + j`, and 0 past the code's end (R44). -/
theorem codeBitsWord_getLsbD (code : Bits) (k : Nat) {j : Nat} (hj : j < 32) :
    (codeBitsWord code k).getLsbD j = (code[32 * k + j]?).getD false := by
  rw [codeBitsWord, BitVec.getLsbD_ofNat, valueLE_testBit, List.getElem?_take, List.getElem?_drop]
  simp [hj]

section
variable {s : State} {rest : List AgentStep}

theorem step_read_codeLen (hidle : s.blk.seq = .idle) (h : accessNext s 0x02C .read rest) :
    step s = .next (readReturned s rest s.blk.codeLenWord) :=
  step_read_exact (r := .codeLen) (by decide) h (whenIdle_of_idle _ hidle)

theorem step_read_codeBits {k : Nat} (hk : k < 8) (hidle : s.blk.seq = .idle)
    (h : accessNext s (0x040 + 4 * k) .read rest) :
    step s = .next (readReturned s rest (s.blk.codeBitsReg ⟨k, hk⟩)) :=
  step_read_exact (codeBits_standsAt hk) h (whenIdle_of_idle _ hidle)

end

/-- Settles O15: both registers are views of the selected code. -/
theorem codeTableReadoutShowsTheCode : Obligations.CodeTableReadoutShowsTheCode := by
  intro s rest hidle
  constructor
  · intro t sym code ht hvalid hsel hcode
    have hselected : s.blk.selectedCode = some code := (selectedCode_of_sym ht hsel).trans hcode
    have hlen := codeOf_length_le_256 hvalid hcode
    refine ⟨fun h => ⟨_, step_read_codeLen hidle h, codeLenWord_fields hselected (by omega)⟩,
      fun k hk h => ⟨_, step_read_codeBits hk hidle h, fun j hj => ?_⟩⟩
    rw [codeBitsReg_of_some _ hselected, codeBitsWord_getLsbD _ _ hj]
  · intro hunselected
    have hnone := selectedCode_eq_none hunselected
    exact ⟨fun h => codeLenWord_of_none hnone ▸ step_read_codeLen hidle h,
      fun k hk h => codeBitsReg_of_none ⟨k, hk⟩ hnone ▸ step_read_codeBits hk hidle h⟩

/-- Settles O16. -/
theorem leavesRegisterCountsTheLeaves : Obligations.LeavesRegisterCountsTheLeaves := by
  intro s rest hidle h
  have hread : step s = .next (readReturned s rest s.blk.leavesWord) :=
    step_read_exact (r := .leaves) (by decide) h (whenIdle_of_idle _ hidle)
  constructor
  · intro t ht hvalid
    have hpos : 1 ≤ t.leaves.length := List.length_pos_iff.2 (leaves_ne_nil t)
    have hmax := leaves_length_le t hvalid.2
    have hcount : s.blk.leavesWord.toNat = t.leaves.length := by
      simp only [Block.leavesWord, ht, BitVec.toNat_ofNat]
      omega
    exact ⟨_, hread, hcount, by omega, by omega⟩
  · intro hnone
    have hzero : s.blk.leavesWord = 0 := by rw [Block.leavesWord, hnone]
    exact hzero ▸ hread

/-! ### Reset (R59) -/

/-- After reset every register reads 0 but ID. -/
theorem reset_readReg (r : Reg) :
    Block.reset.readReg r = some (if r = .id then 0x48554631 else 0) := by
  cases r with
  | freq v =>
    have hzero : Block.reset.freqAt v = 0 := by simp [Block.freqAt, Block.reset]
    exact congrArg some hzero
  | _ => rfl

/-- ID is the register at offset 0 alone (R32). -/
theorem regAt_eq_id_iff : ∀ k < 512, regAt (BitVec.ofNat 11 (4 * k)) = .id ↔ k = 0 := by
  decide +kernel

/-- Settles O17. -/
theorem resetLeavesTheResetValues : Obligations.ResetLeavesTheResetValues := by
  refine ⟨fun k hk => ?_, rfl, rfl, rfl⟩
  simp only [State.reset, reset_readReg, regAt_eq_id_iff k hk]

/-- Settles O58: no command runs, no error is recorded and there is no tree. -/
theorem invariantHoldsAfterReset : Obligations.InvariantHoldsAfterReset where
  tree_valid := by simp [State.reset, Block.reset]
  err_code := by simp [State.reset, Block.reset]
  busy_not_done := fun _ => rfl
  not_done_no_error := fun _ => ⟨rfl, rfl⟩
  abort_busy := by simp [State.reset, Block.reset]
  progress := trivial

end Sys2Proof.Proofs
end

section
/-! PROOFS. What a step of each agent can do, said once: a host operation on the host's turn, the
running command's engine step, and the whole step. -/

namespace Sys2Proof.Proofs

open Sys2Proof Sys2Proof.Machine Sys2Proof.Safety Sys2Proof.Laws

/-! ### The host's operations -/

/-- What operation `i` of the host can make of the state `s`. -/
inductive HostEffect (i : Instr) (s : State) : State → Prop
  /-- A read, or an abort request that finds no running command or has bit 0 = 0. -/
  | same {t : State} (blk : t.blk = s.blk) : HostEffect i s t
  /-- A write that the running command drops (R84). -/
  | dropped (busy : s.blk.seq ≠ .idle) : HostEffect i s (dropWrite s)
  /-- A command word, accepted while BUSY = 0 (R241). -/
  | accepted (w : Word) (idle : s.blk.seq = .idle) (word : encode i = ⟨0x008, .write w⟩) :
      HostEffect i s (acceptCommand w s)
  /-- SETF while BUSY = 0 (R141). -/
  | counted (v : BitVec 8) (n : Word) (idle : s.blk.seq = .idle) (instr : i = .setf v n) :
      HostEffect i s { s with blk := s.blk.setFreq v n }
  /-- WR CODE_SEL while BUSY = 0 (R150). -/
  | selected (data : Word) (idle : s.blk.seq = .idle) (instr : i = .wrCodeSel data) :
      HostEffect i s { s with blk := { s.blk with codeSel := data.extractLsb' 0 9 } }
  /-- ABORT while a command runs (R246). -/
  | aborting (data : Word) (busy : s.blk.seq ≠ .idle) (instr : i = .abort data) :
      HostEffect i s { s with blk := { s.blk with abortReq := true } }

/-- On the host's turn a command is the write of its word to CMD (R241). -/
theorem hostEffect_of_command {i : Instr} {w : Word} {engine : State → Result} {s t : State}
    (hturn : s.env.turn = .host) (hword : encode i = ⟨0x008, .write w⟩)
    (h : commandStep w engine s = .next t) : HostEffect i s t := by
  simp only [commandStep, hturn, Host.Outcome.next.injEq] at h
  subst h
  rcases writeWhenIdle_cases (acceptCommand w) s with ⟨hbusy, e⟩ | ⟨hidle, e⟩
  · exact (show writeCmd w s = _ from e) ▸ .dropped hbusy
  · exact (show writeCmd w s = _ from e) ▸ .accepted w hidle hword

theorem exec_hostEffect {i : Instr} {s t : State} (hturn : s.env.turn = .host)
    (h : exec i s = .next t) : HostEffect i s t := by
  cases i with
  | setf v n =>
    simp only [exec, execSetf, Host.Outcome.next.injEq] at h
    subst h
    rcases writeWhenIdle_cases (fun s => { s with blk := s.blk.setFreq v n }) s with
      ⟨hbusy, e⟩ | ⟨hidle, e⟩ <;> rw [e]
    · exact .dropped hbusy
    · exact .counted v n hidle rfl
  | wrCodeSel data =>
    simp only [exec, execWrCodeSel, Host.Outcome.next.injEq] at h
    subst h
    rcases writeWhenIdle_cases
      (fun s => { s with blk := { s.blk with codeSel := data.extractLsb' 0 9 } }) s with
      ⟨hbusy, e⟩ | ⟨hidle, e⟩ <;> rw [e]
    · exact .dropped hbusy
    · exact .selected data hidle rfl
  | rdFreq v =>
    simp only [exec, execRdFreq, Host.Outcome.next.injEq] at h
    exact .same (h ▸ hostReadReg_blk _ _)
  | abort data =>
    simp only [exec, execAbort, Host.Outcome.next.injEq] at h
    subst h
    split
    · next hreq => exact .aborting data ((busy_eq_true _).1 (Bool.and_eq_true_iff.1 hreq).2) rfl
    · exact .same rfl
  | _ => exact hostEffect_of_command hturn rfl h

/-! ### The engine's steps -/

/-- The node at the top of DECODE's loop: the root at the first step, and after a bit the child of
the cursor that it selects (R222). -/
def DecodeCursor (root : Tree) : DecodeProgress → Tree → Prop
  | .start, cur => cur = root
  | .got prev (.bit b), cur => prev.child? b = some cur
  | .got _ .eod, _ => False
  | .emitted, _ => False

/-- What the engine's step of the running command can make of the state `s` (R242). -/
inductive EngineEffect (s : State) : State → Prop
  /-- The command's own rule ends it: with success, or with an error (R243, R262). -/
  | ended (e : ErrorCode) (info : Word) (now : endsNow s.blk) :
      EngineEffect s (endCommand e info s)
  /-- CLEAR_FREQ (R143). -/
  | cleared (seq : s.blk.seq = .clearFreq) :
      EngineEffect s (finish { s with blk := { s.blk with freq := Vector.replicate 256 0 } })
  /-- BUILD (R146). -/
  | built (seq : s.blk.seq = .build) :
      EngineEffect s (finish { s with blk := { s.blk with tree := some (buildTree s.blk.freq) } })
  /-- An illegal command whose word is a legal one, which no acceptance leaves: nothing happens. -/
  | stuck (w : Word) (seq : s.blk.seq = .illegal w) : EngineEffect s s
  /-- WRITE_HEADER sends the next bit (R170). -/
  | headerBit (pos : Nat) (t : Tree) (b : Bool) (seq : s.blk.seq = .writeHeader pos)
      (tree : s.blk.tree = some t) (bit : t.hdr[pos]? = some b) :
      EngineEffect s (outBit b (.writeHeader (pos + 1)) s)
  /-- READ_HEADER reads its next item, having none to work on (R176). -/
  | readFirst (p : ReadProgress) (seq : s.blk.seq = .readHeader p) (pending : p.pending = none) :
      EngineEffect s (readHeaderInBit p s)
  /-- READ_HEADER works on its item and reads the next one (R176). -/
  | readNext (p q : ReadProgress) (it : BitItem) (seq : s.blk.seq = .readHeader p)
      (pending : p.pending = some it) (more : readItem p it = .more q) :
      EngineEffect s (readHeaderInBit q s)
  /-- READ_HEADER stores the whole tree (R176). -/
  | readWhole (p : ReadProgress) (it : BitItem) (t : Tree) (seen : List Sym)
      (seq : s.blk.seq = .readHeader p) (pending : p.pending = some it)
      (complete : readItem p it = .complete t seen) (hasEof : eof ∈ seen) :
      EngineEffect s (finish { s with blk := { s.blk with tree := some t } })
  /-- ENCODE reads the next item (R201). -/
  | encodeRead (p : EncodeProgress) (t : Tree) (seq : s.blk.seq = .encode p)
      (tree : s.blk.tree = some t) : EngineEffect s (encodeInByte s)
  /-- ENCODE sends bit `index` of a code (R201). -/
  | encodeBit (p : EncodeProgress) (t : Tree) (sym : Sym) (code : Bits) (index : Nat) (b : Bool)
      (seq : s.blk.seq = .encode p) (tree : s.blk.tree = some t) (mapped : t.codeOf sym = some code)
      (bit : code[index]? = some b) :
      EngineEffect s (outBit b (.encode (.send sym (index + 1))) s)
  /-- DECODE goes back to the root after a byte and reads the next bit (R222). -/
  | decodeRoot (t : Tree) (seq : s.blk.seq = .decode .emitted) (tree : s.blk.tree = some t) :
      EngineEffect s (decodeInBit t s)
  /-- DECODE reads the next bit with the cursor at a branch (R222). -/
  | decodeRead (p : DecodeProgress) (t cur : Tree) (seq : s.blk.seq = .decode p)
      (tree : s.blk.tree = some t) (cursor : DecodeCursor t p cur) (branch : cur.isBranch = true) :
      EngineEffect s (decodeInBit cur s)
  /-- DECODE sends the byte of the leaf it has reached (R223). -/
  | decodeByte (p : DecodeProgress) (t : Tree) (sym : Sym) (seq : s.blk.seq = .decode p)
      (tree : s.blk.tree = some t) (cursor : DecodeCursor t p (.leaf sym)) (notEof : sym ≠ eof) :
      EngineEffect s (outByte (byteOfSym sym) (.decode .emitted) s)

section
variable {s t : State}

theorem engineWriteHeader_effect {pos : Nat} (hseq : s.blk.seq = .writeHeader pos)
    (h : engineWriteHeader s = .next t) : EngineEffect s t := by
  simp only [engineWriteHeader, hseq] at h
  cases htree : s.blk.tree with
  | none =>
    simp only [htree] at h
    split at h <;> cases h
    exact .ended _ _ (by simp [endsNow, hseq, htree])
  | some tr =>
    simp only [htree] at h
    cases hbit : tr.hdr[pos]? with
    | some b =>
      simp only [hbit] at h
      cases h
      exact .headerBit pos tr b hseq htree hbit
    | none =>
      simp only [hbit] at h
      cases h
      exact .ended _ _ (by simpa [endsNow, hseq, htree] using hbit)

theorem engineReadHeader_effect {p : ReadProgress} (hseq : s.blk.seq = .readHeader p)
    (h : engineReadHeader s = .next t) : EngineEffect s t := by
  simp only [engineReadHeader, hseq] at h
  cases hpend : p.pending with
  | none =>
    simp only [hpend] at h
    cases h
    exact .readFirst p hseq hpend
  | some it =>
    simp only [hpend] at h
    cases hitem : readItem p it with
    | more q =>
      simp only [hitem] at h
      cases h
      exact .readNext p q it hseq hpend hitem
    | complete tr seen =>
      simp only [hitem] at h
      cases h
      by_cases heof : eof ∈ seen
      · rw [readHeaderEnd, if_pos heof]
        exact .readWhole p it tr seen hseq hpend hitem heof
      · rw [readHeaderEnd, if_neg heof]
        exact .ended _ _ (by simp [endsNow, hseq, hpend, hitem])
    | bad e info =>
      simp only [hitem] at h
      cases h
      exact .ended _ _ (by simp [endsNow, hseq, hpend, hitem])

/-- Sending a code is its next bit, or at its end the end of the command (EOF) or the next item. -/
theorem encodeSend_effect {p : EncodeProgress} {tr : Tree} {sym : Sym} {index : Nat}
    (hseq : s.blk.seq = .encode p) (htree : s.blk.tree = some tr)
    (hend : ∀ code, sym = eof → tr.codeOf eof = some code → code.length ≤ index → endsNow s.blk)
    (h : encodeSend tr sym index s = .next t) : EngineEffect s t := by
  cases hcode : tr.codeOf sym with
  | none => simp [encodeSend, hcode] at h
  | some code =>
    cases hbit : code[index]? with
    | some b =>
      simp only [encodeSend, hcode, hbit] at h
      cases h
      exact .encodeBit p tr sym code index b hseq htree hcode hbit
    | none =>
      simp only [encodeSend, hcode, hbit] at h
      split at h <;> cases h
      · next heof =>
        exact .ended _ _ (hend code heof (heof ▸ hcode) (List.getElem?_eq_none_iff.1 hbit))
      · exact .encodeRead p tr hseq htree

theorem symOfByte_ne_eof (v : Byte) : symOfByte v ≠ eof := by
  revert v
  decide

theorem engineEncode_effect {p : EncodeProgress} (hseq : s.blk.seq = .encode p)
    (h : engineEncode s = .next t) : EngineEffect s t := by
  simp only [engineEncode, hseq] at h
  cases htree : s.blk.tree with
  | none =>
    simp only [htree] at h
    split at h <;> cases h
    exact .ended _ _ (by simp [endsNow, hseq, htree])
  | some tr =>
    simp only [htree] at h
    cases p with
    | start =>
      cases h
      exact .encodeRead _ tr hseq htree
    | got item =>
      cases item with
      | byte v =>
        cases hcode : tr.codeOf (symOfByte v) with
        | none =>
          simp only [encodeByte, hcode] at h
          cases h
          exact .ended _ _ (by simp [endsNow, hseq, htree, hcode])
        | some code =>
          simp only [encodeByte, hcode] at h
          exact encodeSend_effect hseq htree (fun _ heof => absurd heof (symOfByte_ne_eof v)) h
      | endOfMessage =>
        refine encodeSend_effect hseq htree (fun code _ hcode hlen => ?_) h
        have hnil : code = [] := List.length_eq_zero_iff.1 (Nat.le_zero.1 hlen)
        simp [endsNow, hseq, htree, hcode, hnil]
    | send sym index =>
      exact encodeSend_effect hseq htree
        (fun code heof hcode hlen => (endsNow_encode_send hseq htree).2 ⟨heof, code, hcode, hlen⟩) h

/-- The top of DECODE's loop is the end (EOF leaf), a byte (another leaf) or a read (branch). -/
theorem decodeAt_effect {p : DecodeProgress} {tr cur : Tree} (hseq : s.blk.seq = .decode p)
    (htree : s.blk.tree = some tr) (hcur : DecodeCursor tr p cur)
    (hend : cur = .leaf eof → endsNow s.blk) : EngineEffect s (decodeAt cur s) := by
  cases cur with
  | leaf sym =>
    by_cases heof : sym = eof
    · rw [decodeAt, if_pos heof]
      exact .ended _ _ (hend (heof ▸ rfl))
    · rw [decodeAt, if_neg heof]
      exact .decodeByte p tr sym hseq htree hcur heof
  | branch l r => exact .decodeRead p tr _ hseq htree hcur rfl

theorem engineDecode_effect {p : DecodeProgress} (hseq : s.blk.seq = .decode p)
    (h : engineDecode s = .next t) : EngineEffect s t := by
  simp only [engineDecode, hseq] at h
  cases htree : s.blk.tree with
  | none =>
    simp only [htree] at h
    split at h <;> cases h
    exact .ended _ _ (by simp [endsNow, hseq, htree])
  | some tr =>
    simp only [htree] at h
    cases p with
    | start =>
      cases h
      exact decodeAt_effect hseq htree rfl (fun heof => by simp [endsNow, hseq, htree, heof])
    | emitted =>
      cases h
      exact .decodeRoot tr hseq htree
    | got prev item =>
      cases item with
      | eod =>
        cases h
        exact .ended _ _ (by simp [endsNow, hseq, htree])
      | bit b =>
        cases hchild : prev.child? b with
        | none => simp [hchild] at h
        | some next =>
          simp only [hchild] at h
          cases h
          exact decodeAt_effect hseq htree hchild
            (fun heof => (endsNow_decode_bit hseq htree).2 (heof ▸ hchild))

/-- On the engine's turn a command's step is the engine's (R242). -/
theorem commandStep_engine (w : Word) (engine : State → Result) (hturn : s.env.turn = .engine) :
    commandStep w engine s = engine s := by
  rw [commandStep, hturn]

theorem engine_of_commandStep {w : Word} {engine : State → Result} (hturn : s.env.turn = .engine)
    (h : commandStep w engine s = .next t) : engine s = .next t :=
  (commandStep_engine w engine hturn).symm.trans h

/-- An illegal command reports its word; were the word a legal one, nothing would happen, since the
legal command's meaning does not find itself in `seq`. -/
theorem exec_illegal_effect {w : Word} (hturn : s.env.turn = .engine)
    (hseq : s.blk.seq = .illegal w) (h : exec (decodeCommand w) s = .next t) :
    EngineEffect s t := by
  have hreport : isIllegal (decodeCommand w) = true → engineIllegal s = .next t →
      EngineEffect s t := by
    intro hill h
    simp only [engineIllegal, hseq] at h
    cases h
    exact .ended _ _ (by simpa [endsNow, hseq] using hill)
  rcases decodeCommand_is_command w with hword | ⟨low, hword⟩ | ⟨rsv, op, hword⟩
  · simp only [List.mem_cons, List.not_mem_nil, or_false] at hword
    rcases hword with hword | hword | hword | hword | hword | hword | hword | hword <;>
      rw [hword] at h
    case inr.inr.inr.inr.inr.inr.inr =>
      exact hreport (by rw [hword]; rfl) (engine_of_commandStep hturn h)
    all_goals
      simp only [exec, execNop, execClearFreq, execBuild, execWriteHeader, execReadHeader,
        execEncode, execDecode, commandStep_engine _ _ hturn, engineNop, engineClearFreq,
        engineBuild, engineWriteHeader, engineReadHeader, engineEncode, engineDecode, hseq] at h
      cases h
      exact .stuck w hseq
  · rw [hword] at h
    exact hreport (by rw [hword]; rfl) (engine_of_commandStep hturn h)
  · rw [hword] at h
    exact hreport (by rw [hword]; rfl) (engine_of_commandStep hturn h)

theorem exec_engineEffect {i : Instr} (hturn : s.env.turn = .engine)
    (hi : s.blk.seq.instr? = some i) (h : exec i s = .next t) : EngineEffect s t := by
  cases hseq : s.blk.seq with
  | idle => simp [hseq, Seq.instr?] at hi
  | nop =>
    obtain rfl : Instr.nop = i := by simpa [hseq, Seq.instr?] using hi
    have hstep := engine_of_commandStep hturn h
    simp only [engineNop, hseq] at hstep
    cases hstep
    exact .ended _ _ (by simp [endsNow, hseq])
  | clearFreq =>
    obtain rfl : Instr.clearFreq = i := by simpa [hseq, Seq.instr?] using hi
    have hstep := engine_of_commandStep hturn h
    simp only [engineClearFreq, hseq] at hstep
    cases hstep
    exact .cleared hseq
  | build =>
    obtain rfl : Instr.build = i := by simpa [hseq, Seq.instr?] using hi
    have hstep := engine_of_commandStep hturn h
    simp only [engineBuild, hseq] at hstep
    cases hstep
    exact .built hseq
  | writeHeader pos =>
    obtain rfl : Instr.writeHeader = i := by simpa [hseq, Seq.instr?] using hi
    exact engineWriteHeader_effect hseq (engine_of_commandStep hturn h)
  | readHeader p =>
    obtain rfl : Instr.readHeader = i := by simpa [hseq, Seq.instr?] using hi
    exact engineReadHeader_effect hseq (engine_of_commandStep hturn h)
  | encode p =>
    obtain rfl : Instr.encode = i := by simpa [hseq, Seq.instr?] using hi
    exact engineEncode_effect hseq (engine_of_commandStep hturn h)
  | decode p =>
    obtain rfl : Instr.decode = i := by simpa [hseq, Seq.instr?] using hi
    exact engineDecode_effect hseq (engine_of_commandStep hturn h)
  | illegal w =>
    obtain rfl : decodeCommand w = i := by simpa [hseq, Seq.instr?] using hi
    exact exec_illegal_effect hturn hseq h

end

/-! ### A step of the machine -/

/-- What a step of the machine can do: leave the block as it is, reset it, run an operation of the
host, or run a step of the engine. -/
theorem step_cases {s t : State} (h : step s = .next t) :
    t.blk = s.blk ∨
    (∃ rest, s.env.schedule = .reset :: rest ∧ t.blk = Block.reset) ∨
    (∃ a rest i, s.env.schedule = .host a :: rest ∧ decodeAccess s.env.huffBase a = .instr i ∧
      HostEffect i (beginTurn .host rest s) t) ∨
    (∃ rest, s.env.schedule = .engine :: rest ∧ EngineEffect (beginTurn .engine rest s) t) := by
  unfold step at h
  cases hsched : s.env.schedule with
  | nil =>
    simp only [hsched] at h
    cases h
    exact .inl rfl
  | cons agent rest =>
    simp only [hsched] at h
    cases agent with
    | host a =>
      cases hdec : decodeAccess s.env.huffBase a with
      | instr i =>
        simp only [hdec] at h
        exact .inr (.inr (.inl ⟨a, rest, i, rfl, hdec, exec_hostEffect rfl h⟩))
      | other why =>
        simp only [hdec] at h
        cases h
        exact .inl (plainAccess_blk _ _ _)
    | engine =>
      cases hi : s.blk.seq.instr? with
      | some i =>
        simp only [hi] at h
        exact .inr (.inr (.inr ⟨rest, rfl, exec_engineEffect rfl hi h⟩))
      | none =>
        simp only [hi] at h
        cases h
        exact .inl rfl
    | reset =>
      cases h
      exact .inr (.inl ⟨rest, rfl, rfl⟩)
    | _ =>
      cases h
      exact .inl rfl

/-! ### What a stream transaction leaves of the tree store and the FREQ file -/

/-- The tree store and the FREQ file of `t` are those of `s`. -/
structure KeepsStores (s t : State) : Prop where
  tree : t.blk.tree = s.blk.tree
  freq : t.blk.freq = s.blk.freq

section
variable (s : State)

theorem inBit_keepsStores (k : BitItem → Seq) : KeepsStores s (inBit k s) := by
  rcases inBit_cases k s with ⟨-, e⟩ | ⟨-, -, e⟩ | ⟨it, rest, -, -, e⟩ <;> rw [e] <;>
    exact ⟨rfl, rfl⟩

theorem inByte_keepsStores (k : ByteItem → Seq) : KeepsStores s (inByte k s) := by
  rcases inByte_cases k s with ⟨-, e⟩ | ⟨-, -, e⟩ | ⟨it, rest, -, -, e⟩ <;> rw [e] <;>
    exact ⟨rfl, rfl⟩

theorem outBit_keepsStores (b : Bool) (k : Seq) : KeepsStores s (outBit b k s) := by
  rcases outBit_cases b k s with ⟨-, e⟩ | ⟨-, -, e⟩ | ⟨room, -, -, e⟩ <;> rw [e] <;>
    exact ⟨rfl, rfl⟩

theorem outByte_keepsStores (v : Byte) (k : Seq) : KeepsStores s (outByte v k s) := by
  rcases outByte_cases v k s with ⟨-, e⟩ | ⟨-, -, e⟩ | ⟨room, -, -, e⟩ <;> rw [e] <;>
    exact ⟨rfl, rfl⟩

end

/-- The engine changes the tree store or the FREQ file only at the last step of BUILD, READ_HEADER
or CLEAR_FREQ (R40, R58). -/
theorem engineEffect_stores {s t : State} (h : EngineEffect s t) :
    KeepsStores s t ∨
    (s.blk.seq = .clearFreq ∧ t.blk.tree = s.blk.tree) ∨
    (s.blk.seq = .build ∧ t.blk.freq = s.blk.freq) ∨
    ((∃ p, s.blk.seq = .readHeader p) ∧ t.blk.seq = .idle ∧ t.blk.err = false ∧
      t.blk.freq = s.blk.freq) := by
  cases h with
  | ended e info => exact .inl ⟨rfl, rfl⟩
  | cleared hseq => exact .inr (.inl ⟨hseq, rfl⟩)
  | built hseq => exact .inr (.inr (.inl ⟨hseq, rfl⟩))
  | stuck => exact .inl ⟨rfl, rfl⟩
  | headerBit => exact .inl (outBit_keepsStores s _ _)
  | readFirst => exact .inl (inBit_keepsStores s _)
  | readNext => exact .inl (inBit_keepsStores s _)
  | readWhole p it tr seen hseq => exact .inr (.inr (.inr ⟨⟨p, hseq⟩, rfl, rfl, rfl⟩))
  | encodeRead => exact .inl (inByte_keepsStores s _)
  | encodeBit => exact .inl (outBit_keepsStores s _ _)
  | decodeRoot => exact .inl (inBit_keepsStores s _)
  | decodeRead => exact .inl (inBit_keepsStores s _)
  | decodeByte => exact .inl (outByte_keepsStores s _ _)

/-! ### What acceptance clears -/

theorem decodeCommand_wellFormed (w : Word) : (decodeCommand w).wellFormed = true := by
  unfold decodeCommand
  split
  · next hrsv => simpa [Instr.wellFormed] using hrsv
  · split <;> rfl

theorem decodeReg_wellFormed {r : Reg} {op : BusOp} {i : Instr} (h : decodeReg r op = .instr i) :
    i.wellFormed = true := by
  unfold decodeReg at h
  split at h <;> cases h
  · exact decodeCommand_wellFormed _
  all_goals rfl

/-- The bus decoder answers only operations of the hardware (R112). -/
theorem decodeAccess_wellFormed {base : Nat} {a : Access} {i : Instr}
    (h : decodeAccess base a = .instr i) : i.wellFormed = true := by
  unfold decodeAccess at h
  split at h
  · cases h
  · split at h
    · cases h
    · unfold decode at h
      split at h
      · cases h
      · exact decodeReg_wellFormed h

/-- Of the words of the operations only BUILD's and READ_HEADER's clear the tree (R58). -/
theorem clearsTree_word {i : Instr} {w : Word} (hwf : i.wellFormed = true)
    (hword : encode i = ⟨0x008, .write w⟩) (hclear : clearsTree w = true) :
    i = .build ∨ i = .readHeader := by
  cases i with
  | build => exact .inl rfl
  | readHeader => exact .inr rfl
  | illegalOp8F low =>
    obtain rfl : op8FWord low = w := by simpa [encode] using congrArg Txn.op hword
    exact absurd hclear (by revert low; decide)
  | illegalRsv rsv op =>
    obtain rfl : rsvWord rsv op = w := by simpa [encode] using congrArg Txn.op hword
    obtain ⟨hrsv, -⟩ : rsv = 0 ∧ (op = 2 ∨ op = 4) := by simpa [clearsTree] using hclear
    simp [Instr.wellFormed, hrsv] at hwf
  | setf v n =>
    have hoff : regOffset (.freq v) = 0x008 := congrArg Txn.offset hword
    have hreg := (regAt_freqOffset v).2
    rw [hoff] at hreg
    exact absurd hreg (by simp [regAt])
  | rdFreq v => exact absurd (congrArg Txn.op hword) (by simp [encode])
  | wrCodeSel | abort => cases hword
  | _ =>
    cases hword
    exact absurd hclear (by decide)

/-- Settles O34. -/
theorem onlyBuildReadHeaderAndResetChangeTheTree :
    Obligations.OnlyBuildReadHeaderAndResetChangeTheTree := by
  intro s t h hne
  rcases step_cases h with hsame | ⟨rest, hsched, -⟩ | ⟨a, rest, i, hsched, hdec, heff⟩ |
    ⟨rest, hsched, heff⟩
  · exact absurd (congrArg Block.tree hsame) hne
  · exact .inr (.inr (.inr ⟨rest, hsched⟩))
  · cases heff with
    | same hblk => exact absurd (congrArg Block.tree hblk) hne
    | dropped => exact absurd rfl hne
    | accepted w hidle hword =>
      by_cases hclear : clearsTree w = true
      · have hi := clearsTree_word (decodeAccess_wellFormed hdec) hword hclear
        refine .inl ⟨a, rest, hsched, hidle, if_pos hclear, ?_⟩
        rcases hi with rfl | rfl
        · exact .inl hdec
        · exact .inr hdec
      · exact absurd (by simp [hclear]) hne
    | counted => exact absurd rfl hne
    | selected => exact absurd rfl hne
    | aborting => exact absurd rfl hne
  · rcases engineEffect_stores heff with hkeep | ⟨-, htree⟩ | ⟨hseq, -⟩ | ⟨⟨p, hseq⟩, hidle, herr, -⟩
    · exact absurd hkeep.tree hne
    · exact absurd htree hne
    · exact .inr (.inl ⟨rest, hsched, hseq⟩)
    · exact .inr (.inr (.inl ⟨rest, p, hsched, hseq, hidle, herr⟩))

/-- Settles O35. -/
theorem onlySetfClearFreqAndResetChangeTheCounts :
    Obligations.OnlySetfClearFreqAndResetChangeTheCounts := by
  intro s t h hne
  rcases step_cases h with hsame | ⟨rest, hsched, -⟩ | ⟨a, rest, i, hsched, hdec, heff⟩ |
    ⟨rest, hsched, heff⟩
  · exact absurd (congrArg Block.freq hsame) hne
  · exact .inr (.inr ⟨rest, hsched⟩)
  · cases heff with
    | same hblk => exact absurd (congrArg Block.freq hblk) hne
    | dropped => exact absurd rfl hne
    | accepted => exact absurd rfl hne
    | counted v n hidle hi => exact .inl ⟨a, rest, v, n, hsched, hidle, hi ▸ hdec⟩
    | selected => exact absurd rfl hne
    | aborting => exact absurd rfl hne
  · rcases engineEffect_stores heff with hkeep | ⟨hseq, -⟩ | ⟨-, hfreq⟩ | ⟨-, -, -, hfreq⟩
    · exact absurd hkeep.freq hne
    · exact .inr (.inl ⟨rest, hsched, hseq⟩)
    · exact absurd hfreq hne
    · exact absurd hfreq hne

end Sys2Proof.Proofs
end


section
/-! PROOFS. The tree BUILD makes is a code tree (R36, R144, R148). -/

namespace Sys2Proof.Proofs

open Sys2Proof Sys2Proof.Machine Sys2Proof.Safety Sys2Proof.Laws

/-- The symbols `v`, `v + 1`, … whose counts are not 0, in ascending order (R144). -/
def countedSyms : Nat → List Word → List Sym
  | _, [] => []
  | v, c :: cs =>
    if c ≠ 0 then Fin.ofNat 257 v :: countedSyms (v + 1) cs else countedSyms (v + 1) cs

theorem countedSyms_zero_cons (v : Nat) (cs : List Word) :
    countedSyms v (0 :: cs) = countedSyms (v + 1) cs :=
  if_neg (not_not.2 rfl)

theorem countedSyms_cons_of_ne (v : Nat) {c : Word} (hc : c ≠ 0) (cs : List Word) :
    countedSyms v (c :: cs) = Fin.ofNat 257 v :: countedSyms (v + 1) cs :=
  if_pos hc

theorem leafNodes_zero_cons (v k : Nat) (cs : List Word) :
    leafNodes v k (0 :: cs) = leafNodes (v + 1) k cs :=
  if_neg (not_not.2 rfl)

theorem leafNodes_cons_of_ne (v k : Nat) {c : Word} (hc : c ≠ 0) (cs : List Word) :
    leafNodes v k (c :: cs) =
      ⟨c.toNat, k, .leaf (Fin.ofNat 257 v)⟩ :: leafNodes (v + 1) (k + 1) cs :=
  if_pos hc

/-- The leaves that BUILD starts from are the counted symbols and EOF (R144). -/
theorem leafNodes_leaves (v k : Nat) (cs : List Word) :
    ((leafNodes v k cs).map fun n => (n.t.leaves : Multiset Sym)).sum =
      ↑(countedSyms v cs ++ [eof]) := by
  induction cs generalizing v k with
  | nil => simp [leafNodes, countedSyms, Tree.leaves]
  | cons c cs ih =>
    rcases eq_or_ne c 0 with rfl | hc
    · rw [leafNodes_zero_cons, countedSyms_zero_cons, ih]
    · rw [leafNodes_cons_of_ne _ _ hc, countedSyms_cons_of_ne _ hc, List.map_cons, List.sum_cons, ih]
      rfl

/-- Merging keeps the leaves, so the tree has exactly the counted symbols and EOF (R146). -/
theorem buildTree_leaves_perm (freq : Vector Word 256) :
    (buildTree freq).leaves.Perm (countedSyms 0 freq.toList ++ [eof]) := by
  obtain ⟨root, hroot⟩ := Option.isSome_iff_exists.1 (buildRoot_isSome freq.toList)
  have hmerge := mergeNodes_keeps (fun n => (n.t.leaves : Multiset Sym))
    (fun _ _ _ => (Multiset.coe_add _ _).symm) _ _ _ root hroot
  rw [leafNodes_leaves] at hmerge
  rw [buildTree, hroot]
  exact Multiset.coe_eq_coe.1 hmerge

/-- Counted symbols stand in their range. -/
theorem countedSyms_mem {v : Nat} {cs : List Word} (hv : v + cs.length ≤ 256) {s : Sym}
    (hs : s ∈ countedSyms v cs) : v ≤ s.val ∧ s.val < 256 := by
  induction cs generalizing v with
  | nil => simp [countedSyms] at hs
  | cons c cs ih =>
    simp only [List.length_cons] at hv
    have hrest := ih (v := v + 1) (by omega)
    rcases eq_or_ne c 0 with rfl | hc
    · have := hrest (countedSyms_zero_cons v cs ▸ hs)
      omega
    · rw [countedSyms_cons_of_ne _ hc, List.mem_cons] at hs
      rcases hs with rfl | hs
      · simp only [Fin.val_ofNat]
        omega
      · have := hrest hs
        omega

theorem countedSyms_nodup {v : Nat} {cs : List Word} (hv : v + cs.length ≤ 256) :
    (countedSyms v cs).Nodup := by
  induction cs generalizing v with
  | nil => exact List.nodup_nil
  | cons c cs ih =>
    simp only [List.length_cons] at hv
    have hrest := ih (v := v + 1) (by omega)
    rcases eq_or_ne c 0 with rfl | hc
    · exact countedSyms_zero_cons v cs ▸ hrest
    · rw [countedSyms_cons_of_ne _ hc, List.nodup_cons]
      refine ⟨fun hmem => ?_, hrest⟩
      have := (countedSyms_mem (by omega) hmem).1
      simp only [Fin.val_ofNat] at this
      omega

/-- BUILD's tree has one EOF leaf and no symbol twice (R36, R148). -/
theorem buildTree_valid (freq : Vector Word 256) : (buildTree freq).Valid := by
  have hperm := buildTree_leaves_perm freq
  have hlen : 0 + freq.toList.length ≤ 256 := by simp
  refine ⟨hperm.mem_iff.2 (by simp), hperm.nodup_iff.2 ?_⟩
  refine List.Nodup.append (countedSyms_nodup hlen) (List.nodup_singleton _) ?_
  simp only [List.disjoint_singleton]
  intro hmem
  exact absurd (countedSyms_mem hlen hmem).2 (by decide)

end Sys2Proof.Proofs
end

section
/-! PROOFS. READ_HEADER's progress stays one it can reach (R53, R176, R177). -/

namespace Sys2Proof.Proofs

open Sys2Proof Sys2Proof.Machine Sys2Proof.Safety Sys2Proof.Laws

/-- A complete subtree that leaves more to read is moved into the open branches: no leaf and no
branch is lost, and neither field nor item is left over. -/
theorem plugTree_more_spec {t : Tree} {seen : List Sym} {nbr : Nat} {open_ : List (Option Tree)}
    {q : ReadProgress} (h : plugTree t seen nbr open_ = .more q) :
    q.seen = seen ∧ q.nbr = nbr ∧ q.field = none ∧ q.pending = none ∧
    (openLeaves q.open_).Perm (t.leaves ++ openLeaves open_) ∧
    openBranches q.open_ = t.branches + openBranches open_ := by
  induction open_ generalizing t with
  | nil => simp [plugTree] at h
  | cons top rest ih =>
    cases top with
    | none =>
      cases h
      exact ⟨rfl, rfl, rfl, rfl, List.Perm.refl _, by simp [openBranches]; omega⟩
    | some l =>
      obtain ⟨hseen, hnbr, hfield, hpend, hleaves, hbranches⟩ := ih h
      refine ⟨hseen, hnbr, hfield, hpend, hleaves.trans ?_, ?_⟩
      · simp only [Tree.leaves, openLeaves, List.append_assoc]
        exact List.perm_append_comm_assoc _ _ _
      · simp only [hbranches, Tree.branches, openBranches]
        omega

/-- A complete subtree that completes the whole tree: its leaves are those of all subtrees. -/
theorem plugTree_complete_spec {t whole : Tree} {seen seen' : List Sym} {nbr : Nat}
    {open_ : List (Option Tree)} (h : plugTree t seen nbr open_ = .complete whole seen') :
    seen' = seen ∧ whole.leaves.Perm (t.leaves ++ openLeaves open_) := by
  induction open_ generalizing t with
  | nil =>
    cases h
    exact ⟨rfl, by simp [openLeaves]⟩
  | cons top rest ih =>
    cases top with
    | none => cases h
    | some l =>
      obtain ⟨hseen, hleaves⟩ := ih h
      refine ⟨hseen, hleaves.trans ?_⟩
      simp only [Tree.leaves, openLeaves, List.append_assoc]
      exact List.perm_append_comm_assoc _ _ _

/-- Nine value bits that are no error make a leaf whose symbol is new (R177). -/
theorem readLeaf_eq_plugTree {p : ReadProgress} {v : Nat} {r : ReadResult}
    (h : readLeaf p v = r) (hr : ∀ e info, r ≠ .bad e info) :
    ∃ sym, sym ∉ p.seen ∧ plugTree (.leaf sym) (sym :: p.seen) p.nbr p.open_ = r := by
  unfold readLeaf at h
  split at h
  · next hv =>
    split at h
    · exact absurd h.symm (hr _ _)
    · next hnew => exact ⟨_, hnew, h⟩
  · exact absurd h.symm (hr _ _)

/-- The leaf of a new symbol, added to a progress that is in order (R176). -/
theorem readOk_of_leaf {p q : ReadProgress} {sym : Sym} (hok : ReadOk p) (hnew : sym ∉ p.seen)
    (h : plugTree (.leaf sym) (sym :: p.seen) p.nbr p.open_ = .more q) :
    ReadOk q ∧ q.pending = none ∧ bitsRead q = 10 * (p.seen.length + 1) + p.nbr := by
  obtain ⟨hseen, hnbr, hfield, hpend, hleaves, hbranches⟩ := plugTree_more_spec h
  refine ⟨⟨?_, ?_, ?_, ?_, ?_⟩, hpend, ?_⟩
  · rw [hseen]
    exact List.nodup_cons.2 ⟨hnew, hok.seen_nodup⟩
  · rw [hseen]
    exact (hok.seen_leaves.cons sym).trans hleaves.symm
  · simp only [hnbr, hbranches, Tree.branches, hok.nbr_counts, Nat.zero_add]
  · exact hnbr ▸ hok.nbr_bound
  · simp [hfield]
  · simp [bitsRead, hseen, hnbr, hfield, hpend]

/-- Working on an item keeps the progress in order, and the item's bit is then counted with what it
stands for: a branch, a leaf's mark, a value bit or the whole leaf (R53, R176). -/
theorem readItem_more_spec {p q : ReadProgress} {it : BitItem} (hok : ReadOk p)
    (hpend : p.pending = some it) (h : readItem p it = .more q) :
    ReadOk q ∧ q.pending = none ∧ bitsRead q = bitsRead p := by
  cases it with
  | eod => cases h
  | bit b =>
    cases hfield : p.field with
    | none =>
      cases b with
      | true =>
        simp only [readItem, hfield, if_true, ReadResult.more.injEq] at h
        subst h
        exact ⟨⟨hok.seen_nodup, hok.seen_leaves, hok.nbr_counts, hok.nbr_bound, by simp⟩, rfl,
          by simp [bitsRead, hfield, hpend]⟩
      | false =>
        by_cases hmax : Config.maxBranches < p.nbr + 1
        · simp [readItem, hfield, hmax] at h
        · simp only [readItem, hfield, hmax, if_false, Bool.false_eq_true, ReadResult.more.injEq] at h
          subst h
          refine ⟨⟨hok.seen_nodup, hok.seen_leaves, congrArg (· + 1) hok.nbr_counts,
            Nat.not_lt.1 hmax, by simp⟩, rfl, ?_⟩
          simp only [bitsRead, hfield, hpend]
          omega
    | some bits =>
      by_cases hshort : bits.length + 1 < 9
      · simp only [readItem, hfield, hshort, if_true, ReadResult.more.injEq] at h
        subst h
        refine ⟨⟨hok.seen_nodup, hok.seen_leaves, hok.nbr_counts, hok.nbr_bound, ?_⟩, rfl, ?_⟩
        · simp only [Option.some.injEq, forall_eq', List.length_append, List.length_singleton]
          omega
        · simp only [bitsRead, hfield, hpend, List.length_append, List.length_singleton]
          omega
      · simp only [readItem, hfield, hshort, if_false] at h
        obtain ⟨sym, hnew, hplug⟩ := readLeaf_eq_plugTree h (by simp)
        obtain ⟨hq, hpendq, hbits⟩ := readOk_of_leaf hok hnew hplug
        have hlen := hok.field_short bits hfield
        refine ⟨hq, hpendq, ?_⟩
        rw [hbits]
        simp only [bitsRead, hfield, hpend]
        omega

/-- The whole tree READ_HEADER has read is a code tree when EOF was among its leaves (R36, R177). -/
theorem readItem_complete_valid {p : ReadProgress} {it : BitItem} {t : Tree} {seen : List Sym}
    (hok : ReadOk p) (h : readItem p it = .complete t seen) (heof : eof ∈ seen) : t.Valid := by
  have hleaf {v : Nat} (h : readLeaf p v = .complete t seen) : t.Valid := by
    obtain ⟨sym, hnew, hplug⟩ := readLeaf_eq_plugTree h (by simp)
    obtain ⟨hseen, hleaves⟩ := plugTree_complete_spec hplug
    have hperm : t.leaves.Perm seen := hseen ▸ hleaves.trans (hok.seen_leaves.symm.cons sym)
    have hnodup : seen.Nodup := hseen ▸ List.nodup_cons.2 ⟨hnew, hok.seen_nodup⟩
    exact ⟨hperm.mem_iff.2 heof, hperm.nodup_iff.2 hnodup⟩
  unfold readItem at h
  split at h
  · cases h
  · split at h
    · split at h
      · cases h
      · split at h <;> cases h
    · split at h
      · cases h
      · exact hleaf h

theorem readOk_start : ReadOk ReadProgress.start :=
  ⟨List.nodup_nil, List.Perm.refl _, rfl, Nat.zero_le _, by simp [ReadProgress.start]⟩

/-- The item just received does not bear on the order of the progress. -/
theorem readOk_pending {p : ReadProgress} (it : Option BitItem) (h : ReadOk p) :
    ReadOk { p with pending := it } :=
  ⟨h.seen_nodup, h.seen_leaves, h.nbr_counts, h.nbr_bound, h.field_short⟩

/-- A bit just received counts as read, EOD does not (R47). -/
theorem bitsRead_bit {p : ReadProgress} (b : Bool) (h : p.pending = none) :
    bitsRead { p with pending := some (.bit b) } = bitsRead p + 1 := by
  simp [bitsRead, h]

theorem bitsRead_eod {p : ReadProgress} (h : p.pending = none) :
    bitsRead { p with pending := some .eod } = bitsRead p := by
  simp [bitsRead, h]

/-- BITS_IN cannot wrap while READ_HEADER runs (R179). -/
theorem bitsRead_lt {p : ReadProgress} (h : ReadOk p) (hp : p.pending = none) :
    bitsRead p < 2 ^ 32 - 1 := by
  have hseen : p.seen.length ≤ 257 := by simpa using h.seen_nodup.length_le_card
  have hnbr : p.nbr ≤ 256 := h.nbr_bound
  cases hfield : p.field with
  | none =>
    simp only [bitsRead, hfield, hp]
    omega
  | some bits =>
    have := h.field_short bits hfield
    simp only [bitsRead, hfield, hp]
    omega

end Sys2Proof.Proofs
end

section
/-! PROOFS. The invariant is kept by every step (O59). The rules for the shared operations come
first, then the host's operations and the engine's steps. -/

namespace Sys2Proof.Proofs

open Sys2Proof Sys2Proof.Machine Sys2Proof.Safety Sys2Proof.Laws

/-! ### Shared operations -/

section
variable {s t : State}

/-- The invariant speaks of the block alone. -/
theorem inv_of_blk_eq (hinv : Inv s) (h : t.blk = s.blk) : Inv t := by
  obtain ⟨hvalid, hcode, hdone, herr, habort, hprog⟩ := hinv
  exact ⟨h ▸ hvalid, h ▸ hcode, h ▸ hdone, h ▸ herr, h ▸ habort, h ▸ hprog⟩

theorem inv_reset (h : t.blk = Block.reset) : Inv t :=
  inv_of_blk_eq (s := State.reset) invariantHoldsAfterReset h

/-- A command may end anywhere with any outcome, as long as the tree store is in order (R243). -/
theorem inv_endCommand (e : ErrorCode) (info : Word)
    (htree : ∀ tr, s.blk.tree = some tr → tr.Valid) : Inv (endCommand e info s) where
  tree_valid := htree
  err_code := by simp
  busy_not_done := by simp
  not_done_no_error := by simp
  abort_busy := by simp
  progress := trivial

/-- What a transaction of the running command leaves of the block, besides `seq` and the counters. -/
structure KeepsStatus (s t : State) : Prop where
  tree : t.blk.tree = s.blk.tree
  done : t.blk.done = s.blk.done
  err : t.blk.err = s.blk.err
  errCode : t.blk.errCode = s.blk.errCode
  errInfo : t.blk.errInfo = s.blk.errInfo

/-- A transaction keeps the invariant when the command's new position is in order. -/
theorem inv_of_keepsStatus (hinv : Inv s) (hbusy : s.blk.seq ≠ .idle) (hkeep : KeepsStatus s t)
    (hbusy' : t.blk.seq ≠ .idle) (hprog : ProgressOk t.blk) : Inv t := by
  obtain ⟨htree, hdone, herr, hcode, hinfo⟩ := hkeep
  exact {
    tree_valid := htree ▸ hinv.tree_valid
    err_code := by rw [herr, hcode]; exact hinv.err_code
    busy_not_done := fun _ => hdone ▸ hinv.busy_not_done ((busy_eq_true _).2 hbusy)
    not_done_no_error := by rw [hdone, herr, hinfo]; exact hinv.not_done_no_error
    abort_busy := fun _ => (busy_eq_true _).2 hbusy'
    progress := hprog }

/-! A stream primitive keeps the invariant when the position after its transaction is in order: the
abort ends the command and the hold changes nothing. -/

theorem inv_inBit {k : BitItem → Seq} (hinv : Inv s) (hbusy : s.blk.seq ≠ .idle)
    (hk : ∀ it, k it ≠ .idle)
    (hprog : ∀ it rest, ProgressOk (setSeq (k it) (takeBitItem it rest s)).blk) :
    Inv (inBit k s) := by
  rcases inBit_cases k s with ⟨-, e⟩ | ⟨-, -, e⟩ | ⟨it, rest, -, -, e⟩ <;> rw [e]
  · exact inv_endCommand _ _ hinv.tree_valid
  · exact hinv
  · exact inv_of_keepsStatus hinv hbusy ⟨rfl, rfl, rfl, rfl, rfl⟩ (hk it) (hprog it rest)

theorem inv_inByte {k : ByteItem → Seq} (hinv : Inv s) (hbusy : s.blk.seq ≠ .idle)
    (hk : ∀ it, k it ≠ .idle)
    (hprog : ∀ it rest, ProgressOk (setSeq (k it) (takeByteItem it rest s)).blk) :
    Inv (inByte k s) := by
  rcases inByte_cases k s with ⟨-, e⟩ | ⟨-, -, e⟩ | ⟨it, rest, -, -, e⟩ <;> rw [e]
  · exact inv_endCommand _ _ hinv.tree_valid
  · exact hinv
  · exact inv_of_keepsStatus hinv hbusy ⟨rfl, rfl, rfl, rfl, rfl⟩ (hk it) (hprog it rest)

theorem inv_outBit {b : Bool} {k : Seq} (hinv : Inv s) (hbusy : s.blk.seq ≠ .idle)
    (hk : k ≠ .idle) (hprog : ∀ room, ProgressOk (setSeq k (giveBit b room s)).blk) :
    Inv (outBit b k s) := by
  rcases outBit_cases b k s with ⟨-, e⟩ | ⟨-, -, e⟩ | ⟨room, -, -, e⟩ <;> rw [e]
  · exact inv_endCommand _ _ hinv.tree_valid
  · exact hinv
  · exact inv_of_keepsStatus hinv hbusy ⟨rfl, rfl, rfl, rfl, rfl⟩ hk (hprog room)

theorem inv_outByte {v : Byte} {k : Seq} (hinv : Inv s) (hbusy : s.blk.seq ≠ .idle)
    (hk : k ≠ .idle) (hprog : ∀ room, ProgressOk (setSeq k (giveByte v room s)).blk) :
    Inv (outByte v k s) := by
  rcases outByte_cases v k s with ⟨-, e⟩ | ⟨-, -, e⟩ | ⟨room, -, -, e⟩ <;> rw [e]
  · exact inv_endCommand _ _ hinv.tree_valid
  · exact hinv
  · exact inv_of_keepsStatus hinv hbusy ⟨rfl, rfl, rfl, rfl, rfl⟩ hk (hprog room)

/-! ### The host's operations -/

/-- The command that each word starts, by its opcode and its reserved bits (R111, R112). -/
theorem seqOfWord_cases (w : Word) :
    (w.extractLsb' 0 4 = 0 ∧ seqOfWord w = .nop) ∨
    (w.extractLsb' 0 4 = 1 ∧ seqOfWord w = .clearFreq) ∨
    (w.extractLsb' 0 4 = 2 ∧ clearsTree w = true ∧ seqOfWord w = .build) ∨
    (w.extractLsb' 0 4 = 3 ∧ seqOfWord w = .writeHeader 0) ∨
    (w.extractLsb' 0 4 = 4 ∧ clearsTree w = true ∧ seqOfWord w = .readHeader ReadProgress.start) ∨
    (w.extractLsb' 0 4 = 5 ∧ seqOfWord w = .encode .start) ∨
    (w.extractLsb' 0 4 = 6 ∧ seqOfWord w = .decode .start) ∨
    ((w.extractLsb' 4 28 ≠ 0 ∨ 7 ≤ (w.extractLsb' 0 4).toNat) ∧ seqOfWord w = .illegal w) := by
  by_cases hrsv : w.extractLsb' 4 28 = 0
  · rw [← rsvWord_fields w, hrsv]
    generalize w.extractLsb' 0 4 = op
    revert op
    decide
  · have hseq : seqOfWord w = .illegal w := by rw [seqOfWord, decodeCommand, if_pos hrsv]
    simp only [hseq, ne_eq, hrsv, not_false_eq_true, true_or, and_self, or_true]

/-- An accepted command stands at its start, and LAST_OP is its opcode (R241). -/
theorem progressOk_acceptCommand (w : Word) (s : State) : ProgressOk (acceptCommand w s).blk := by
  unfold ProgressOk
  rcases seqOfWord_cases w with ⟨hop, h⟩ | ⟨hop, h⟩ | ⟨hop, hclear, h⟩ | ⟨hop, h⟩ |
    ⟨hop, hclear, h⟩ | ⟨hop, h⟩ | ⟨hop, h⟩ | ⟨hill, h⟩ <;>
    simp only [acceptCommand_seq, acceptCommand_lastOp, acceptCommand_tree, acceptCommand_bitsIn,
      acceptCommand_bitsOut, h]
  · exact hop
  · exact hop
  · exact ⟨hop, if_pos hclear⟩
  · refine ⟨hop, rfl, ?_⟩
    split
    · trivial
    · exact Nat.zero_le _
  · exact ⟨hop, if_pos hclear, readOk_start, rfl⟩
  · exact ⟨hop, trivial⟩
  · exact ⟨hop, trivial⟩
  · exact ⟨trivial, hill⟩

theorem inv_acceptCommand (w : Word) (hinv : Inv s) : Inv (acceptCommand w s) where
  tree_valid := by
    intro tr htr
    rw [acceptCommand_tree] at htr
    split at htr
    · cases htr
    · exact hinv.tree_valid tr htr
  err_code := by simp
  busy_not_done := by simp
  not_done_no_error := by simp
  abort_busy := by simp
  progress := progressOk_acceptCommand w s

theorem inv_hostEffect {i : Instr} (hinv : Inv s) (h : HostEffect i s t) : Inv t := by
  cases h with
  | same hblk => exact inv_of_blk_eq hinv hblk
  | accepted w => exact inv_acceptCommand w hinv
  | aborting data hbusy =>
    exact ⟨hinv.tree_valid, hinv.err_code, hinv.busy_not_done, hinv.not_done_no_error,
      fun _ => (busy_eq_true _).2 hbusy, hinv.progress⟩
  | dropped | counted | selected =>
    exact ⟨hinv.tree_valid, hinv.err_code, hinv.busy_not_done, hinv.not_done_no_error,
      hinv.abort_busy, hinv.progress⟩

/-! ### The engine's steps -/

/-- READ_HEADER's next InBit: the item is counted with what has been read (R53, R179). -/
theorem inv_readHeaderInBit {p q : ReadProgress} (hinv : Inv s) (hseq : s.blk.seq = .readHeader p)
    (hq : ReadOk q) (hpend : q.pending = none) (hbits : bitsRead q = bitsRead p) :
    Inv (readHeaderInBit q s) := by
  have hprog := hinv.progress
  simp only [ProgressOk, hseq] at hprog
  obtain ⟨hop, htree, -, hcount⟩ := hprog
  refine inv_inBit hinv (by simp [hseq]) (by simp) fun it rest => ?_
  refine ⟨hop, htree, readOk_pending _ hq, ?_⟩
  have hlt := bitsRead_lt hq hpend
  cases it with
  | eod =>
    rw [setSeq_bitsIn, takeBitItem_bitsIn, bitsRead_eod hpend, hbits, ← hcount]
    exact congrArg BitVec.toNat (BitVec.add_zero s.blk.bitsIn)
  | bit b =>
    rw [setSeq_bitsIn, takeBitItem_bitsIn, bitsRead_bit b hpend, BitVec.toNat_add, hcount, ← hbits]
    exact Nat.mod_eq_of_lt (Nat.add_lt_of_lt_sub hlt)

/-- The node DECODE looks at is one of the tree's: the root itself, or one below a root that is a
branch (R55, R222). -/
theorem decodeCursor_mem_nodes {p : DecodeProgress} {root cur : Tree}
    (hok : DecodeOk (some root) p) (hcursor : DecodeCursor root p cur) :
    cur ∈ root.nodes ∧ (cur = root ∨ root.isBranch = true) := by
  cases p with
  | start =>
    obtain rfl : cur = root := hcursor
    exact ⟨mem_nodes_self cur, .inl rfl⟩
  | emitted => exact hcursor.elim
  | got prev item =>
    cases item with
    | eod => exact hcursor.elim
    | bit b =>
      obtain ⟨t, ht, hmem, hbranch, -⟩ := hok
      obtain rfl := Option.some.inj ht
      exact ⟨child_mem_nodes hmem hcursor, .inr hbranch⟩

/-- The one leaf of a tree that is a leaf is EOF's (R36). -/
theorem eq_eof_of_leaf_valid {sym : Sym} (h : (Tree.leaf sym).Valid) : sym = eof :=
  (List.mem_singleton.1 h.1).symm

theorem inv_engineEffect (hinv : Inv s) (h : EngineEffect s t) : Inv t := by
  have hprog := hinv.progress
  cases h with
  | ended e info => exact inv_endCommand e info hinv.tree_valid
  | cleared => exact inv_endCommand _ _ hinv.tree_valid
  | built =>
    refine inv_endCommand _ _ fun tr htr => ?_
    obtain rfl := Option.some.inj htr
    exact buildTree_valid _
  | stuck => exact hinv
  | headerBit pos tr b hseq htree hbit =>
    simp only [ProgressOk, hseq, htree] at hprog
    obtain ⟨hop, hout, -⟩ := hprog
    have hlt := (List.getElem?_eq_some_iff.1 hbit).1
    refine inv_outBit hinv (by simp [hseq]) (by simp) fun room => ⟨hop, ?_, ?_⟩
    · simp only [setSeq_bitsOut, giveBit_bitsOut, hout, BitVec.ofNat_add]
      rfl
    · simp only [setSeq_tree, giveBit_tree, htree]
      exact hlt
  | readFirst p hseq hpend =>
    simp only [ProgressOk, hseq] at hprog
    obtain ⟨-, -, hread, -⟩ := hprog
    exact inv_readHeaderInBit hinv hseq hread hpend rfl
  | readNext p q it hseq hpend hmore =>
    simp only [ProgressOk, hseq] at hprog
    obtain ⟨-, -, hread, -⟩ := hprog
    obtain ⟨hq, hpendq, hbits⟩ := readItem_more_spec hread hpend hmore
    exact inv_readHeaderInBit hinv hseq hq hpendq hbits
  | readWhole p it tr seen hseq hpend hcomplete heof =>
    simp only [ProgressOk, hseq] at hprog
    obtain ⟨-, -, hread, -⟩ := hprog
    refine inv_endCommand _ _ fun tr' htr => ?_
    obtain rfl := Option.some.inj htr
    exact readItem_complete_valid hread hcomplete heof
  | encodeRead p tr hseq htree =>
    simp only [ProgressOk, hseq] at hprog
    obtain ⟨hop, -⟩ := hprog
    exact inv_inByte hinv (by simp [hseq]) (by simp)
      fun it rest => ⟨hop, by simp [EncodeOk, htree]⟩
  | encodeBit p tr sym code index b hseq htree hcode hbit =>
    simp only [ProgressOk, hseq] at hprog
    obtain ⟨hop, -⟩ := hprog
    have hlt := (List.getElem?_eq_some_iff.1 hbit).1
    exact inv_outBit hinv (by simp [hseq]) (by simp)
      fun room => ⟨hop, tr, code, htree, hcode, hlt⟩
  | decodeRoot tr hseq htree =>
    simp only [ProgressOk, hseq] at hprog
    obtain ⟨hop, tr', htree', hbranch⟩ := hprog
    obtain rfl : tr = tr' := Option.some.inj (htree.symm.trans htree')
    exact inv_inBit hinv (by simp [hseq]) (by simp)
      fun it rest => ⟨hop, tr, htree, mem_nodes_self tr, hbranch, hbranch⟩
  | decodeRead p tr cur hseq htree hcursor hbranch =>
    simp only [ProgressOk, hseq] at hprog
    obtain ⟨hop, hok⟩ := hprog
    obtain ⟨hmem, hroot⟩ := decodeCursor_mem_nodes (htree ▸ hok) hcursor
    refine inv_inBit hinv (by simp [hseq]) (by simp)
      fun it rest => ⟨hop, tr, htree, hmem, ?_, hbranch⟩
    rcases hroot with rfl | hroot
    · exact hbranch
    · exact hroot
  | decodeByte p tr sym hseq htree hcursor hne =>
    simp only [ProgressOk, hseq] at hprog
    obtain ⟨hop, hok⟩ := hprog
    obtain ⟨-, hroot⟩ := decodeCursor_mem_nodes (htree ▸ hok) hcursor
    refine inv_outByte hinv (by simp [hseq]) (by simp) fun room => ⟨hop, tr, htree, ?_⟩
    rcases hroot with rfl | hroot
    · exact absurd (eq_eof_of_leaf_valid (hinv.tree_valid _ htree)) hne
    · exact hroot

/-- Settles O59: the invariant follows the cases of a step, with the host's operations and the
engine's steps each by their effect. -/
theorem everyStepKeepsTheInvariant : Obligations.EveryStepKeepsTheInvariant := by
  intro s t hinv h
  rcases step_cases h with hsame | ⟨rest, -, hreset⟩ | ⟨a, rest, i, -, -, heff⟩ | ⟨rest, -, heff⟩
  · exact inv_of_blk_eq hinv hsame
  · exact inv_reset hreset
  · exact inv_hostEffect (inv_of_blk_eq hinv (beginTurn_blk _ _ _)) heff
  · exact inv_engineEffect (inv_of_blk_eq hinv (beginTurn_blk _ _ _)) heff

end

end Sys2Proof.Proofs
end

section
/-! PROOFS. Host accesses by what the bus decodes them to: operations, accesses without effect, and
the writes that are ignored or dropped (20_memory.md R80 to R84). -/

namespace Sys2Proof.Proofs

open Sys2Proof Sys2Proof.Machine Sys2Proof.Safety Sys2Proof.Laws

/-! ### Any host access -/

section
variable {s : State} {a : Access} {rest : List AgentStep}

/-- A host access that is an operation runs it, on the host's turn (R91). -/
theorem step_host_instr {i : Instr} (hsched : s.env.schedule = .host a :: rest)
    (hdec : decodeAccess s.env.huffBase a = .instr i) :
    step s = exec i ⟨s.blk, hostTurn s.env rest⟩ := by
  simp only [step, hsched, hdec]
  rfl

/-- A host access that is no operation has the effect of its kind (R80 to R83). -/
theorem step_host_other {why : NotInstr} (hsched : s.env.schedule = .host a :: rest)
    (hdec : decodeAccess s.env.huffBase a = .other why) :
    step s = .next (plainAccess why a.op ⟨s.blk, hostTurn s.env rest⟩) := by
  simp only [step, hsched, hdec]
  rfl

end

/-- Settles O5. -/
theorem stepRunsTheDecodedAccess : Obligations.StepRunsTheDecodedAccess := by
  intro s a rest hsched
  refine ⟨fun i hdec => step_host_instr hsched hdec, fun hout => ?_⟩
  exact step_host_other (why := .outsideWindow) hsched (if_pos hout)

/-- The two low bits of an offset say whether it is a multiple of 4. -/
theorem offset_low_bits_eq_zero {off : Nat} (hoff : off < 2048) :
    (BitVec.ofNat 11 off).extractLsb' 0 2 = 0 ↔ off % 4 = 0 := by
  rw [← BitVec.toNat_inj]
  simp [Nat.mod_eq_of_lt hoff]

/-- Inside the window an access that R81 does not admit is narrow or misaligned (R82). -/
theorem decodeAccess_narrow_or_misaligned {base off : Nat} {a : Access}
    (haddr : a.addr = base + off) (hoff : off < 2048) (hbad : a.width ≠ .word ∨ off % 4 ≠ 0) :
    decodeAccess base a = .other .narrow ∨ decodeAccess base a = .other .misaligned := by
  obtain ⟨addr, width, op⟩ := a
  obtain rfl : addr = base + off := haddr
  by_cases hwidth : width = .word
  · subst hwidth
    have halign : off % 4 ≠ 0 := hbad.resolve_left (not_not.2 rfl)
    rw [decodeAccess_word _ _ _ hoff]
    exact .inr (if_pos (mt (offset_low_bits_eq_zero hoff).1 halign))
  · have hin : ¬ (base + off < base ∨ base + Config.windowBytes ≤ base + off) := by
      simp only [Config.windowBytes]
      omega
    exact .inl ((if_neg hin).trans (if_pos hwidth))

/-- Settles O12. -/
theorem narrowOrMisalignedAccessHasNoEffect : Obligations.NarrowOrMisalignedAccessHasNoEffect := by
  intro s a off rest hsched haddr hoff hbad
  rcases decodeAccess_narrow_or_misaligned haddr hoff hbad with hdec | hdec
  all_goals
    rw [step_host_other hsched hdec]
    exact ⟨fun w hop => by rw [hop]; rfl, fun hop => by rw [hop]; rfl⟩

/-! ### Aligned writes to a register -/

/-- The block sees a word access at a register's offset as one to that register (R32, R81). -/
theorem decode_standsAt {r : Reg} {off : Nat} (hr : StandsAt r off) (op : BusOp) :
    decode ⟨BitVec.ofNat 11 off, op⟩ = decodeReg r op := by
  obtain ⟨-, halign, hreg⟩ := hr
  rw [decode, if_neg (not_not.2 halign), hreg]

section
variable {s : State} {r : Reg} {off : Nat} {w : Word} {rest : List AgentStep}

/-- A write to a register that is an operation runs it (R123). -/
theorem step_write {i : Instr} (hr : StandsAt r off) (h : accessNext s off (.write w) rest)
    (hi : decodeReg r (.write w) = .instr i) : step s = exec i ⟨s.blk, hostTurn s.env rest⟩ := by
  rw [step_access h hr.1, decode_standsAt hr, hi]

/-- A write to any other register is ignored (R83). -/
theorem step_write_ignored (hr : StandsAt r off) (h : accessNext s off (.write w) rest)
    (hi : decodeReg r (.write w) = .other (.ignoredWrite r)) :
    step s = .next ⟨s.blk, hostTurn s.env rest⟩ := by
  rw [step_access h hr.1, decode_standsAt hr, hi]
  rfl

end

/-- The reserved offsets lie above the single registers and outside CODE_BITS and FREQ (R32). -/
theorem reserved_standsAt {off : Nat} (h : reservedOffset off) : StandsAt .reserved off := by
  obtain ⟨halign, hrange⟩ := h
  have hoff : off < 2048 := by omega
  refine ⟨hoff, (offset_low_bits_eq_zero hoff).2 halign, ?_⟩
  have hfreq : ¬ 0x400 ≤ off := by omega
  have hcode : ¬ (0x040 ≤ off ∧ off < 0x060) := by omega
  have hsingle : 0x030 ≤ off := by omega
  clear hrange halign
  simp only [regAt, BitVec.toNat_ofNat, Nat.reducePow, Nat.mod_eq_of_lt hoff]
  rw [if_neg hfreq, if_neg hcode]
  split
  case h_13 => rfl
  all_goals exact absurd hsingle (by decide)

/-- Every register that R83 names read-only is one whose writes the decoder ignores. -/
theorem readOnly_standsAt {off : Nat} (h : readOnlyOffset off) :
    ∃ r, StandsAt r off ∧ ∀ w, decodeReg r (.write w) = .other (.ignoredWrite r) := by
  rcases h with h | ⟨k, hk, rfl⟩
  · have hlist : ∀ off ∈ [0x000, 0x00C, 0x010, 0x014, 0x018, 0x01C, 0x020, 0x024, 0x02C],
        ∃ r ∈ [Reg.id, .status, .errInfo, .bitsIn, .bitsOut, .bytesIn, .bytesOut, .leaves, .codeLen],
          StandsAt r off := by decide
    obtain ⟨r, hr, hat⟩ := hlist off h
    refine ⟨r, hat, fun w => ?_⟩
    simp only [List.mem_cons, List.not_mem_nil, or_false] at hr
    rcases hr with rfl | rfl | rfl | rfl | rfl | rfl | rfl | rfl | rfl <;> rfl
  · exact ⟨_, codeBits_standsAt hk, fun _ => rfl⟩

/-- Settles O13. -/
theorem reservedAndReadOnlyWritesAreIgnored : Obligations.ReservedAndReadOnlyWritesAreIgnored := by
  intro s off rest
  refine ⟨fun hres h => step_read_exact (reserved_standsAt hres) h rfl, ?_⟩
  rintro w (hres | hread) h
  · exact step_write_ignored (reserved_standsAt hres) h rfl
  · obtain ⟨r, hat, hignored⟩ := readOnly_standsAt hread
    exact step_write_ignored hat h (hignored w)

/-! ### Writes while a command runs -/

section
variable {s : State}

theorem writeWhenIdle_of_busy (write : State → State) (hbusy : s.blk.seq ≠ .idle) :
    writeWhenIdle write s = dropWrite s :=
  if_pos ((busy_eq_true _).2 hbusy)

/-- On the host's turn a command is the write of its word, which a running command drops (R84). -/
theorem commandStep_dropped (w : Word) (engine : State → Result) (hturn : s.env.turn = .host)
    (hbusy : s.blk.seq ≠ .idle) : commandStep w engine s = .next (dropWrite s) := by
  simp only [commandStep, hturn, writeCmd, writeWhenIdle_of_busy _ hbusy]

/-- Whatever the word written to CMD, a running command drops it (R49, R84). -/
theorem exec_decodeCommand_dropped (w : Word) (hturn : s.env.turn = .host)
    (hbusy : s.blk.seq ≠ .idle) : exec (decodeCommand w) s = .next (dropWrite s) := by
  rcases decodeCommand_is_command w with hword | ⟨low, hword⟩ | ⟨rsv, op, hword⟩
  · simp only [List.mem_cons, List.not_mem_nil, or_false] at hword
    rcases hword with hword | hword | hword | hword | hword | hword | hword | hword <;>
      rw [hword] <;> exact commandStep_dropped _ _ hturn hbusy
  · rw [hword]
    exact commandStep_dropped _ _ hturn hbusy
  · rw [hword]
    exact commandStep_dropped _ _ hturn hbusy

/-- ABORT while a command runs adds its bit 0 to the latch (R48, R51, R246). -/
theorem exec_abort_busy (data : Word) (hbusy : s.blk.seq ≠ .idle) :
    exec (.abort data) s =
      .next { s with blk := { s.blk with abortReq := s.blk.abortReq || data.getLsbD 0 } } := by
  simp only [exec, execAbort, (busy_eq_true _).2 hbusy, Bool.and_true]
  cases data.getLsbD 0 <;> simp

end

/-- Settles O14. -/
theorem busyWritesAreDropped : Obligations.BusyWritesAreDropped := by
  intro s off w rest hbusy h
  refine ⟨?_, ?_⟩
  · rintro (rfl | rfl | ⟨v, hv, rfl⟩)
    · exact (step_write (r := .cmd) (by decide) h rfl).trans
        (exec_decodeCommand_dropped w rfl hbusy)
    · exact (step_write (r := .codeSel) (by decide) h rfl).trans
        (congrArg Host.Outcome.next (writeWhenIdle_of_busy _ hbusy))
    · exact (step_write (freq_standsAt hv) h rfl).trans
        (congrArg Host.Outcome.next (writeWhenIdle_of_busy _ hbusy))
  · rintro rfl
    exact (step_write (r := .ctrl) (by decide) h rfl).trans (exec_abort_busy w hbusy)

end Sys2Proof.Proofs
end

section
/-! PROOFS. The engine's partners: what a step moves over the streams, where it holds, and what it
comes to at each position of a command (20_memory.md R87, R88; 44_control.md R242). -/

namespace Sys2Proof.Proofs

open Sys2Proof Sys2Proof.Machine Sys2Proof.Safety Sys2Proof.Laws

/-! ### The engine's turn -/

/-- On the engine's turn an IDLE engine does nothing, and a running command takes its step (R242). -/
theorem step_engine_cases {s t : State} {rest : List AgentStep}
    (hsched : s.env.schedule = .engine :: rest) (h : step s = .next t) :
    (s.blk.seq = .idle ∧ t = ⟨s.blk, engineTurn s.env rest⟩) ∨
    ∃ i, s.blk.seq.instr? = some i ∧ exec i ⟨s.blk, engineTurn s.env rest⟩ = .next t := by
  simp only [step, hsched] at h
  cases hi : s.blk.seq.instr? with
  | none =>
    simp only [hi] at h
    cases h
    refine .inl ⟨?_, rfl⟩
    cases hseq : s.blk.seq <;> simp_all [Seq.instr?]
  | some i =>
    simp only [hi] at h
    exact .inr ⟨i, rfl, h⟩

/-! ### What a step moves over the streams -/

/-- The outside and the four counters of `t` are those of `u`. -/
structure SameStreams (u t : State) : Prop where
  env : t.env = u.env
  bitsIn : t.blk.bitsIn = u.blk.bitsIn
  bitsOut : t.blk.bitsOut = u.blk.bitsOut
  bytesIn : t.blk.bytesIn = u.blk.bytesIn
  bytesOut : t.blk.bytesOut = u.blk.bytesOut

/-- From `s` to `t` at most one stream item is moved, and it is counted (R47, R87, R88). -/
inductive ItemMove (s t : State) : Prop
  | none (same : SameStreams s t)
  | bitTaken (it : BitItem) (rest : List BitItem) (offered : s.env.bitIn = it :: rest)
      (same : SameStreams (takeBitItem it rest s) t)
  | bitGiven (b : Bool) (room : Nat) (accepted : s.env.bitRoom = room + 1)
      (same : SameStreams (giveBit b room s) t)
  | byteTaken (it : ByteItem) (rest : List ByteItem) (offered : s.env.byteIn = it :: rest)
      (same : SameStreams (takeByteItem it rest s) t)
  | byteGiven (v : Byte) (room : Nat) (accepted : s.env.byteRoom = room + 1)
      (same : SameStreams (giveByte v room s) t)

theorem SameStreams.refl (s : State) : SameStreams s s := ⟨rfl, rfl, rfl, rfl, rfl⟩

theorem endCommand_sameStreams (e : ErrorCode) (info : Word) (s : State) :
    SameStreams s (endCommand e info s) := ⟨rfl, rfl, rfl, rfl, rfl⟩

theorem setSeq_sameStreams (q : Seq) (s : State) : SameStreams s (setSeq q s) :=
  ⟨rfl, rfl, rfl, rfl, rfl⟩

section
variable (s : State)

theorem inBit_itemMove (k : BitItem → Seq) : ItemMove s (inBit k s) := by
  rcases inBit_cases k s with ⟨-, e⟩ | ⟨-, -, e⟩ | ⟨it, rest, -, hoffer, e⟩ <;> rw [e]
  · exact .none (endCommand_sameStreams _ _ s)
  · exact .none (.refl s)
  · exact .bitTaken it rest hoffer (setSeq_sameStreams _ _)

theorem inByte_itemMove (k : ByteItem → Seq) : ItemMove s (inByte k s) := by
  rcases inByte_cases k s with ⟨-, e⟩ | ⟨-, -, e⟩ | ⟨it, rest, -, hoffer, e⟩ <;> rw [e]
  · exact .none (endCommand_sameStreams _ _ s)
  · exact .none (.refl s)
  · exact .byteTaken it rest hoffer (setSeq_sameStreams _ _)

theorem outBit_itemMove (b : Bool) (k : Seq) : ItemMove s (outBit b k s) := by
  rcases outBit_cases b k s with ⟨-, e⟩ | ⟨-, -, e⟩ | ⟨room, -, haccept, e⟩ <;> rw [e]
  · exact .none (endCommand_sameStreams _ _ s)
  · exact .none (.refl s)
  · exact .bitGiven b room haccept (setSeq_sameStreams _ _)

theorem outByte_itemMove (v : Byte) (k : Seq) : ItemMove s (outByte v k s) := by
  rcases outByte_cases v k s with ⟨-, e⟩ | ⟨-, -, e⟩ | ⟨room, -, haccept, e⟩ <;> rw [e]
  · exact .none (endCommand_sameStreams _ _ s)
  · exact .none (.refl s)
  · exact .byteGiven v room haccept (setSeq_sameStreams _ _)

end

/-- Every engine step is the end of the command, a hold, or one stream primitive. -/
theorem engineEffect_itemMove {s t : State} (h : EngineEffect s t) : ItemMove s t := by
  cases h with
  | ended | cleared | built | readWhole => exact .none ⟨rfl, rfl, rfl, rfl, rfl⟩
  | stuck => exact .none (.refl s)
  | headerBit | encodeBit => exact outBit_itemMove s _ _
  | readFirst | readNext | decodeRoot | decodeRead => exact inBit_itemMove s _
  | encodeRead => exact inByte_itemMove s _
  | decodeByte => exact outByte_itemMove s _ _

/-- Settles O33. -/
theorem engineStepMovesAtMostOneItem : Obligations.EngineStepMovesAtMostOneItem := by
  intro s t rest hsched h
  have hmove : ItemMove ⟨s.blk, engineTurn s.env rest⟩ t := by
    rcases step_engine_cases hsched h with ⟨-, rfl⟩ | ⟨i, hi, hexec⟩
    · exact .none (.refl _)
    · exact engineEffect_itemMove (exec_engineEffect rfl hi hexec)
  cases hmove with
  | none same =>
    obtain ⟨henv, hbi, hbo, hyi, hyo⟩ := same
    exact .inl ⟨henv, hbi, hbo, hyi, hyo⟩
  | bitTaken it left hoffer same =>
    obtain ⟨henv, hbi, hbo, hyi, hyo⟩ := same
    obtain rfl : t.env.bitIn = left := congrArg Env.bitIn henv
    exact .inr (.inl ⟨it, hoffer, henv, hbi, hbo, hyi, hyo⟩)
  | bitGiven b room haccept same =>
    obtain ⟨henv, hbi, hbo, hyi, hyo⟩ := same
    obtain rfl : t.env.bitRoom = room := congrArg Env.bitRoom henv
    exact .inr (.inr (.inl ⟨b, haccept, henv, hbo, hbi, hyi, hyo⟩))
  | byteTaken it left hoffer same =>
    obtain ⟨henv, hbi, hbo, hyi, hyo⟩ := same
    obtain rfl : t.env.byteIn = left := congrArg Env.byteIn henv
    exact .inr (.inr (.inr (.inl ⟨it, hoffer, henv, hyi, hbi, hbo, hyo⟩)))
  | byteGiven v room haccept same =>
    obtain ⟨henv, hbi, hbo, hyi, hyo⟩ := same
    obtain rfl : t.env.byteRoom = room := congrArg Env.byteRoom henv
    exact .inr (.inr (.inr (.inr ⟨v, haccept, henv, hyo, hbi, hbo, hyi⟩)))

/-! ### Holds: without an abort and without the partner a stream primitive changes nothing -/

section
variable {s : State}

theorem inBit_hold (k : BitItem → Seq) (habort : s.blk.abortReq = false)
    (hoffer : s.env.bitIn = []) : inBit k s = s := by
  simp [inBit, unlessAborted, habort, hoffer]

theorem inByte_hold (k : ByteItem → Seq) (habort : s.blk.abortReq = false)
    (hoffer : s.env.byteIn = []) : inByte k s = s := by
  simp [inByte, unlessAborted, habort, hoffer]

theorem outBit_hold (b : Bool) (k : Seq) (habort : s.blk.abortReq = false)
    (hroom : s.env.bitRoom = 0) : outBit b k s = s := by
  simp [outBit, unlessAborted, habort, hroom]

theorem outByte_hold (v : Byte) (k : Seq) (habort : s.blk.abortReq = false)
    (hroom : s.env.byteRoom = 0) : outByte v k s = s := by
  simp [outByte, unlessAborted, habort, hroom]

end

/-! ### The engine's step at each position -/

/-- ENCODE's position `p` is at bit `index` of the code of `sym` (R54, R201). -/
def EncodeSends : EncodeProgress → Sym → Nat → Prop
  | .start, _, _ => False
  | .got (.byte v), sym, index => sym = symOfByte v ∧ index = 0
  | .got .endOfMessage, sym, index => sym = eof ∧ index = 0
  | .send sym' index', sym, index => sym = sym' ∧ index = index'

section
variable {s : State} {t : Tree} (hturn : s.env.turn = .engine)
include hturn

/-- WRITE_HEADER inside the header sends its next bit (R170). -/
theorem exec_writeHeader_bit {pos : Nat} {b : Bool} (hseq : s.blk.seq = .writeHeader pos)
    (htree : s.blk.tree = some t) (hbit : t.hdr[pos]? = some b) :
    exec .writeHeader s = .next (outBit b (.writeHeader (pos + 1)) s) := by
  simp only [exec, execWriteHeader, commandStep_engine _ _ hturn, engineWriteHeader, hseq, htree,
    hbit]

/-- READ_HEADER without an item to work on reads one (R176). -/
theorem exec_readHeader_first {p : ReadProgress} (hseq : s.blk.seq = .readHeader p)
    (hpend : p.pending = none) : exec .readHeader s = .next (readHeaderInBit p s) := by
  simp only [exec, execReadHeader, commandStep_engine _ _ hturn, engineReadHeader, hseq, hpend]

/-- READ_HEADER reads on after an item that leaves more to read (R176). -/
theorem exec_readHeader_more {p q : ReadProgress} {it : BitItem} (hseq : s.blk.seq = .readHeader p)
    (hpend : p.pending = some it) (hmore : readItem p it = .more q) :
    exec .readHeader s = .next (readHeaderInBit q s) := by
  simp only [exec, execReadHeader, commandStep_engine _ _ hturn, engineReadHeader, hseq, hpend,
    hmore]

/-- ENCODE's first step reads an item (R201). -/
theorem exec_encode_start (hseq : s.blk.seq = .encode .start) (htree : s.blk.tree = some t) :
    exec .encode s = .next (encodeInByte s) := by
  simp only [exec, execEncode, commandStep_engine _ _ hturn, engineEncode, hseq, htree]

/-- ENCODE at a bit of a mapped symbol's code goes on sending that code (R201). -/
theorem exec_encode_send {p : EncodeProgress} {sym : Sym} {index : Nat} {code : Bits}
    (hseq : s.blk.seq = .encode p) (htree : s.blk.tree = some t) (hp : EncodeSends p sym index)
    (hcode : t.codeOf sym = some code) : exec .encode s = encodeSend t sym index s := by
  simp only [exec, execEncode, commandStep_engine _ _ hturn, engineEncode, hseq, htree]
  cases p with
  | start => exact hp.elim
  | got item =>
    cases item with
    | byte v =>
      obtain ⟨rfl, rfl⟩ := hp
      simp only [encodeByte, hcode]
    | endOfMessage =>
      obtain ⟨rfl, rfl⟩ := hp
      rfl
  | send sym' index' =>
    obtain ⟨rfl, rfl⟩ := hp
    rfl

/-- An unmapped byte ends ENCODE (R202). -/
theorem exec_encode_unmapped {v : Byte} (hseq : s.blk.seq = .encode (.got (.byte v)))
    (htree : s.blk.tree = some t) (hcode : t.codeOf (symOfByte v) = none) :
    exec .encode s = .next (raise .encUnmapped (v.setWidth 32) s) := by
  simp only [exec, execEncode, commandStep_engine _ _ hturn, engineEncode, hseq, htree, encodeByte,
    hcode]

/-- DECODE after a byte reads the next bit at the root (R222). -/
theorem exec_decode_emitted (hseq : s.blk.seq = .decode .emitted) (htree : s.blk.tree = some t) :
    exec .decode s = .next (decodeInBit t s) := by
  simp only [exec, execDecode, commandStep_engine _ _ hturn, engineDecode, hseq, htree]

/-- DECODE goes to the node it looks at (R222). -/
theorem exec_decode_at {p : DecodeProgress} {cur : Tree} (hseq : s.blk.seq = .decode p)
    (htree : s.blk.tree = some t) (hcur : DecodeCursor t p cur) :
    exec .decode s = .next (decodeAt cur s) := by
  simp only [exec, execDecode, commandStep_engine _ _ hturn, engineDecode, hseq, htree]
  cases p with
  | start =>
    obtain rfl : cur = t := hcur
    rfl
  | emitted => exact hcur.elim
  | got prev item =>
    cases item with
    | eod => exact hcur.elim
    | bit b =>
      have hchild : prev.child? b = some cur := hcur
      simp only [hchild]

/-- The illegal rows share one engine step (R245). -/
theorem exec_of_isIllegal {i : Instr} (hill : isIllegal i = true) : exec i s = engineIllegal s := by
  cases i with
  | illegalOp7 | illegalOp8F | illegalRsv => exact commandStep_engine _ _ hturn
  | _ => cases hill

end

section
variable {s : State} {t : Tree} {sym : Sym} {index : Nat} {code : Bits}
  (hcode : t.codeOf sym = some code)
include hcode

theorem encodeSend_bit (hlt : index < code.length) :
    encodeSend t sym index s = .next (outBit code[index] (.encode (.send sym (index + 1))) s) := by
  simp only [encodeSend, hcode, List.getElem?_eq_getElem hlt]

theorem encodeSend_byte_sent (hle : code.length ≤ index) (hne : sym ≠ eof) :
    encodeSend t sym index s = .next (encodeInByte s) := by
  simp only [encodeSend, hcode, List.getElem?_eq_none hle, if_neg hne]

theorem encodeSend_eof_sent (hle : code.length ≤ index) (heof : sym = eof) :
    encodeSend t sym index s = .next (finish s) := by
  simp only [encodeSend, hcode, List.getElem?_eq_none hle, if_pos heof]

end

theorem decodeAt_branch {cur : Tree} (s : State) (h : cur.isBranch = true) :
    decodeAt cur s = decodeInBit cur s := by
  cases cur with
  | leaf => cases h
  | branch => rfl

theorem decodeAt_byte {sym : Sym} (s : State) (h : sym ≠ eof) :
    decodeAt (.leaf sym) s = outByte (byteOfSym sym) (.decode .emitted) s :=
  if_neg h

/-! ### Ends: a command whose own rule ends it does so in its next step -/

/-- At the node DECODE looks at, only the EOF leaf ends the command (R222). -/
theorem endsNow_decode_cursor {b : Block} {p : DecodeProgress} {t cur : Tree}
    (hseq : b.seq = .decode p) (htree : b.tree = some t) (hcur : DecodeCursor t p cur) :
    endsNow b ↔ cur = .leaf eof := by
  cases p with
  | start =>
    obtain rfl : cur = t := hcur
    simp [endsNow, hseq, htree]
  | emitted => exact hcur.elim
  | got prev item =>
    cases item with
    | eod => exact hcur.elim
    | bit x =>
      have hchild : prev.child? x = some cur := hcur
      rw [endsNow_decode_bit hseq htree, hchild, Option.some.injEq]

section
variable {s : State} (hturn : s.env.turn = .engine)
include hturn

/-- ENCODE ends at an unmapped byte and after the EOF code (R201, R202). -/
theorem exec_encode_of_endsNow {p : EncodeProgress} {tr : Tree} (hseq : s.blk.seq = .encode p)
    (htree : s.blk.tree = some tr) (hnow : endsNow s.blk) :
    ∃ e info, exec .encode s = .next (endCommand e info s) := by
  cases p with
  | start => simp [endsNow, hseq, htree] at hnow
  | got item =>
    cases item with
    | byte v =>
      have hcode : tr.codeOf (symOfByte v) = none := by simpa [endsNow, hseq, htree] using hnow
      exact ⟨_, _, exec_encode_unmapped hturn hseq htree hcode⟩
    | endOfMessage =>
      have hcode : tr.codeOf eof = some [] := by simpa [endsNow, hseq, htree] using hnow
      exact ⟨_, _, (exec_encode_send hturn hseq htree ⟨rfl, rfl⟩ hcode).trans
        (encodeSend_eof_sent hcode (Nat.zero_le _) rfl)⟩
  | send sym index =>
    obtain ⟨rfl, code, hcode, hle⟩ := (endsNow_encode_send hseq htree).1 hnow
    exact ⟨_, _, (exec_encode_send hturn hseq htree ⟨rfl, rfl⟩ hcode).trans
      (encodeSend_eof_sent hcode hle rfl)⟩

/-- An illegal command ends with its word as ERRINFO (R245). -/
theorem exec_illegal_of_endsNow {w : Word} (hseq : s.blk.seq = .illegal w)
    (hnow : endsNow s.blk) :
    exec (decodeCommand w) s = .next (endCommand .illegalCmd w s) := by
  have hill : isIllegal (decodeCommand w) = true := by simpa [endsNow, hseq] using hnow
  simp only [exec_of_isIllegal hturn hill, engineIllegal, hseq, raise]

/-- Where the command's own rule ends it, its step does. -/
theorem exec_ends_of_endsNow {i : Instr} {t : State} (hi : s.blk.seq.instr? = some i)
    (h : exec i s = .next t) (hnow : endsNow s.blk) : t.blk.seq = .idle ∧ t.blk.done = true := by
  have ends {e : ErrorCode} {info : Word} (hend : exec i s = .next (endCommand e info s)) :
      t.blk.seq = .idle ∧ t.blk.done = true := by
    obtain rfl : t = endCommand e info s := by simpa [h] using hend
    exact ⟨rfl, rfl⟩
  have encodeEnds {p : EncodeProgress} {tr : Tree} (hseq : s.blk.seq = .encode p)
      (htree : s.blk.tree = some tr) : t.blk.seq = .idle ∧ t.blk.done = true := by
    obtain rfl : Instr.encode = i := by simpa [hseq, Seq.instr?] using hi
    obtain ⟨e, info, hend⟩ := exec_encode_of_endsNow hturn hseq htree hnow
    exact ends hend
  cases exec_engineEffect hturn hi h with
  | ended | cleared | built | readWhole => exact ⟨rfl, rfl⟩
  | stuck w hseq =>
    obtain rfl : decodeCommand w = i := by simpa [hseq, Seq.instr?] using hi
    exact ends (exec_illegal_of_endsNow hturn hseq hnow)
  | headerBit pos tr b hseq htree hbit =>
    have hle := (endsNow_writeHeader hseq htree).1 hnow
    have hlt := (List.getElem?_eq_some_iff.1 hbit).1
    omega
  | readFirst p hseq hpend => simp [endsNow, hseq, hpend] at hnow
  | readNext p q it hseq hpend hmore => exact absurd hnow (not_endsNow_readHeader hseq hpend hmore)
  | encodeRead p tr hseq htree => exact encodeEnds hseq htree
  | encodeBit p tr sym code index b hseq htree => exact encodeEnds hseq htree
  | decodeRoot tr hseq htree => simp [endsNow, hseq, htree] at hnow
  | decodeRead p tr cur hseq htree hcur hbranch =>
    obtain rfl := (endsNow_decode_cursor hseq htree hcur).1 hnow
    cases hbranch
  | decodeByte p tr sym hseq htree hcur hne =>
    exact absurd (Tree.leaf.inj ((endsNow_decode_cursor hseq htree hcur).1 hnow)) hne

end

/-! ### The engine without its partner (R87, R275) -/

/-- No stream agent takes part and no abort is requested. -/
structure NoPartner (s : State) : Prop where
  abort : s.blk.abortReq = false
  bitIn : s.env.bitIn = []
  byteIn : s.env.byteIn = []
  bitRoom : s.env.bitRoom = 0
  byteRoom : s.env.byteRoom = 0

/-- Without any partner a step holds, or it ends the command by the command's own rule. -/
theorem engineEffect_noPartner {s t : State} (hno : NoPartner s) (h : EngineEffect s t) :
    t = s ∨ (t.env = s.env ∧ endsNow s.blk) := by
  obtain ⟨habort, hbitIn, hbyteIn, hbitRoom, hbyteRoom⟩ := hno
  cases h with
  | ended e info hnow => exact .inr ⟨rfl, hnow⟩
  | cleared hseq => exact .inr ⟨rfl, by simp [endsNow, hseq]⟩
  | built hseq => exact .inr ⟨rfl, by simp [endsNow, hseq]⟩
  | readWhole p it tr seen hseq hpend hcomplete =>
    exact .inr ⟨rfl, by simp [endsNow, hseq, hpend, hcomplete]⟩
  | stuck => exact .inl rfl
  | headerBit | encodeBit => exact .inl (outBit_hold _ _ habort hbitRoom)
  | readFirst | readNext | decodeRoot | decodeRead => exact .inl (inBit_hold _ habort hbitIn)
  | encodeRead => exact .inl (inByte_hold _ habort hbyteIn)
  | decodeByte => exact .inl (outByte_hold _ _ habort hbyteRoom)

/-- A whole turn of the engine without any partner ends the command exactly where its own rule ends
it, else leaves the block as it is, and moves nothing over the streams. -/
theorem step_engine_noPartner {s u : State} {rest : List AgentStep} (hno : NoPartner s)
    (hsched : s.env.schedule = .engine :: rest) (h : step s = .next u) :
    u.env = engineTurn s.env rest ∧ (¬ endsNow s.blk → u.blk = s.blk) ∧
      (endsNow s.blk → u.blk.seq = .idle ∧ u.blk.done = true) := by
  rcases step_engine_cases hsched h with ⟨hidle, rfl⟩ | ⟨i, hi, hexec⟩
  · exact ⟨rfl, fun _ => rfl, fun hnow => absurd hnow (not_endsNow_idle hidle)⟩
  · have hno' : NoPartner ⟨s.blk, engineTurn s.env rest⟩ :=
      ⟨hno.abort, hno.bitIn, hno.byteIn, hno.bitRoom, hno.byteRoom⟩
    have hends := exec_ends_of_endsNow (s := ⟨s.blk, engineTurn s.env rest⟩) rfl hi hexec
    rcases engineEffect_noPartner hno' (exec_engineEffect rfl hi hexec) with rfl | ⟨henv, hnow⟩
    · exact ⟨rfl, fun _ => rfl, hends⟩
    · exact ⟨henv, fun hnot => absurd hnow hnot, hends⟩

section
variable {s : State} {t : Tree} (hturn : s.env.turn = .engine) (habort : s.blk.abortReq = false)
include hturn habort

theorem exec_writeHeader_hold {pos : Nat} (hseq : s.blk.seq = .writeHeader pos)
    (htree : s.blk.tree = some t) (hlt : pos < t.hdr.length) (hroom : s.env.bitRoom = 0) :
    exec .writeHeader s = .next s := by
  rw [exec_writeHeader_bit hturn hseq htree (List.getElem?_eq_getElem hlt),
    outBit_hold _ _ habort hroom]

theorem exec_readHeader_hold {p : ReadProgress} (hseq : s.blk.seq = .readHeader p)
    (hp : p.pending = none ∨ ∃ it q, p.pending = some it ∧ readItem p it = .more q)
    (hoffer : s.env.bitIn = []) : exec .readHeader s = .next s := by
  rcases hp with hpend | ⟨it, q, hpend, hmore⟩
  · rw [exec_readHeader_first hturn hseq hpend, readHeaderInBit, inBit_hold _ habort hoffer]
  · rw [exec_readHeader_more hturn hseq hpend hmore, readHeaderInBit, inBit_hold _ habort hoffer]

/-- ENCODE holds at its start, where it reads an item. -/
theorem exec_encode_start_hold (hseq : s.blk.seq = .encode .start) (htree : s.blk.tree = some t)
    (hoffer : s.env.byteIn = []) : exec .encode s = .next s := by
  rw [exec_encode_start hturn hseq htree, encodeInByte, inByte_hold _ habort hoffer]

/-- ENCODE holds after the last bit of a byte's code, where it reads the next item. -/
theorem exec_encode_next_hold {p : EncodeProgress} {sym : Sym} {index : Nat} {code : Bits}
    (hseq : s.blk.seq = .encode p) (htree : s.blk.tree = some t) (hp : EncodeSends p sym index)
    (hcode : t.codeOf sym = some code) (hle : code.length ≤ index) (hne : sym ≠ eof)
    (hoffer : s.env.byteIn = []) : exec .encode s = .next s := by
  rw [exec_encode_send hturn hseq htree hp hcode, encodeSend_byte_sent hcode hle hne, encodeInByte,
    inByte_hold _ habort hoffer]

/-- ENCODE holds inside a code, where it sends a bit. -/
theorem exec_encode_bit_hold {p : EncodeProgress} {sym : Sym} {index : Nat} {code : Bits}
    (hseq : s.blk.seq = .encode p) (htree : s.blk.tree = some t) (hp : EncodeSends p sym index)
    (hcode : t.codeOf sym = some code) (hlt : index < code.length) (hroom : s.env.bitRoom = 0) :
    exec .encode s = .next s := by
  rw [exec_encode_send hturn hseq htree hp hcode, encodeSend_bit hcode hlt,
    outBit_hold _ _ habort hroom]

theorem exec_decode_emitted_hold (hseq : s.blk.seq = .decode .emitted)
    (htree : s.blk.tree = some t) (hoffer : s.env.bitIn = []) : exec .decode s = .next s := by
  rw [exec_decode_emitted hturn hseq htree, decodeInBit, inBit_hold _ habort hoffer]

/-- DECODE holds at a branch, where it reads a bit. -/
theorem exec_decode_branch_hold {p : DecodeProgress} {cur : Tree} (hseq : s.blk.seq = .decode p)
    (htree : s.blk.tree = some t) (hcur : DecodeCursor t p cur) (hbranch : cur.isBranch = true)
    (hoffer : s.env.bitIn = []) : exec .decode s = .next s := by
  rw [exec_decode_at hturn hseq htree hcur, decodeAt_branch s hbranch, decodeInBit,
    inBit_hold _ habort hoffer]

/-- DECODE holds at a byte's leaf, where it sends the byte. -/
theorem exec_decode_byte_hold {p : DecodeProgress} {sym : Sym} (hseq : s.blk.seq = .decode p)
    (htree : s.blk.tree = some t) (hcur : DecodeCursor t p (.leaf sym)) (hne : sym ≠ eof)
    (hroom : s.env.byteRoom = 0) : exec .decode s = .next s := by
  rw [exec_decode_at hturn hseq htree hcur, decodeAt_byte s hne, outByte_hold _ _ habort hroom]

end

/-- Settles O32: the whole turn from the effect of the engine's step, and each position by its hold
lemma. -/
theorem engineHoldsForItsPartner : Obligations.EngineHoldsForItsPartner := by
  refine ⟨fun s u rest habort hbitIn hbyteIn hbitRoom hbyteRoom hsched h =>
    step_engine_noPartner ⟨habort, hbitIn, hbyteIn, hbitRoom, hbyteRoom⟩ hsched h, ?_⟩
  intro s t hturn habort
  refine ⟨fun pos htree hseq hlt hroom => exec_writeHeader_hold hturn habort hseq htree hlt hroom,
    fun p hseq hp hoffer => exec_readHeader_hold hturn habort hseq hp hoffer, ?_, ?_, ?_, ?_⟩
  · rintro htree hoffer (hseq | ⟨sym, index, code, hseq, hne, hcode, hle⟩ | ⟨v, hseq, hcode⟩)
    · exact exec_encode_start_hold hturn habort hseq htree hoffer
    · exact exec_encode_next_hold hturn habort hseq htree ⟨rfl, rfl⟩ hcode hle hne hoffer
    · exact exec_encode_next_hold hturn habort hseq htree ⟨rfl, rfl⟩ hcode (Nat.zero_le _)
        (symOfByte_ne_eof v) hoffer
  · rintro sym index code htree hroom hcode hlt (hseq | ⟨rfl, v, hseq, rfl⟩ | ⟨rfl, hseq, rfl⟩)
    all_goals exact exec_encode_bit_hold hturn habort hseq htree ⟨rfl, rfl⟩ hcode hlt hroom
  · rintro cur htree hoffer (⟨hseq, rfl, hbranch⟩ | ⟨hseq, rfl⟩ | ⟨above, b, hseq, hchild, hbranch⟩)
    · exact exec_decode_branch_hold hturn habort hseq htree rfl hbranch hoffer
    · exact exec_decode_emitted_hold hturn habort hseq htree hoffer
    · exact exec_decode_branch_hold hturn habort hseq htree hchild hbranch hoffer
  · rintro sym htree hroom hne (⟨hseq, rfl⟩ | ⟨above, b, hseq, hchild⟩)
    · exact exec_decode_byte_hold hturn habort hseq htree rfl hne hroom
    · exact exec_decode_byte_hold hturn habort hseq htree hchild hne hroom

end Sys2Proof.Proofs
end

section
/-! PROOFS. The encodings: command words, bus transactions, the header's length and its symbol field
(30_encoding.md R110 to R112, R115, R116, R118, R123). -/

namespace Sys2Proof.Proofs

open Sys2Proof Sys2Proof.Machine Sys2Proof.Safety Sys2Proof.Laws

/-! ### Command words -/

/-- Every word with RSV not 0 is the row ILLEGAL of its two fields (R112). -/
theorem decodeCommand_of_rsv_ne_zero {w : Word} (hrsv : w.extractLsb' 4 28 ≠ 0) :
    decodeCommand w = .illegalRsv (w.extractLsb' 4 28) (w.extractLsb' 0 4) := if_pos hrsv

/-- A word with RSV = 0 is its opcode alone, so a statement about every word is one about sixteen
words and one about the words with RSV not 0 (R110). -/
theorem word_cases {P : Word → Prop} (opcode : ∀ op, P (rsvWord 0 op))
    (reserved : ∀ w : Word, w.extractLsb' 4 28 ≠ 0 → P w) (w : Word) : P w := by
  by_cases hrsv : w.extractLsb' 4 28 = 0
  · rw [← rsvWord_fields w, hrsv]
    exact opcode _
  · exact reserved w hrsv

theorem decodeCommand_rsvWord {rsv : BitVec 28} (op : BitVec 4) (hrsv : rsv ≠ 0) :
    decodeCommand (rsvWord rsv op) = .illegalRsv rsv op := by
  rw [decodeCommand_of_rsv_ne_zero ((rsvWord_rsv rsv op).symm ▸ hrsv), rsvWord_rsv, rsvWord_op]

theorem decodeCommand_op8FWord (low : BitVec 3) :
    decodeCommand (op8FWord low) = .illegalOp8F low := by
  revert low
  decide

/-- Every word is the word of the command that it selects (R111, R112). -/
theorem encode_decodeCommand (w : Word) : encode (decodeCommand w) = ⟨regOffset .cmd, .write w⟩ := by
  induction w using word_cases with
  | opcode op => revert op; decide
  | reserved w hrsv => rw [decodeCommand_of_rsv_ne_zero hrsv, encode, rsvWord_fields]

/-- Settles O3: with RSV = 0 by the sixteen opcodes, and else every word is of one illegal row. -/
theorem commandWordSelectsItsOpcode : Obligations.CommandWordSelectsItsOpcode := by
  intro w
  induction w using word_cases with
  | opcode op => revert op; decide
  | reserved w hrsv =>
    simp only [decodeCommand_of_rsv_ne_zero hrsv, isIllegal, hrsv, reduceCtorEq, false_and, ne_eq,
      not_false_eq_true, true_or, and_self]

/-! ### Transactions -/

/-- The register map read forwards: a register's offset is aligned, and that register stands at it
(R32). -/
theorem regAt_regOffset (r : Reg) :
    (regOffset r).extractLsb' 0 2 = 0 ∧ regAt (regOffset r) = r := by
  cases r with
  | freq v => exact regAt_freqOffset v
  | codeBits k => revert k; decide
  | _ => decide

/-- A transaction at a register's offset is decoded by the register (R123). -/
theorem decode_regOffset (r : Reg) (op : BusOp) : decode ⟨regOffset r, op⟩ = decodeReg r op := by
  obtain ⟨halign, hreg⟩ := regAt_regOffset r
  rw [decode, if_neg (not_not.2 halign), hreg]

/-- Settles O1: the register of the operation's offset is the one that the decoder finds, and the
illegal rows are read back from their fields. -/
theorem decodeOfEncodeIsTheInstruction : Obligations.DecodeOfEncodeIsTheInstruction := by
  intro i hwf
  cases i with
  | setf v n => exact decode_regOffset (.freq v) (.write n)
  | rdFreq v => exact decode_regOffset (.freq v) .read
  | wrCodeSel data => exact decode_regOffset .codeSel (.write data)
  | abort data => exact decode_regOffset .ctrl (.write data)
  | illegalOp8F low =>
    exact (decode_regOffset .cmd _).trans (congrArg Decoded.instr (decodeCommand_op8FWord low))
  | illegalRsv rsv op =>
    have hrsv : rsv ≠ 0 := by simpa [Instr.wellFormed] using hwf
    exact (decode_regOffset .cmd _).trans (congrArg Decoded.instr (decodeCommand_rsvWord op hrsv))
  | _ => exact (decode_regOffset .cmd _).trans (by decide)

/-- An operation comes only from an aligned transaction on a register (R82, R123). -/
theorem decode_eq_instr {t : Txn} {i : Instr} (h : decode t = .instr i) :
    t.offset.extractLsb' 0 2 = 0 ∧ decodeReg (regAt t.offset) t.op = .instr i := by
  unfold decode at h
  split at h
  · cases h
  · next halign => exact ⟨not_not.1 halign, h⟩

/-- Only CMD, CTRL, CODE_SEL and FREQ_v answer with an operation, and each of them stands at one
offset alone (R32, R123). -/
theorem encode_of_decodeReg {off : BitVec 11} {op : BusOp} {i : Instr}
    (halign : off.extractLsb' 0 2 = 0) (h : decodeReg (regAt off) op = .instr i) :
    encode i = ⟨off, op⟩ := by
  have hoff := regOffset_regAt off halign
  generalize regAt off = r at h hoff
  unfold decodeReg at h
  split at h <;> cases h <;> subst hoff
  · exact encode_decodeCommand _
  all_goals rfl

/-- Settles O2. -/
theorem encodeOfDecodeIsTheTransaction : Obligations.EncodeOfDecodeIsTheTransaction := by
  intro t i h
  obtain ⟨halign, hreg⟩ := decode_eq_instr h
  exact ⟨encode_of_decodeReg halign hreg, decodeReg_wellFormed hreg⟩

/-- Settles O4: each sample transaction is the encoding of its operation. -/
theorem sampleWordsDecodeAsTheTableSays : Obligations.SampleWordsDecodeAsTheTableSays :=
  have h := decodeOfEncodeIsTheInstruction
  ⟨h .build rfl, h .decode rfl, h (.illegalRsv 1 2) rfl, h (.illegalOp8F 3) rfl, h (.setf 65 5) rfl,
    h (.rdFreq 255) rfl, h (.wrCodeSel 256) rfl, h (.abort 1) rfl⟩

/-! ### The header and its symbol field -/

/-- Settles O38: a header has 11 bits a branch and 10 more, and a tree one leaf more than branches,
of which a valid tree has at most 256 (R118). -/
theorem headerHasElevenBitsALeafLessOne : Obligations.HeaderHasElevenBitsALeafLessOne := by
  intro t
  have hhdr := hdr_length t
  have hleaves := leaves_length t
  refine ⟨by omega, fun ht => ?_⟩
  have hle := leaves_length_le t ht.2
  omega

/-- Bit i of a bit string's number is its i-th bit. -/
theorem getElem?_eq_testBit_valueLE (bs : Bits) {i : Nat} (hi : i < bs.length) :
    bs[i]? = some ((valueLE bs).testBit i) := by
  rw [valueLE_testBit, List.getElem?_eq_getElem hi, Option.getD_some]

/-- Settles O39: the field's number is v, so its bits are v's. -/
theorem symbolFieldIsNineBitsLsbFirst : Obligations.SymbolFieldIsNineBitsLsbFirst := by
  intro v hv
  have hval : valueLE (f9 v) = v := valueLE_bitsLE 9 v hv
  refine ⟨f9_length v, fun i hi => ?_, hval⟩
  rw [getElem?_eq_testBit_valueLE _ (by rwa [f9_length]), hval]

end Sys2Proof.Proofs
end

section
/-! PROOFS. The tree builder (40_tree_builder.md): the bus operations on the FREQ file and CODE_SEL,
the engine steps of CLEAR_FREQ and BUILD, and the tree that BUILD makes. -/

namespace Sys2Proof.Proofs

open Sys2Proof Sys2Proof.Machine Sys2Proof.Safety Sys2Proof.Laws

/-! ### The leaves of BUILD's tree (R144, R148) -/

theorem countedSyms_length (v : Nat) (cs : List Word) :
    (countedSyms v cs).length = (cs.filter (· ≠ 0)).length := by
  induction cs generalizing v with
  | nil => rfl
  | cons c cs ih =>
    rcases eq_or_ne c 0 with rfl | hc
    · rw [countedSyms_zero_cons, ih, List.filter_cons_of_neg (by simp)]
    · rw [countedSyms_cons_of_ne _ hc, List.length_cons, ih, List.filter_cons_of_pos (by simpa),
        List.length_cons]

/-- A symbol is counted exactly when its count is not 0. -/
theorem mem_countedSyms {v : Nat} {cs : List Word} (hv : v + cs.length ≤ 256) {i : Nat}
    (hi : i < cs.length) : Fin.ofNat 257 (v + i) ∈ countedSyms v cs ↔ cs[i] ≠ 0 := by
  induction cs generalizing v i with
  | nil => exact absurd hi (by simp)
  | cons c cs ih =>
    simp only [List.length_cons] at hv hi
    cases i with
    | zero =>
      have hlater : Fin.ofNat 257 v ∉ countedSyms (v + 1) cs := fun hmem => by
        have hle := (countedSyms_mem (by omega) hmem).1
        simp only [Fin.val_ofNat] at hle
        omega
      rcases eq_or_ne c 0 with rfl | hc
      · rw [countedSyms_zero_cons]
        exact iff_of_false hlater (not_not.2 rfl)
      · rw [countedSyms_cons_of_ne _ hc]
        exact iff_of_true List.mem_cons_self hc
    | succ i =>
      have hrest := ih (v := v + 1) (i := i) (by omega) (by omega)
      rw [show v + 1 + i = v + (i + 1) by omega] at hrest
      rcases eq_or_ne c 0 with rfl | hc
      · rw [countedSyms_zero_cons, hrest, List.getElem_cons_succ]
      · have hfirst : Fin.ofNat 257 (v + (i + 1)) ≠ Fin.ofNat 257 v := fun heq => by
          have hval := congrArg Fin.val heq
          simp only [Fin.val_ofNat] at hval
          omega
        rw [countedSyms_cons_of_ne _ hc, List.mem_cons, or_iff_right hfirst, hrest,
          List.getElem_cons_succ]

theorem ofNat_ne_eof {v : Nat} (hv : v < 256) : Fin.ofNat 257 v ≠ eof := fun heq => by
  have hval := congrArg Fin.val heq
  simp only [Fin.val_ofNat, show (eof : Sym).val = 256 from rfl] at hval
  omega

/-- The byte value v is in BUILD's tree exactly when FREQ_v is not 0 (R148). -/
theorem mem_buildTree_leaves (freq : Vector Word 256) {v : Nat} (hv : v < 256) :
    Fin.ofNat 257 v ∈ (buildTree freq).leaves ↔ freq[v] ≠ 0 := by
  have hcounted := mem_countedSyms (v := 0) (cs := freq.toList) (by simp) (i := v) (by simpa)
  rw [Nat.zero_add] at hcounted
  rw [(buildTree_leaves_perm freq).mem_iff, List.mem_append, List.mem_singleton,
    or_iff_left (ofNat_ne_eof hv), hcounted, Vector.getElem_toList]

/-- Settles O40: the leaves are a permutation of the counted symbols and EOF. -/
theorem buildTreeHasTheNonzeroSymbolsAndEof :
    Obligations.BuildTreeHasTheNonzeroSymbolsAndEof := by
  intro freq
  refine ⟨buildTree_valid freq, fun v hv => mem_buildTree_leaves freq hv, ?_⟩
  rw [(buildTree_leaves_perm freq).length_eq, List.length_append, countedSyms_length,
    List.length_singleton]

/-! ### The weights (R147) -/

/-- The leaves that BUILD starts from weigh what the counts add up to, and EOF's 1 (R144). -/
theorem leafNodes_weight (v k : Nat) (cs : List Word) :
    ((leafNodes v k cs).map Node.w).sum = (cs.map BitVec.toNat).sum + 1 := by
  induction cs generalizing v k with
  | nil => rfl
  | cons c cs ih =>
    rcases eq_or_ne c 0 with rfl | hc
    · rw [leafNodes_zero_cons, ih]
      simp
    · simp [leafNodes_cons_of_ne _ _ hc, ih, Nat.add_assoc]

/-- BUILD's tree is that of the root its loop ends with (R146). -/
theorem buildTree_of_root {freq : Vector Word 256} {root : Node}
    (hroot : buildRoot freq.toList = some root) : buildTree freq = root.t := by
  rw [buildTree, hroot]

theorem sum_counts_le (cs : List Word) :
    (cs.map BitVec.toNat).sum ≤ cs.length * (2 ^ 32 - 1) := by
  have hle := List.sum_le_card_nsmul (cs.map BitVec.toNat) (2 ^ 32 - 1) fun n hn => by
    obtain ⟨c, -, rfl⟩ := List.mem_map.1 hn
    exact Nat.le_sub_one_of_lt c.isLt
  simpa using hle

/-- Settles O41: a merge adds weights, so the root weighs what the leaves weighed. -/
theorem buildWeightsAreExact : Obligations.BuildWeightsAreExact := by
  intro freq
  obtain ⟨root, hroot⟩ := Option.isSome_iff_exists.1 (buildRoot_isSome freq.toList)
  have hweight : root.w = (freq.toList.map BitVec.toNat).sum + 1 :=
    (mergeNodes_keeps Node.w (fun _ _ _ => rfl) _ _ _ root hroot).trans (leafNodes_weight 0 0 _)
  refine ⟨root, hroot, (buildTree_of_root hroot).symm, hweight, ?_⟩
  have hle := sum_counts_le freq.toList
  rw [Vector.length_toList] at hle
  omega

/-! ### The order of removal (R145) -/

theorem before_iff (a b : Node) : a.before b = true ↔ a.w < b.w ∨ (a.w = b.w ∧ a.k < b.k) := by
  simp [Node.before]

/-- The order of R145 is total but for equal weights and sequence numbers. -/
theorem not_before_iff (a b : Node) :
    ¬ a.before b = true ↔ b.w < a.w ∨ (b.w = a.w ∧ b.k ≤ a.k) := by
  rw [before_iff]
  omega

/-- No node that is left comes before the one removed. -/
theorem takeFirst_not_before {q r : List Node} {m : Node} (h : takeFirst q = some (m, r)) :
    ∀ x ∈ r, ¬ x.before m = true := by
  induction q generalizing m r with
  | nil => simp [takeFirst] at h
  | cons a rest ih =>
    simp only [takeFirst] at h
    cases hrest : takeFirst rest with
    | none =>
      obtain ⟨rfl, rfl⟩ : a = m ∧ [] = r := by simpa [hrest] using h
      simp
    | some p =>
      obtain ⟨m', q'⟩ := p
      have hleft := ih hrest
      simp only [hrest] at h
      split at h
      case isTrue hbefore =>
        obtain ⟨rfl, rfl⟩ : m' = m ∧ a :: q' = r := by simpa using h
        have hfirst : ¬ a.before m' = true := by
          rw [before_iff] at hbefore
          rw [not_before_iff]
          omega
        exact List.forall_mem_cons.2 ⟨hfirst, hleft⟩
      case isFalse hbefore =>
        obtain ⟨rfl, rfl⟩ : a = m ∧ rest = r := by simpa using h
        intro x hx
        rcases List.mem_cons.1 ((takeFirst_perm hrest).subset hx) with rfl | hx
        · exact hbefore
        · have hm' := hleft x hx
          rw [not_before_iff] at hbefore hm' ⊢
          omega

/-- Settles O42: no node left comes before the one removed, and none has its sequence number. -/
theorem buildRemovesTheFirstNode : Obligations.BuildRemovesTheFirstNode := by
  intro q r m hnodup h
  have hperm := takeFirst_perm h
  refine ⟨hperm, fun x hx => ?_⟩
  have hdiffer := (List.nodup_cons.1 ((hperm.map Node.k).nodup_iff.1 hnodup)).1
  have hne : m.k ≠ x.k := fun heq => hdiffer (heq ▸ List.mem_map_of_mem hx)
  have hle := (not_before_iff x m).1 (takeFirst_not_before h x hx)
  omega

/-! ### Files with at most one nonzero count (R146 (a), (b)) -/

/-- Zero counts before the others make no leaf. -/
theorem leafNodes_replicate_zero_append (v k n : Nat) (cs : List Word) :
    leafNodes v k (List.replicate n 0 ++ cs) = leafNodes (v + n) k cs := by
  induction n generalizing v with
  | zero => rfl
  | succ n ih =>
    rw [List.replicate_succ, List.cons_append, leafNodes_zero_cons, ih, Nat.add_assoc,
      Nat.add_comm 1]

theorem leafNodes_replicate_zero (v k n : Nat) :
    leafNodes v k (List.replicate n 0) = [⟨1, k, .leaf eof⟩] := by
  rw [← List.append_nil (List.replicate n 0), leafNodes_replicate_zero_append, leafNodes]

/-- One nonzero count makes its leaf and EOF's. -/
theorem leafNodes_one_count (m n : Nat) {c : Word} (hc : c ≠ 0) :
    leafNodes 0 0 (List.replicate m 0 ++ c :: List.replicate n 0) =
      [⟨c.toNat, 0, .leaf (Fin.ofNat 257 m)⟩, ⟨1, 1, .leaf eof⟩] := by
  rw [leafNodes_replicate_zero_append, leafNodes_cons_of_ne _ _ hc, leafNodes_replicate_zero,
    Nat.zero_add]

/-- A file that is 0 but for FREQ_v, as a list. -/
theorem toList_of_one_count {freq : Vector Word 256} {v : Nat} (hv : v < 256)
    (hzero : ∀ (u : Nat) (hu : u < 256), u ≠ v → freq[u] = 0) :
    freq.toList = List.replicate v 0 ++ freq[v] :: List.replicate (255 - v) 0 := by
  apply List.ext_getElem
  · simp only [Vector.length_toList, List.length_append, List.length_replicate, List.length_cons]
    omega
  · intro u hu _
    rw [Vector.length_toList] at hu
    rw [Vector.getElem_toList]
    rcases Nat.lt_trichotomy u v with hlt | rfl | hgt
    · simp [List.getElem_append_left, hlt, hzero u hu (by omega)]
    · simp
    · simp [List.getElem_append_right, hgt.le, List.getElem_cons, hzero u hu (by omega),
        (Nat.sub_pos_of_lt hgt).ne']

/-- Two nodes end as one branch, the first by weight, then by sequence number, on the left. -/
theorem mergeNodes_pair (k : Nat) (a b : Node) :
    mergeNodes 2 k [a, b] = some (if b.before a
      then ⟨b.w + a.w, k, .branch b.t a.t⟩ else ⟨a.w + b.w, k, .branch a.t b.t⟩) := by
  cases h : b.before a <;> simp [mergeNodes, takeFirst, h]

/-- BUILD of one nonzero count joins its leaf and EOF's, the heavier on the right (R146 (b)). -/
theorem buildTree_of_one_count {freq : Vector Word 256} {v : Nat} (hv : v < 256)
    (hzero : ∀ (u : Nat) (hu : u < 256), u ≠ v → freq[u] = 0) (hc : freq[v] ≠ 0) :
    buildTree freq = if 1 < freq[v].toNat
      then .branch (.leaf eof) (.leaf (Fin.ofNat 257 v))
      else .branch (.leaf (Fin.ofNat 257 v)) (.leaf eof) := by
  have hroot : buildRoot freq.toList = mergeNodes 2 2
      [⟨freq[v].toNat, 0, .leaf (Fin.ofNat 257 v)⟩, ⟨1, 1, .leaf eof⟩] := by
    rw [buildRoot, toList_of_one_count hv hzero, leafNodes_one_count _ _ hc]
    rfl
  rw [buildTree_of_root (hroot.trans (mergeNodes_pair _ _ _)), apply_ite Node.t]
  simp [before_iff]

/-- Settles O43: the empty file leaves the EOF leaf alone, and a single count decides by its weight
against EOF's 1. -/
theorem buildOfAtMostOneSymbol : Obligations.BuildOfAtMostOneSymbol := by
  refine ⟨fun freq hzero => ?_, fun freq v hv hzero => ⟨fun hone => ?_, fun htwo => ?_⟩⟩
  · have hlist : freq.toList = List.replicate 256 0 :=
      List.eq_replicate_iff.2 ⟨Vector.length_toList, fun c hc => by
        obtain ⟨u, hu, rfl⟩ := Vector.getElem_of_mem (Vector.mem_toList_iff.1 hc)
        exact hzero u hu⟩
    apply buildTree_of_root (root := ⟨1, 0, .leaf eof⟩)
    rw [buildRoot, hlist, leafNodes_replicate_zero]
    rfl
  · rw [buildTree_of_one_count hv hzero (by simp [hone]), hone]
    rfl
  · have hc : freq[v] ≠ 0 := fun h => by simp [h] at htwo
    exact (buildTree_of_one_count hv hzero hc).trans (if_pos htwo)

/-! ### Bus operations (R141, R142, R150) -/

section
variable {s : State}

theorem writeWhenIdle_of_idle (write : State → State) (hidle : s.blk.seq = .idle) :
    writeWhenIdle write s = write s :=
  if_neg (by simp [(busy_eq_false _).2 hidle])

/-- SETF while BUSY = 0 (R141). -/
theorem exec_setf_idle (v : BitVec 8) (n : Word) (hidle : s.blk.seq = .idle) :
    exec (.setf v n) s = .next { s with blk := s.blk.setFreq v n } :=
  congrArg Host.Outcome.next (writeWhenIdle_of_idle _ hidle)

/-- WR CODE_SEL while BUSY = 0 (R150). -/
theorem exec_wrCodeSel_idle (data : Word) (hidle : s.blk.seq = .idle) :
    exec (.wrCodeSel data) s =
      .next { s with blk := { s.blk with codeSel := data.extractLsb' 0 9 } } :=
  congrArg Host.Outcome.next (writeWhenIdle_of_idle _ hidle)

/-- RD FREQ while BUSY = 0 (R142). -/
theorem exec_rdFreq_idle (v : BitVec 8) (hidle : s.blk.seq = .idle) :
    exec (.rdFreq v) s = .next (hostTakes (s.blk.freqAt v) s) := by
  simp only [exec, execRdFreq, hostReadReg, Block.readReg, whenIdle_of_idle _ hidle]

/-- RD FREQ while BUSY = 1 (R57, R142). -/
theorem exec_rdFreq_busy (v : BitVec 8) (hbusy : s.blk.seq ≠ .idle) :
    exec (.rdFreq v) s = .next (hostDraws s) := by
  simp only [exec, execRdFreq, hostReadReg, Block.readReg, whenIdle_of_busy _ hbusy]

end

/-- Settles O19: the leaf of v by the tree of the file that SETF leaves. -/
theorem setfStoresTheCount : Obligations.SetfStoresTheCount := by
  intro v n s
  refine ⟨fun hidle => ⟨_, exec_setf_idle v n hidle, ?_, fun u hu hne => ?_, ?_, rfl, rfl⟩,
    fun hbusy => congrArg Host.Outcome.next (writeWhenIdle_of_busy _ hbusy)⟩
  · exact freqAt_setFreq_self s.blk v n
  · exact Vector.getElem_set_ne v.isLt hu hne.symm
  · rw [mem_buildTree_leaves _ v.isLt]
    exact not_congr (Eq.congr_left (freqAt_setFreq_self s.blk v n))

/-- Settles O21: the nine bits kept are the remainder modulo 512. -/
theorem wrCodeSelKeepsNineBits : Obligations.WrCodeSelKeepsNineBits := by
  intro data s
  refine ⟨fun hidle => ⟨_, exec_wrCodeSel_idle data hidle, ?_, rfl, rfl⟩,
    fun hbusy => congrArg Host.Outcome.next (writeWhenIdle_of_busy _ hbusy)⟩
  simp

/-! ### The engine's steps (R143, R146) -/

section
variable {s : State} (hturn : s.env.turn = .engine)
include hturn

/-- CLEAR_FREQ's one step, whether or not an abort is requested (R143, R246). -/
theorem exec_clearFreq (hseq : s.blk.seq = .clearFreq) :
    exec .clearFreq s =
      .next (finish { s with blk := { s.blk with freq := Vector.replicate 256 0 } }) := by
  simp only [exec, execClearFreq, commandStep_engine _ _ hturn, engineClearFreq, hseq]

/-- BUILD's one step, whether or not an abort is requested (R146, R246). -/
theorem exec_build (hseq : s.blk.seq = .build) :
    exec .build s =
      .next (finish { s with blk := { s.blk with tree := some (buildTree s.blk.freq) } }) := by
  simp only [exec, execBuild, commandStep_engine _ _ hturn, engineBuild, hseq]

end

/-- Settles O27: the engine's step replaces the file by zeroes and ends the command. -/
theorem clearFreqZeroesTheFile : Obligations.ClearFreqZeroesTheFile := by
  intro s hturn hseq
  exact ⟨_, exec_clearFreq hturn hseq, fun v hv => Vector.getElem_replicate hv, rfl, rfl⟩

/-- Settles O28: the engine's step stores the tree and ends the command. -/
theorem buildStoresTheTreeAndEnds : Obligations.BuildStoresTheTreeAndEnds :=
  fun _ hturn hseq => exec_build hturn hseq

/-- Settles O20: after BUILD's step the engine is IDLE and the FREQ file is the one BUILD used. -/
theorem rdFreqReturnsTheCount : Obligations.RdFreqReturnsTheCount := by
  intro v s
  refine ⟨fun hidle => exec_rdFreq_idle v hidle, fun hbusy => exec_rdFreq_busy v hbusy,
    fun hturn hseq => ?_⟩
  exact ⟨_, _, exec_build hturn hseq, exec_rdFreq_idle v rfl, rfl⟩

end Sys2Proof.Proofs
end

section
/-! PROOFS. The header codec: what WRITE_HEADER and READ_HEADER do at each position, and their whole
runs (41_header_codec.md R170 to R180). -/

namespace Sys2Proof.Proofs

open Sys2Proof Sys2Proof.Machine Sys2Proof.Safety Sys2Proof.Laws

/-! ### The first step without a tree (R170, R201, R222) -/

/-- Settles O29: TREE_VALID is tested before any transaction, so no abort test comes first. -/
theorem noTreeEndsTheCommandAtItsFirstStep : Obligations.NoTreeEndsTheCommandAtItsFirstStep := by
  intro s hturn htree
  refine ⟨fun hseq => ?_, fun hseq => ?_, fun hseq => ?_⟩
  · simp only [exec, execWriteHeader, commandStep_engine _ _ hturn, engineWriteHeader, hseq, htree]
    rfl
  · simp only [exec, execEncode, commandStep_engine _ _ hturn, engineEncode, hseq, htree]
    rfl
  · simp only [exec, execDecode, commandStep_engine _ _ hturn, engineDecode, hseq, htree]
    rfl

/-! ### Transactions: without an abort and with the partner a stream primitive moves its item -/

section
variable {s : State} (habort : s.blk.abortReq = false)
include habort

theorem inBit_take (k : BitItem → Seq) {it : BitItem} {more : List BitItem}
    (hoffer : s.env.bitIn = it :: more) : inBit k s = setSeq (k it) (takeBitItem it more s) := by
  simp only [inBit, unlessAborted, habort, hoffer, Bool.false_eq_true, if_false]

theorem outBit_give (b : Bool) (k : Seq) {room : Nat} (hroom : s.env.bitRoom = room + 1) :
    outBit b k s = setSeq k (giveBit b room s) := by
  simp only [outBit, unlessAborted, habort, hroom, Bool.false_eq_true, if_false]

end

/-- A counter that has counted one item and then `n` more (R47). -/
theorem count_succ (c : Word) (n : Nat) :
    c + 1#32 + BitVec.ofNat 32 n = c + BitVec.ofNat 32 (n + 1) := by
  rw [Nat.add_comm n 1, BitVec.ofNat_add, BitVec.add_assoc]

/-! ### WRITE_HEADER -/

/-- WRITE_HEADER past the last bit of the header ends with success (R170). -/
theorem exec_writeHeader_end {s : State} {t : Tree} {pos : Nat} (hturn : s.env.turn = .engine)
    (hseq : s.blk.seq = .writeHeader pos) (htree : s.blk.tree = some t)
    (hle : t.hdr.length ≤ pos) : exec .writeHeader s = .next (finish s) := by
  simp only [exec, execWriteHeader, commandStep_engine _ _ hturn, engineWriteHeader, hseq, htree,
    List.getElem?_eq_none hle]

/-- WRITE_HEADER inside the header gives its next bit to a sink that accepts (R170). -/
theorem exec_writeHeader_give {s : State} {t : Tree} {pos room : Nat} {b : Bool}
    (hturn : s.env.turn = .engine) (habort : s.blk.abortReq = false)
    (hseq : s.blk.seq = .writeHeader pos) (htree : s.blk.tree = some t)
    (hbit : t.hdr[pos]? = some b) (hroom : s.env.bitRoom = room + 1) :
    exec .writeHeader s = .next (setSeq (.writeHeader (pos + 1)) (giveBit b room s)) := by
  rw [exec_writeHeader_bit hturn hseq htree hbit, outBit_give habort _ _ hroom]

/-- Settles O44. -/
theorem writeHeaderStepSendsTheNextBit : Obligations.WriteHeaderStepSendsTheNextBit := by
  intro s t pos hturn habort hseq htree
  exact ⟨fun hlt room hroom => exec_writeHeader_give hturn habort hseq htree
    (List.getElem?_eq_getElem hlt) hroom, fun hle => exec_writeHeader_end hturn hseq htree hle⟩

/-- The run of WRITE_HEADER from any position, by the bits of the header still to be sent (R170). -/
theorem run_writeHeader {t : Tree} {rest : List AgentStep} (bits : Bits) {s : State} {pos : Nat}
    (hbits : t.hdr.drop pos = bits) (hseq : s.blk.seq = .writeHeader pos)
    (htree : s.blk.tree = some t) (habort : s.blk.abortReq = false)
    (hroom : bits.length ≤ s.env.bitRoom)
    (hsched : s.env.schedule = List.replicate (bits.length + 1) .engine ++ rest) :
    run (bits.length + 1) s = .next
      ⟨{ ended s.blk .none false 0 with bitsOut := s.blk.bitsOut + BitVec.ofNat 32 bits.length },
        { engineTurn s.env rest with
          bitOut := s.env.bitOut ++ bits, bitRoom := s.env.bitRoom - bits.length }⟩ := by
  have hi : s.blk.seq.instr? = some .writeHeader := by rw [hseq]; rfl
  induction bits generalizing s pos with
  | nil =>
    rw [run_engine hsched hi
      (exec_writeHeader_end rfl hseq htree (List.drop_eq_nil_iff.1 hbits))]
    simp [run, finish, endCommand, ended, engineTurn]
  | cons b bs ih =>
    have hbit : t.hdr[pos]? = some b := by
      rw [← List.head?_drop, hbits, List.head?_cons]
    have hdrop : t.hdr.drop (pos + 1) = bs := by
      rw [← List.drop_drop, hbits, List.drop_one, List.tail_cons]
    obtain ⟨room, hroom'⟩ : ∃ room, s.env.bitRoom = room + 1 :=
      Nat.exists_eq_add_one_of_ne_zero (by simp only [List.length_cons] at hroom; omega)
    rw [List.length_cons] at hsched ⊢
    rw [run_engine hsched hi (exec_writeHeader_give rfl habort hseq htree hbit hroom')]
    refine Eq.trans (ih hdrop rfl htree habort ?_ rfl rfl) ?_
    · simpa [hroom'] using hroom
    · simp [ended, engineTurn, setSeq, giveBit, hroom', count_succ]

/-- Settles O45: the run from position 0, where the whole header is still to be sent. -/
theorem writeHeaderSendsTheHeader : Obligations.WriteHeaderSendsTheHeader :=
  fun _ _ _ hseq htree habort hroom hsched =>
    run_writeHeader _ List.drop_zero hseq htree habort hroom hsched

/-! ### READ_HEADER: what a step does -/

/-- What READ_HEADER's next step has to act on: the item received, if any, worked on (R242). -/
def readResult (p : ReadProgress) : ReadResult :=
  match p.pending with
  | none => .more p
  | some it => readItem p it

/-- What READ_HEADER does with the outcome of an item: it reads on, or it ends (R176). -/
def actOn : ReadResult → State → State
  | .more q, s => readHeaderInBit q s
  | .complete t seen, s => readHeaderEnd t seen s
  | .bad e info, s => raise e info s

theorem readResult_first {p : ReadProgress} (hpend : p.pending = none) : readResult p = .more p := by
  rw [readResult, hpend]

theorem readResult_item {p : ReadProgress} {it : BitItem} (hpend : p.pending = some it) :
    readResult p = readItem p it := by rw [readResult, hpend]

/-- An item received does not bear on what the item makes of the progress. -/
theorem readResult_received (p : ReadProgress) (it : BitItem) :
    readResult { p with pending := some it } = readItem p it := by
  cases it <;> rfl

section
variable {s : State} {p : ReadProgress}

/-- An engine step of READ_HEADER, at every position (R176, R242). -/
theorem exec_readHeader (hturn : s.env.turn = .engine) (hseq : s.blk.seq = .readHeader p) :
    exec .readHeader s = .next (actOn (readResult p) s) := by
  simp only [exec, execReadHeader, commandStep_engine _ _ hturn, engineReadHeader, hseq]
  cases hpend : p.pending with
  | none => simp only [readResult_first hpend, actOn]
  | some it =>
    simp only [readResult_item hpend]
    cases readItem p it <;> rfl

/-- READ_HEADER reads on: the next item is consumed and counted (R176). -/
theorem exec_readHeader_take {q : ReadProgress} {it : BitItem} {more : List BitItem}
    (hturn : s.env.turn = .engine) (hseq : s.blk.seq = .readHeader p)
    (habort : s.blk.abortReq = false) (hmore : readResult p = .more q)
    (hoffer : s.env.bitIn = it :: more) :
    exec .readHeader s =
      .next (setSeq (.readHeader { q with pending := some it }) (takeBitItem it more s)) := by
  rw [exec_readHeader hturn hseq, hmore]
  exact congrArg _ (inBit_take habort _ hoffer)

/-- READ_HEADER stores the complete tree that has EOF among its leaves (R176). -/
theorem exec_readHeader_complete {t : Tree} {seen : List Sym} (hturn : s.env.turn = .engine)
    (hseq : s.blk.seq = .readHeader p) (hwhole : readResult p = .complete t seen)
    (heof : eof ∈ seen) :
    exec .readHeader s = .next (finish { s with blk := { s.blk with tree := some t } }) := by
  rw [exec_readHeader hturn hseq, hwhole]
  exact congrArg _ (if_pos heof)

/-- A complete tree without EOF is an error (R177 (5)). -/
theorem exec_readHeader_noEof {t : Tree} {seen : List Sym} (hturn : s.env.turn = .engine)
    (hseq : s.blk.seq = .readHeader p) (hwhole : readResult p = .complete t seen)
    (heof : eof ∉ seen) : exec .readHeader s = .next (raise .hdrNoEof 0 s) := by
  rw [exec_readHeader hturn hseq, hwhole]
  exact congrArg _ (if_neg heof)

/-- An item that is an error ends READ_HEADER (R177). -/
theorem exec_readHeader_bad {it : BitItem} {e : ErrorCode} {info : Word}
    (hturn : s.env.turn = .engine) (hseq : s.blk.seq = .readHeader p) (hpend : p.pending = some it)
    (hbad : readItem p it = .bad e info) : exec .readHeader s = .next (raise e info s) := by
  rw [exec_readHeader hturn hseq, readResult_item hpend, hbad]
  rfl

end

/-! ### READ_HEADER: what a bit makes of the progress (R176, R177) -/

section
variable {p : ReadProgress}

theorem readItem_leafMark (hfield : p.field = none) :
    readItem p (.bit true) = .more { p with field := some [], pending := none } := by
  simp [readItem, hfield]

theorem readItem_branch (hfield : p.field = none) (hnbr : p.nbr < 256) :
    readItem p (.bit false) =
      .more { p with open_ := none :: p.open_, nbr := p.nbr + 1, pending := none } := by
  simp [readItem, hfield, Config.maxBranches, hnbr]

theorem readItem_branch_257th (hfield : p.field = none) (hnbr : p.nbr = 256) :
    readItem p (.bit false) = .bad .hdrTooManyNodes 0 := by
  simp [readItem, hfield, Config.maxBranches, hnbr]

theorem readItem_valueBit {b : Bool} {bits : Bits} (hfield : p.field = some bits)
    (hlen : bits.length < 8) :
    readItem p (.bit b) = .more { p with field := some (bits ++ [b]), pending := none } := by
  simp [readItem, hfield, hlen]

theorem readItem_ninthBit {b : Bool} {bits : Bits} (hfield : p.field = some bits)
    (hlen : bits.length = 8) : readItem p (.bit b) = readLeaf p (valueLE (bits ++ [b])) := by
  simp [readItem, hfield, hlen]

theorem readLeaf_bad {v : Nat} (hv : 256 < v) :
    readLeaf p v = .bad .hdrBadSymbol (BitVec.ofNat 32 v) :=
  dif_neg (by omega)

theorem readLeaf_dup {sym : Sym} (hseen : sym ∈ p.seen) :
    readLeaf p sym.val = .bad .hdrDupSymbol (BitVec.ofNat 32 sym.val) := by
  rw [readLeaf, dif_pos sym.isLt, if_pos hseen]

theorem readLeaf_new {sym : Sym} (hnew : sym ∉ p.seen) :
    readLeaf p sym.val = plugTree (.leaf sym) (sym :: p.seen) p.nbr p.open_ := by
  rw [readLeaf, dif_pos sym.isLt, if_neg hnew]

end

/-- Settles O46: each position leaves more to read, and the step then takes the item offered. -/
theorem readHeaderStepConsumesTheNextItem : Obligations.ReadHeaderStepConsumesTheNextItem := by
  intro s p it more hturn habort hseq hoffer goesOnAt
  have goesOn {q r : ReadProgress} (hmore : readResult p = .more r)
      (hqr : { r with pending := some it } = { q with pending := some it }) : goesOnAt q :=
    (exec_readHeader_take hturn hseq habort hmore hoffer).trans (by rw [hqr]; rfl)
  refine ⟨fun hpend => goesOn (readResult_first hpend) rfl, fun hpend hfield => ?_,
    fun hpend hfield hnbr => ?_, fun b bits hpend hfield hlen => ?_,
    fun b bits sym hpend hfield hlen hval hnew ls outer hopen => ?_⟩
  · exact goesOn ((readResult_item hpend).trans (readItem_leafMark hfield)) rfl
  · exact goesOn ((readResult_item hpend).trans (readItem_branch hfield hnbr)) rfl
  · exact goesOn ((readResult_item hpend).trans (readItem_valueBit hfield hlen)) rfl
  · have hplug := plugTree_more ls outer (.leaf sym) (sym :: p.seen) p.nbr
    rw [← hopen] at hplug
    exact goesOn
      ((readResult_item hpend).trans ((readItem_leaf hfield hlen hval hnew).trans hplug)) rfl

/-- The step with the ninth bit of a new symbol that completes every open branch (R176). -/
theorem readResult_lastLeaf {p : ReadProgress} {b : Bool} {bits : Bits} {sym : Sym} {ls : List Tree}
    (hpend : p.pending = some (.bit b)) (hfield : p.field = some bits) (hlen : bits.length = 8)
    (hval : valueLE (bits ++ [b]) = sym.val) (hnew : sym ∉ p.seen) (hopen : p.open_ = ls.map some) :
    readResult p =
      .complete (ls.foldl (fun t l => .branch l t) (.leaf sym)) (sym :: p.seen) := by
  rw [readResult_item hpend, readItem_leaf hfield hlen hval hnew, hopen, plugTree_complete]

/-- Settles O47. -/
theorem readHeaderReportsEachFormatError : Obligations.ReadHeaderReportsEachFormatError := by
  intro s p hturn hseq
  refine ⟨fun hpend => exec_readHeader_bad hturn hseq hpend rfl,
    fun hpend hfield hnbr => exec_readHeader_bad hturn hseq hpend (readItem_branch_257th hfield hnbr),
    fun b bits hpend hfield hlen => ⟨fun hbig => ?_, fun sym hval hseen => ?_,
      fun sym hval hnew ⟨ls, hopen⟩ hne heof => ?_⟩⟩
  · exact exec_readHeader_bad hturn hseq hpend
      ((readItem_ninthBit hfield hlen).trans (readLeaf_bad hbig))
  · have hitem := readItem_ninthBit (b := b) hfield hlen
    rw [hval] at hitem
    exact exec_readHeader_bad hturn hseq hpend (hitem.trans (readLeaf_dup hseen))
  · exact exec_readHeader_noEof hturn hseq (readResult_lastLeaf hpend hfield hlen hval hnew hopen)
      (by simpa [hne.symm] using heof)

/-- Settles O48. -/
theorem readHeaderStoresTheCompleteTree : Obligations.ReadHeaderStoresTheCompleteTree := by
  intro s p b bits sym ls hturn hseq hpend hfield hlen hval hnew heof hopen
  exact exec_readHeader_complete hturn hseq
    (readResult_lastLeaf hpend hfield hlen hval hnew hopen)
    (List.mem_cons.2 (heof.imp_left Eq.symm))

/-! ### READ_HEADER on a whole header (R180) -/

/-- What READ_HEADER makes of a bit string, and none when it ends before the string does. -/
def feed : ReadResult → Bits → Option ReadResult
  | r, [] => some r
  | .more p, b :: bs => feed (readItem p (.bit b)) bs
  | _, _ :: _ => none

theorem feed_append (r : ReadResult) (bs cs : Bits) :
    feed r (bs ++ cs) = (feed r bs).bind (feed · cs) := by
  induction bs generalizing r with
  | nil => simp [feed]
  | cons b bs ih =>
    cases r with
    | more p => exact ih _
    | complete | bad => rfl

/-- READ_HEADER has ended by the first bit that it does not read. -/
theorem feed_cons {r r' : ReadResult} {b : Bool} {bs : Bits} (h : feed r (b :: bs) = some r') :
    ∃ p, r = .more p ∧ feed (readItem p (.bit b)) bs = some r' := by
  cases r with
  | more p => exact ⟨p, rfl, h⟩
  | complete | bad => cases h

/-- The value bits of a field up to the ninth make its leaf (R116, R176). -/
theorem feed_field (bs : Bits) {p : ReadProgress} {pre : Bits} (hfield : p.field = some pre)
    (hlen : pre.length + bs.length = 9) (hpre : pre.length < 9) :
    feed (.more p) bs = some (readLeaf p (valueLE (pre ++ bs))) := by
  induction bs generalizing p pre with
  | nil => exact absurd hlen hpre.ne
  | cons b bs ih =>
    rw [List.length_cons] at hlen
    rw [feed]
    by_cases hlast : pre.length = 8
    · obtain rfl : bs = [] := List.length_eq_zero_iff.1 (by omega)
      rw [readItem_ninthBit hfield hlast, feed]
    · rw [readItem_valueBit hfield (by omega),
        ih (pre := pre ++ [b]) rfl (by simp; omega) (by simp; omega), List.append_assoc]
      rfl

/-- The header of a tree of new symbols, read where a subtree begins, makes that subtree (R176,
R180). -/
theorem feed_hdr (t : Tree) {p : ReadProgress} (hfield : p.field = none)
    (hnbr : p.nbr + t.branches ≤ 256) (hnodup : (t.leaves.reverse ++ p.seen).Nodup) :
    feed (.more p) t.hdr =
      some (plugTree t (t.leaves.reverse ++ p.seen) (p.nbr + t.branches) p.open_) := by
  induction t generalizing p with
  | leaf sym =>
    have hnew : sym ∉ p.seen := (List.nodup_cons.1 hnodup).1
    have hvalue : valueLE (f9 sym.val) = sym.val := valueLE_bitsLE 9 sym.val (by omega)
    rw [Tree.hdr, feed, readItem_leafMark hfield, feed_field _ (pre := []) rfl (by simp) (by simp),
      List.nil_append, hvalue]
    exact congrArg some (readLeaf_new hnew)
  | branch l r ihl ihr =>
    simp only [Tree.branches] at hnbr
    simp only [Tree.leaves, List.reverse_append, List.append_assoc] at hnodup ⊢
    obtain ⟨-, hnodupLeft, -⟩ := List.nodup_append.1 hnodup
    have hleft : feed (.more { p with open_ := none :: p.open_, nbr := p.nbr + 1, pending := none })
        l.hdr = some (.more ⟨some l :: p.open_, l.leaves.reverse ++ p.seen,
          p.nbr + 1 + l.branches, none, none⟩) :=
      ihl hfield (show p.nbr + 1 + l.branches ≤ 256 by omega) hnodupLeft
    have hsum : p.nbr + 1 + l.branches + r.branches = p.nbr + (l.branches + r.branches + 1) := by
      omega
    rw [Tree.hdr, feed, readItem_branch hfield (by omega), feed_append, hleft, Option.bind_some,
      ihr rfl (hsum ▸ hnbr) hnodup, hsum]
    rfl

/-- The header of a valid tree, read from READ_HEADER's start, makes the tree with EOF among the
leaves (R180). -/
theorem feed_start_hdr {t : Tree} (ht : t.Valid) :
    feed (readResult ReadProgress.start) t.hdr = some (.complete t t.leaves.reverse) := by
  have hlen := leaves_length_le t ht.2
  rw [leaves_length] at hlen
  have h := feed_hdr t (p := ReadProgress.start) rfl
    (by simp only [ReadProgress.start]; omega)
    (by simpa [ReadProgress.start] using ht.2)
  simpa [ReadProgress.start, plugTree, readResult] using h

/-- The run of READ_HEADER over bits that it reads to a complete tree with EOF (R176, R242). -/
theorem run_readHeader {t : Tree} {seen : List Sym} {after : List BitItem} {rest : List AgentStep}
    (bits : Bits) {s : State} {p : ReadProgress}
    (hfeed : feed (readResult p) bits = some (.complete t seen)) (heof : eof ∈ seen)
    (hseq : s.blk.seq = .readHeader p) (habort : s.blk.abortReq = false)
    (hoffer : s.env.bitIn = bits.map .bit ++ after)
    (hsched : s.env.schedule = List.replicate (bits.length + 1) .engine ++ rest) :
    run (bits.length + 1) s = .next
      ⟨{ ended s.blk .none false 0 with
          tree := some t, bitsIn := s.blk.bitsIn + BitVec.ofNat 32 bits.length },
        { engineTurn s.env rest with bitIn := after }⟩ := by
  have hi : s.blk.seq.instr? = some .readHeader := by rw [hseq]; rfl
  induction bits generalizing s p with
  | nil =>
    have hwhole : readResult p = .complete t seen := Option.some.inj hfeed
    obtain rfl : s.env.bitIn = after := hoffer
    rw [run_engine hsched hi (exec_readHeader_complete rfl hseq hwhole heof)]
    simp [run, finish, endCommand, ended, engineTurn]
  | cons b bs ih =>
    obtain ⟨q, hmore, hrest⟩ := feed_cons hfeed
    rw [← readResult_received] at hrest
    rw [List.length_cons] at hsched ⊢
    rw [run_engine hsched hi (exec_readHeader_take rfl hseq habort hmore hoffer)]
    refine Eq.trans (ih hrest rfl habort rfl rfl rfl) ?_
    simp [ended, engineTurn, setSeq, takeBitItem, count_succ]

/-- Settles O49: the reader's result on a header by induction on the tree, and the machine's run by
induction on the bits. -/
theorem readHeaderReadsBackTheTree : Obligations.ReadHeaderReadsBackTheTree := by
  intro s t after rest ht hseq habort hoffer hsched
  exact run_readHeader t.hdr (feed_start_hdr ht) (List.mem_reverse.2 ht.1) hseq habort hoffer hsched

/-! ### READ_HEADER's bound (R179) -/

/-- Before an InBit at most 2825 bits have been read: no more leaves than branches, since the tree is
not complete, and at most the mark and eight bits of another leaf. -/
theorem bitsRead_le {p : ReadProgress} (hok : ReadOk p) (hpend : p.pending = none) :
    bitsRead p ≤ 2825 := by
  have hleaves := openLeaves_length_le p.open_
  rw [← hok.seen_leaves.length_eq, ← hok.nbr_counts] at hleaves
  have hnbr : p.nbr ≤ 256 := hok.nbr_bound
  cases hfield : p.field with
  | none =>
    simp only [bitsRead, hfield, hpend]
    omega
  | some bits =>
    have := hok.field_short bits hfield
    simp only [bitsRead, hfield, hpend]
    omega

/-- The item just received is at most one bit more than what was read before it. -/
theorem bitsRead_le_succ (p : ReadProgress) :
    bitsRead p ≤ bitsRead { p with pending := none } + 1 := by
  unfold bitsRead
  cases p.pending with
  | none => exact Nat.le_succ _
  | some it => cases it <;> simp

theorem readOk_bitsRead_le {p : ReadProgress} (hok : ReadOk p) : bitsRead p ≤ 2826 :=
  (bitsRead_le_succ p).trans (Nat.succ_le_succ (bitsRead_le (readOk_pending none hok) rfl))

theorem inv_readHeader {s : State} {p : ReadProgress} (hinv : Inv s)
    (hseq : s.blk.seq = .readHeader p) : ReadOk p ∧ s.blk.bitsIn.toNat = bitsRead p := by
  have hprog := hinv.progress
  simp only [ProgressOk, hseq] at hprog
  obtain ⟨-, -, hok, hcount⟩ := hprog
  exact ⟨hok, hcount⟩

/-- Settles O50. -/
theorem readHeaderConsumesAtMost2826Bits : Obligations.ReadHeaderConsumesAtMost2826Bits := by
  intro s p hinv hseq
  obtain ⟨hok, hcount⟩ := inv_readHeader hinv hseq
  exact hcount ▸ readOk_bitsRead_le hok

/-- Where READ_HEADER reads on, its progress stays in order and no bit is uncounted. -/
theorem readResult_more_spec {p q : ReadProgress} (hok : ReadOk p) (h : readResult p = .more q) :
    ReadOk q ∧ q.pending = none ∧ bitsRead q = bitsRead p := by
  cases hpend : p.pending with
  | none =>
    rw [readResult_first hpend] at h
    cases h
    exact ⟨hok, hpend, rfl⟩
  | some it => exact readItem_more_spec hok hpend (readResult_item hpend ▸ h)

/-- How many steps READ_HEADER can still take: after EOD it ends, and else every step but the last
reads another of its 2826 bits (R179). -/
def stepsLeft (p : ReadProgress) : Nat :=
  if p.pending = some .eod then 1 else 2827 - bitsRead p

theorem stepsLeft_pos {p : ReadProgress} (hok : ReadOk p) : 0 < stepsLeft p := by
  have := readOk_bitsRead_le hok
  rw [stepsLeft]
  split <;> omega

/-- Reading on takes one of at least two steps left, whatever the item (R179). -/
theorem stepsLeft_more {p q : ReadProgress} (hok : ReadOk p) (h : readResult p = .more q)
    (it : BitItem) :
    2 ≤ stepsLeft p ∧ stepsLeft { q with pending := some it } + 1 ≤ stepsLeft p := by
  obtain ⟨hq, hpend, hbits⟩ := readResult_more_spec hok h
  have hle := bitsRead_le hq hpend
  have hnotEod : p.pending ≠ some .eod := fun heod => by cases (readResult_item heod).symm.trans h
  rw [stepsLeft, if_neg hnotEod, stepsLeft, ← hbits]
  cases it with
  | eod =>
    rw [if_pos rfl]
    omega
  | bit b =>
    rw [if_neg (by simp), bitsRead_bit b hpend]
    omega

/-- Where READ_HEADER does not read on, its step ends the command and moves nothing (R177, R243). -/
theorem actOn_ends {r : ReadResult} (s : State) (hr : ∀ q, r ≠ .more q) :
    (actOn r s).blk.seq = .idle ∧ (actOn r s).blk.done = true ∧ (actOn r s).env = s.env := by
  cases r with
  | more q => exact absurd rfl (hr q)
  | complete t seen =>
    rw [actOn, readHeaderEnd]
    split <;> exact ⟨rfl, rfl, rfl⟩
  | bad => exact ⟨rfl, rfl, rfl⟩

/-- With an item offered for every step left but the last, a step of READ_HEADER ends the command or
leaves fewer steps, with items enough for them (R179). -/
theorem exec_readHeader_progress {s : State} {p : ReadProgress} (hturn : s.env.turn = .engine)
    (hseq : s.blk.seq = .readHeader p) (hok : ReadOk p)
    (hoffer : stepsLeft p ≤ s.env.bitIn.length + 1) :
    ∃ t, exec .readHeader s = .next t ∧ t.env.schedule = s.env.schedule ∧
      ((t.blk.seq = .idle ∧ t.blk.done = true) ∨
        ∃ q, t.blk.seq = .readHeader q ∧ stepsLeft q + 1 ≤ stepsLeft p ∧
          stepsLeft q ≤ t.env.bitIn.length + 1) := by
  refine ⟨_, exec_readHeader hturn hseq, ?_⟩
  by_cases hmore : ∃ q, readResult p = .more q
  · obtain ⟨q, hmore⟩ := hmore
    have hleft := stepsLeft_more hok hmore
    rw [hmore, actOn, readHeaderInBit]
    rcases inBit_cases (fun it => .readHeader { q with pending := some it }) s with
      ⟨-, e⟩ | ⟨-, hempty, -⟩ | ⟨it, more, -, hitems, e⟩
    · exact e ▸ ⟨rfl, .inl ⟨rfl, rfl⟩⟩
    · have := (hleft .eod).1
      simp only [hempty, List.length_nil] at hoffer
      omega
    · have hfewer := (hleft it).2
      rw [hitems, List.length_cons] at hoffer
      exact e ▸ ⟨rfl, .inr ⟨_, rfl, hfewer, show _ ≤ more.length + 1 by omega⟩⟩
  · obtain ⟨hidle, hdone, henv⟩ := actOn_ends s (not_exists.1 hmore)
    exact ⟨congrArg Env.schedule henv, .inl ⟨hidle, hdone⟩⟩

/-- An IDLE engine's turns leave the block as it is. -/
theorem run_engine_idle (n : Nat) {s : State} {rest : List AgentStep} (hidle : s.blk.seq = .idle)
    (hsched : s.env.schedule = List.replicate n .engine ++ rest) :
    ∃ t, run n s = .next t ∧ t.blk = s.blk := by
  induction n generalizing s with
  | zero => exact ⟨s, rfl, rfl⟩
  | succ n ih =>
    have hstep : step s = .next (beginTurn .engine (List.replicate n .engine ++ rest) s) := by
      simp [step, hsched, List.replicate_succ, hidle, Seq.instr?]
    rw [run_succ hstep]
    exact ih hidle rfl

/-- READ_HEADER ends within the steps it has left, while the source offers an item for each of them
but the last (R179). -/
theorem run_readHeader_ends (n : Nat) {s : State} {p : ReadProgress} {rest : List AgentStep}
    (hinv : Inv s) (hseq : s.blk.seq = .readHeader p) (hsteps : stepsLeft p ≤ n)
    (hoffer : stepsLeft p ≤ s.env.bitIn.length + 1)
    (hsched : s.env.schedule = List.replicate n .engine ++ rest) :
    ∃ t, run n s = .next t ∧ t.blk.seq = .idle ∧ t.blk.done = true := by
  obtain ⟨hok, -⟩ := inv_readHeader hinv hseq
  induction n generalizing s p with
  | zero => exact absurd (stepsLeft_pos hok) (Nat.not_lt.2 hsteps)
  | succ n ih =>
    have hi : s.blk.seq.instr? = some .readHeader := by rw [hseq]; rfl
    obtain ⟨u, hexec, hrest, hu⟩ := exec_readHeader_progress
      (s := ⟨s.blk, engineTurn s.env (List.replicate n .engine ++ rest)⟩) rfl hseq hok hoffer
    rw [run_engine hsched hi hexec]
    rcases hu with ⟨hidle, hdone⟩ | ⟨q, hq, hfewer, hitems⟩
    · obtain ⟨t, hrun, hblk⟩ := run_engine_idle n hidle hrest
      exact ⟨t, hrun, hblk ▸ hidle, hblk ▸ hdone⟩
    · have hinv' :=
        everyStepKeepsTheInvariant s u hinv ((step_engine_replicate hsched hi).trans hexec)
      exact ih hinv' hq (by omega) hitems hrest (inv_readHeader hinv' hq).1

/-- Settles O51. -/
theorem readHeaderEndsOnEveryBitSource : Obligations.ReadHeaderEndsOnEveryBitSource := by
  intro s rest hinv hseq hoffer hsched
  have hstart : stepsLeft ReadProgress.start = 2827 := rfl
  exact run_readHeader_ends 2827 hinv hseq hstart.le (hstart ▸ Nat.succ_le_succ hoffer) hsched

end Sys2Proof.Proofs
end

section
/-! PROOFS. The encoder: what ENCODE does at each position, and its whole run (42_encoder.md R201 to
R203). -/

namespace Sys2Proof.Proofs

open Sys2Proof Sys2Proof.Machine Sys2Proof.Safety Sys2Proof.Laws

/-! ### An unmapped byte (R202) -/

/-- Settles O53: an unmapped byte is tested before any transaction, so no abort test comes first. -/
theorem encodeStopsAtAnUnmappedByte : Obligations.EncodeStopsAtAnUnmappedByte := by
  intro s t v hturn htree hseq hcode
  rw [exec_encode_unmapped hturn hseq htree hcode, BitVec.ofNat_toNat]
  rfl

/-! ### The positions of ENCODE (R201) -/

/-- ENCODE's position `p` is past the last bit of the code of `sym`. -/
def CodeSent (t : Tree) (p : EncodeProgress) (sym : Sym) : Prop :=
  ∃ index code, EncodeSends p sym index ∧ t.codeOf sym = some code ∧ code.length ≤ index

/-- At ENCODE's position `p` the next item is read: at the start and after a byte's code. -/
def ReadsNext (t : Tree) (p : EncodeProgress) : Prop :=
  p = .start ∨ ∃ sym, sym ≠ eof ∧ CodeSent t p sym

theorem inByte_take {s : State} (habort : s.blk.abortReq = false) (k : ByteItem → Seq)
    {it : ByteItem} {more : List ByteItem} (hoffer : s.env.byteIn = it :: more) :
    inByte k s = setSeq (k it) (takeByteItem it more s) := by
  simp only [inByte, unlessAborted, habort, hoffer, Bool.false_eq_true, if_false]

section
variable {s : State} {t : Tree} {p : EncodeProgress} (hturn : s.env.turn = .engine)
  (hseq : s.blk.seq = .encode p) (htree : s.blk.tree = some t)
include hturn hseq htree

/-- ENCODE at the start or after a byte's code consumes the next item (R201). -/
theorem exec_encode_take {it : ByteItem} {more : List ByteItem} (habort : s.blk.abortReq = false)
    (hp : ReadsNext t p) (hoffer : s.env.byteIn = it :: more) :
    exec .encode s = .next (setSeq (.encode (.got it)) (takeByteItem it more s)) := by
  have hread : exec .encode s = .next (encodeInByte s) := by
    rcases hp with rfl | ⟨sym, hne, index, code, hsends, hcode, hle⟩
    · exact exec_encode_start hturn hseq htree
    · rw [exec_encode_send hturn hseq htree hsends hcode, encodeSend_byte_sent hcode hle hne]
  rw [hread, encodeInByte, inByte_take habort _ hoffer]

/-- ENCODE inside a code gives its next bit to a sink that accepts (R201). -/
theorem exec_encode_give {sym : Sym} {index room : Nat} {code : Bits}
    (habort : s.blk.abortReq = false) (hp : EncodeSends p sym index)
    (hcode : t.codeOf sym = some code) (hlt : index < code.length)
    (hroom : s.env.bitRoom = room + 1) :
    exec .encode s =
      .next (setSeq (.encode (.send sym (index + 1))) (giveBit code[index] room s)) := by
  rw [exec_encode_send hturn hseq htree hp hcode, encodeSend_bit hcode hlt,
    outBit_give habort _ _ hroom]

/-- ENCODE after the EOF code ends with success, abort or not (R201, R246 (c)). -/
theorem exec_encode_end (hp : CodeSent t p eof) : exec .encode s = .next (finish s) := by
  obtain ⟨index, code, hsends, hcode, hle⟩ := hp
  rw [exec_encode_send hturn hseq htree hsends hcode, encodeSend_eof_sent hcode hle rfl]

end

/-- Settles O52: each position reads, sends or ends by its own step lemma. -/
theorem encodeStepFollowsTheMessage : Obligations.EncodeStepFollowsTheMessage := by
  intro s t hturn habort htree
  refine ⟨?_, ?_, ?_⟩
  · rintro it more hoffer (hseq | ⟨sym, index, code, hseq, hne, hcode, hle⟩ | ⟨v, hseq, hcode⟩)
    · exact exec_encode_take hturn hseq htree habort (.inl rfl) hoffer
    · exact exec_encode_take hturn hseq htree habort
        (.inr ⟨sym, hne, index, code, ⟨rfl, rfl⟩, hcode, hle⟩) hoffer
    · exact exec_encode_take hturn hseq htree habort
        (.inr ⟨_, symOfByte_ne_eof v, 0, [], ⟨rfl, rfl⟩, hcode, le_rfl⟩) hoffer
  · rintro sym index code room hcode hroom hlt (hseq | ⟨rfl, v, hseq, rfl⟩ | ⟨rfl, hseq, rfl⟩)
    all_goals exact exec_encode_give hturn hseq htree habort ⟨rfl, rfl⟩ hcode hlt hroom
  · rintro code hcode (⟨index, hseq, hle⟩ | ⟨hseq, rfl⟩)
    · exact exec_encode_end hturn hseq htree ⟨index, code, ⟨rfl, rfl⟩, hcode, hle⟩
    · exact exec_encode_end hturn hseq htree ⟨0, [], ⟨rfl, rfl⟩, hcode, le_rfl⟩

/-! ### The run of ENCODE on a message (R203) -/

/-- The state in which ENCODE stands at `q` after it has given `bits` to the sink, one step each. -/
def encodeSent (q : EncodeProgress) (bits : Bits) (sched : List AgentStep) (s : State) : State :=
  ⟨{ s.blk with seq := .encode q, bitsOut := s.blk.bitsOut + BitVec.ofNat 32 bits.length },
    { s.env with
      schedule := sched, bitOut := s.env.bitOut ++ bits,
      bitRoom := s.env.bitRoom - bits.length }⟩

/-- A mapped message's payload is the first byte's code and the payload of the others (R114). -/
theorem payload_cons {t : Tree} {v : Byte} {m : List Byte} {bits : Bits}
    (h : t.payload (v :: m) = some bits) :
    ∃ code tail, t.codeOf (symOfByte v) = some code ∧ t.payload m = some tail ∧
      bits = code ++ tail := by
  cases hcode : t.codeOf (symOfByte v) with
  | none => simp [Tree.payload, hcode] at h
  | some code =>
    cases htail : t.payload m with
    | none => simp [Tree.payload, hcode, htail] at h
    | some tail => exact ⟨code, tail, rfl, rfl, by simpa [Tree.payload, hcode, htail] using h.symm⟩

section
variable {t : Tree} {rest : List AgentStep}

/-- The run of ENCODE through a code, by the bits of the code still to be sent (R201). -/
theorem run_encode_code {sym : Sym} {code : Bits} (n : Nat) (hcode : t.codeOf sym = some code)
    (bits : Bits) {s : State} {p : EncodeProgress} {index : Nat}
    (hbits : code.drop index = bits) (hp : EncodeSends p sym index) (hturn : s.env.turn = .engine)
    (hseq : s.blk.seq = .encode p) (htree : s.blk.tree = some t)
    (habort : s.blk.abortReq = false) (hroom : bits.length ≤ s.env.bitRoom)
    (hsched : s.env.schedule = List.replicate (bits.length + n) .engine ++ rest) :
    ∃ q, CodeSent t q sym ∧ run (bits.length + n) s =
      run n (encodeSent q bits (List.replicate n .engine ++ rest) s) := by
  induction bits generalizing s p index with
  | nil =>
    refine ⟨p, ⟨index, code, hp, hcode, List.drop_eq_nil_iff.1 hbits⟩, ?_⟩
    have hself : encodeSent p [] (List.replicate n .engine ++ rest) s = s := by
      rw [List.length_nil, Nat.zero_add] at hsched
      simp only [encodeSent, ← hseq, ← hsched, List.length_nil, BitVec.add_zero, List.append_nil,
        Nat.sub_zero]
    rw [hself, List.length_nil, Nat.zero_add]
  | cons b bs ih =>
    have hlt : index < code.length := by
      have hlen := congrArg List.length hbits
      rw [List.length_drop, List.length_cons] at hlen
      omega
    obtain ⟨rfl, hdrop⟩ := List.cons.inj ((List.drop_eq_getElem_cons hlt).symm.trans hbits)
    rw [List.length_cons] at hroom hsched ⊢
    rw [Nat.add_right_comm] at hsched ⊢
    obtain ⟨room, hroom', hle⟩ : ∃ room, s.env.bitRoom = room + 1 ∧ bs.length ≤ room :=
      ⟨s.env.bitRoom - 1, by omega, by omega⟩
    have hi : s.blk.seq.instr? = some .encode := by rw [hseq]; rfl
    rw [run_engine hsched hi (exec_encode_give (s := ⟨s.blk, engineTurn s.env _⟩)
      rfl hseq htree habort hp hcode hlt hroom')]
    obtain ⟨q, hq, hrun⟩ := ih (p := .send sym (index + 1))
      (s := setSeq _ (giveBit code[index] room ⟨s.blk, engineTurn s.env _⟩))
      hdrop ⟨rfl, rfl⟩ rfl rfl htree habort hle rfl
    refine ⟨q, hq, hrun.trans ?_⟩
    simp [encodeSent, engineTurn, setSeq, giveBit, hroom', hturn, count_succ]

/-- ENCODE reads an item and sends the code of its symbol (R201). -/
theorem run_encode_item {it : ByteItem} {more : List ByteItem} {sym : Sym} {code : Bits} (n : Nat)
    {s : State} {p : EncodeProgress} (hp : ReadsNext t p) (hit : EncodeSends (.got it) sym 0)
    (hcode : t.codeOf sym = some code) (hseq : s.blk.seq = .encode p)
    (htree : s.blk.tree = some t) (habort : s.blk.abortReq = false)
    (hoffer : s.env.byteIn = it :: more) (hroom : code.length ≤ s.env.bitRoom)
    (hsched : s.env.schedule = List.replicate (code.length + n + 1) .engine ++ rest) :
    ∃ q, CodeSent t q sym ∧ run (code.length + n + 1) s =
      run n (encodeSent q code (List.replicate n .engine ++ rest)
        (takeByteItem it more ⟨s.blk, engineTurn s.env rest⟩)) := by
  have hi : s.blk.seq.instr? = some .encode := by rw [hseq]; rfl
  rw [run_engine hsched hi
    (exec_encode_take (s := ⟨s.blk, engineTurn s.env _⟩) rfl hseq htree habort hp hoffer)]
  exact run_encode_code n hcode code List.drop_zero hit rfl rfl htree habort hroom rfl

/-- The run of ENCODE from any position where it reads, by the bytes of the message still to come
(R201, R203). -/
theorem run_encode {after : List ByteItem} (m : List Byte) {bits : Bits} {s : State}
    {p : EncodeProgress} (hpayload : t.payload m = some bits) (hp : ReadsNext t p)
    (hseq : s.blk.seq = .encode p) (htree : s.blk.tree = some t)
    (habort : s.blk.abortReq = false)
    (hoffer : s.env.byteIn = m.map .byte ++ .endOfMessage :: after)
    (hroom : bits.length ≤ s.env.bitRoom)
    (hsched : s.env.schedule = List.replicate (m.length + bits.length + 2) .engine ++ rest) :
    run (m.length + bits.length + 2) s = .next
      ⟨{ ended s.blk .none false 0 with
          bytesIn := s.blk.bytesIn + BitVec.ofNat 32 m.length
          bitsOut := s.blk.bitsOut + BitVec.ofNat 32 bits.length },
        { engineTurn s.env rest with
          byteIn := after, bitOut := s.env.bitOut ++ bits,
          bitRoom := s.env.bitRoom - bits.length }⟩ := by
  induction m generalizing s p bits with
  | nil =>
    rw [List.length_nil, Nat.zero_add] at hsched ⊢
    obtain ⟨q, hq, hrun⟩ := run_encode_item (it := .endOfMessage) 1 hp ⟨rfl, rfl⟩ hpayload hseq
      htree habort hoffer hroom hsched
    refine hrun.trans (Eq.trans (run_engine (n := 0) rfl rfl (exec_encode_end rfl rfl htree hq)) ?_)
    simp [run, finish, endCommand, ended, engineTurn, encodeSent, takeByteItem]
  | cons v m ih =>
    obtain ⟨code, tail, hcode, htail, rfl⟩ := payload_cons hpayload
    have hsteps : (v :: m).length + (code ++ tail).length + 2 =
        code.length + (m.length + tail.length + 2) + 1 := by
      simp only [List.length_cons, List.length_append]
      omega
    rw [List.length_append] at hroom
    rw [hsteps] at hsched ⊢
    obtain ⟨q, hq, hrun⟩ := run_encode_item (it := .byte v) _ hp ⟨rfl, rfl⟩ hcode hseq htree
      habort hoffer (Nat.le_of_add_right_le hroom) hsched
    refine hrun.trans (Eq.trans (ih htail (.inr ⟨_, symOfByte_ne_eof v, hq⟩) rfl htree habort rfl
      (Nat.le_sub_of_add_le' hroom) rfl) ?_)
    simp [ended, engineTurn, encodeSent, takeByteItem, BitVec.ofNat_add, BitVec.add_assoc,
      BitVec.add_comm 1#32, Nat.sub_sub]

end

/-- Settles O54: the run from the start, where the whole message is still to come. -/
theorem encodeSendsThePayload : Obligations.EncodeSendsThePayload :=
  fun _ _ m _ _ _ hpayload htree hseq habort hoffer hroom hsched =>
    run_encode m hpayload (.inl rfl) hseq htree habort hoffer hroom hsched

end Sys2Proof.Proofs
end

section
/-! PROOFS. The decoder: what DECODE does at each position, and its whole run (43_decoder.md R222 to
R225). -/

namespace Sys2Proof.Proofs

open Sys2Proof Sys2Proof.Machine Sys2Proof.Safety Sys2Proof.Laws

/-! ### A truncated stream (R224) -/

/-- Settles O56: EOD ends DECODE before any transaction, so no abort test comes first. -/
theorem decodeReportsATruncatedStream : Obligations.DecodeReportsATruncatedStream := by
  intro s t cur hturn htree hseq
  simp only [exec, execDecode, commandStep_engine _ _ hturn, engineDecode, hseq, htree]
  rfl

/-! ### What DECODE does at a node (R222, R223) -/

section
variable {s : State} (habort : s.blk.abortReq = false)
include habort

theorem outByte_give (v : Byte) (k : Seq) {room : Nat} (hroom : s.env.byteRoom = room + 1) :
    outByte v k s = setSeq k (giveByte v room s) := by
  simp only [outByte, unlessAborted, habort, hroom, Bool.false_eq_true, if_false]

theorem decodeInBit_take (cur : Tree) {it : BitItem} {more : List BitItem}
    (hoffer : s.env.bitIn = it :: more) :
    decodeInBit cur s = setSeq (.decode (.got cur it)) (takeBitItem it more s) :=
  inBit_take habort _ hoffer

theorem decodeAt_give {sym : Sym} (hne : sym ≠ eof) {room : Nat}
    (hroom : s.env.byteRoom = room + 1) :
    decodeAt (.leaf sym) s = setSeq (.decode .emitted) (giveByte (byteOfSym sym) room s) :=
  (decodeAt_byte s hne).trans (outByte_give habort _ _ hroom)

end

theorem decodeAt_eof (s : State) : decodeAt (.leaf eof) s = finish s := by
  rw [decodeAt, if_pos rfl]

/-- At position `p` the engine's step looks at the node `cur`: at the root after a byte, too, where
the root is a branch (R222). -/
def DecodeLooksAt (t : Tree) (p : DecodeProgress) (cur : Tree) : Prop :=
  DecodeCursor t p cur ∨ (p = .emitted ∧ cur = t ∧ cur.isBranch = true)

section
variable {s : State} {t : Tree} {p : DecodeProgress} (hturn : s.env.turn = .engine)
  (hseq : s.blk.seq = .decode p) (htree : s.blk.tree = some t)
include hturn hseq htree

theorem exec_decode_looksAt {cur : Tree} (hp : DecodeLooksAt t p cur) :
    exec .decode s = .next (decodeAt cur s) := by
  rcases hp with hcur | ⟨rfl, rfl, hbranch⟩
  · exact exec_decode_at hturn hseq htree hcur
  · rw [exec_decode_emitted hturn hseq htree, decodeAt_branch s hbranch]

/-- DECODE at a branch consumes the next item (R222). -/
theorem exec_decode_take {cur : Tree} {it : BitItem} {more : List BitItem}
    (habort : s.blk.abortReq = false) (hp : DecodeLooksAt t p cur) (hbranch : cur.isBranch = true)
    (hoffer : s.env.bitIn = it :: more) :
    exec .decode s = .next (setSeq (.decode (.got cur it)) (takeBitItem it more s)) := by
  rw [exec_decode_looksAt hturn hseq htree hp, decodeAt_branch s hbranch,
    decodeInBit_take habort cur hoffer]

/-- DECODE at a byte's leaf gives the byte to a sink that accepts (R223). -/
theorem exec_decode_give {sym : Sym} {room : Nat} (habort : s.blk.abortReq = false)
    (hcur : DecodeCursor t p (.leaf sym)) (hne : sym ≠ eof) (hroom : s.env.byteRoom = room + 1) :
    exec .decode s = .next (setSeq (.decode .emitted) (giveByte (byteOfSym sym) room s)) := by
  rw [exec_decode_at hturn hseq htree hcur, decodeAt_give habort hne hroom]

/-- DECODE at the EOF leaf ends with success, abort or not (R222, R246 (c)). -/
theorem exec_decode_end (hcur : DecodeCursor t p (.leaf eof)) :
    exec .decode s = .next (finish s) := by
  rw [exec_decode_at hturn hseq htree hcur, decodeAt_eof]

end

/-- Settles O55: each position looks at a node, and the node reads, sends or ends. -/
theorem decodeStepWalksTheTree : Obligations.DecodeStepWalksTheTree := by
  intro s t hturn habort htree
  refine ⟨?_, ?_, ?_⟩
  · rintro cur it more hoffer
      (⟨hseq, rfl, hbranch⟩ | ⟨hseq, rfl⟩ | ⟨above, b, hseq, hchild, hbranch⟩)
    · exact exec_decode_take hturn hseq htree habort (.inl rfl) hbranch hoffer
    · rw [exec_decode_emitted hturn hseq htree, decodeInBit_take habort _ hoffer]
      rfl
    · exact exec_decode_take hturn hseq htree habort (.inl hchild) hbranch hoffer
  · rintro sym room hne hroom (⟨hseq, rfl⟩ | ⟨above, b, hseq, hchild⟩)
    · exact exec_decode_give hturn hseq htree habort rfl hne hroom
    · exact exec_decode_give hturn hseq htree habort hchild hne hroom
  · rintro (⟨hseq, rfl⟩ | ⟨above, b, hseq, hchild⟩)
    · exact exec_decode_end hturn hseq htree rfl
    · exact exec_decode_end hturn hseq htree hchild

/-! ### The path of a code (R37, R203) -/

/-- The empty code is that of the one leaf of a tree. -/
theorem eq_leaf_of_codeOf_nil {t : Tree} {sym : Sym} (h : t.codeOf sym = some []) :
    t = .leaf sym := by
  cases t with
  | leaf a =>
    obtain rfl : sym = a := by simpa using h
    rfl
  | branch l r => simp [codeOf_branch, Option.or_eq_some_iff] at h

/-- The first bit of a code selects the child in which the code goes on (R37). -/
theorem child_of_codeOf_cons {t : Tree} {sym : Sym} {b : Bool} {bits : Bits}
    (h : t.codeOf sym = some (b :: bits)) :
    t.isBranch = true ∧ ∃ next, t.child? b = some next ∧ next.codeOf sym = some bits := by
  cases t with
  | leaf a => simp at h
  | branch l r =>
    refine ⟨rfl, ?_⟩
    rw [codeOf_branch, Option.or_eq_some_iff] at h
    rcases h with hleft | ⟨-, hright⟩
    · obtain ⟨hbits, rfl⟩ : l.codeOf sym = some bits ∧ b = false := by simpa [eq_comm] using hleft
      exact ⟨l, rfl, hbits⟩
    · obtain ⟨hbits, rfl⟩ : r.codeOf sym = some bits ∧ b = true := by simpa [eq_comm] using hright
      exact ⟨r, rfl, hbits⟩

/-- A tree that maps two symbols is no leaf. -/
theorem isBranch_of_codes {t : Tree} {a b : Sym} {ca cb : Bits} (ha : t.codeOf a = some ca)
    (hb : t.codeOf b = some cb) (hne : a ≠ b) : t.isBranch = true := by
  cases t with
  | branch l r => rfl
  | leaf x =>
    simp only [codeOf_leaf, Option.ite_none_right_eq_some] at ha hb
    exact absurd (ha.1.trans hb.1.symm) hne

/-- A tree under which a message has a payload maps EOF (R114). -/
theorem codeOf_eof_of_payload {t : Tree} {m : List Byte} {bits : Bits}
    (h : t.payload m = some bits) : ∃ code, t.codeOf eof = some code := by
  induction m generalizing bits with
  | nil => exact ⟨bits, h⟩
  | cons v m ih =>
    obtain ⟨-, tail, -, htail, -⟩ := payload_cons h
    exact ih htail

/-- DECODE sends for a byte's symbol the byte itself (R223). -/
theorem byteOfSym_symOfByte (v : Byte) : byteOfSym (symOfByte v) = v := by
  revert v
  decide

/-! ### The run of DECODE on a payload (R203, R225) -/

/-- The state in which the engine stands at `q` after DECODE has consumed `n` bits, one step each,
with `more` left to read. -/
def decodeTook (q : Seq) (n : Nat) (more : List BitItem) (sched : List AgentStep) (s : State) :
    State :=
  ⟨{ s.blk with seq := q, bitsIn := s.blk.bitsIn + BitVec.ofNat 32 n },
    { engineTurn s.env sched with bitIn := more }⟩

section
variable {s : State} {t : Tree} {p : DecodeProgress} {rest : List AgentStep}

/-- The run of DECODE through a code from the node where the code's path begins: it consumes the
code and then acts on the leaf of its symbol (R222). -/
theorem run_decode_code {sym : Sym} {more : List BitItem} (n : Nat) (bits : Bits) {cur : Tree}
    (hcode : cur.codeOf sym = some bits) (hp : DecodeLooksAt t p cur)
    (hseq : s.blk.seq = .decode p) (htree : s.blk.tree = some t) (habort : s.blk.abortReq = false)
    (hoffer : s.env.bitIn = bits.map .bit ++ more)
    (hsched : s.env.schedule = List.replicate (bits.length + n + 1) .engine ++ rest) :
    ∃ q, run (bits.length + n + 1) s = run n (decodeAt (.leaf sym)
      (decodeTook q bits.length more (List.replicate n .engine ++ rest) s)) := by
  have hi : s.blk.seq.instr? = some .decode := by rw [hseq]; rfl
  induction bits generalizing s p cur with
  | nil =>
    obtain rfl := eq_leaf_of_codeOf_nil hcode
    obtain rfl : s.env.bitIn = more := hoffer
    rw [List.length_nil, Nat.zero_add] at hsched ⊢
    refine ⟨s.blk.seq, (run_engine hsched hi
      (exec_decode_looksAt (s := ⟨s.blk, engineTurn s.env _⟩) rfl hseq htree hp)).trans ?_⟩
    simp [decodeTook, engineTurn]
  | cons b bs ih =>
    obtain ⟨hbranch, next, hchild, hnext⟩ := child_of_codeOf_cons hcode
    rw [List.length_cons, Nat.add_right_comm _ 1] at hsched ⊢
    rw [run_engine hsched hi (exec_decode_take (s := ⟨s.blk, engineTurn s.env _⟩)
      rfl hseq htree habort hp hbranch hoffer)]
    obtain ⟨q, hrun⟩ := ih (p := .got cur (.bit b))
      (s := setSeq _ (takeBitItem _ _ ⟨s.blk, engineTurn s.env _⟩))
      hnext (.inl hchild) rfl htree habort rfl rfl rfl
    refine ⟨q, hrun.trans ?_⟩
    simp [decodeTook, engineTurn, setSeq, takeBitItem, count_succ]

/-- The run of DECODE from any position at the root, by the bytes of the message still to be sent
(R203, R225). -/
theorem run_decode {after : List BitItem} (m : List Byte) {bits : Bits}
    (hpayload : t.payload m = some bits) (hp : DecodeLooksAt t p t)
    (hseq : s.blk.seq = .decode p) (htree : s.blk.tree = some t) (habort : s.blk.abortReq = false)
    (hoffer : s.env.bitIn = bits.map .bit ++ after) (hroom : m.length ≤ s.env.byteRoom)
    (hsched : s.env.schedule = List.replicate (m.length + bits.length + 1) .engine ++ rest) :
    run (m.length + bits.length + 1) s = .next
      ⟨{ ended s.blk .none false 0 with
          bitsIn := s.blk.bitsIn + BitVec.ofNat 32 bits.length
          bytesOut := s.blk.bytesOut + BitVec.ofNat 32 m.length },
        { engineTurn s.env rest with
          bitIn := after, byteOut := s.env.byteOut ++ m,
          byteRoom := s.env.byteRoom - m.length }⟩ := by
  induction m generalizing s p bits with
  | nil =>
    rw [List.length_nil, Nat.zero_add] at hsched ⊢
    obtain ⟨q, hrun⟩ := run_decode_code 0 bits hpayload hp hseq htree habort hoffer hsched
    rw [hrun, decodeAt_eof]
    simp [run, finish, endCommand, ended, engineTurn, decodeTook]
  | cons v m ih =>
    obtain ⟨code, tail, hcode, htail, rfl⟩ := payload_cons hpayload
    obtain ⟨codeEof, hcodeEof⟩ := codeOf_eof_of_payload htail
    have hne := symOfByte_ne_eof v
    have hsteps : (v :: m).length + (code ++ tail).length + 1 =
        code.length + (m.length + tail.length + 1) + 1 := by
      simp only [List.length_cons, List.length_append]
      omega
    rw [hsteps] at hsched ⊢
    rw [List.map_append, List.append_assoc] at hoffer
    obtain ⟨room, hroom', hle⟩ : ∃ room, s.env.byteRoom = room + 1 ∧ m.length ≤ room :=
      ⟨s.env.byteRoom - 1, by rw [List.length_cons] at hroom; omega⟩
    obtain ⟨q, hrun⟩ := run_decode_code _ code hcode hp hseq htree habort hoffer hsched
    rw [hrun, decodeAt_give (s := decodeTook _ _ _ _ s) habort hne hroom', byteOfSym_symOfByte]
    refine Eq.trans (ih htail (.inr ⟨rfl, rfl, isBranch_of_codes hcode hcodeEof hne⟩) rfl htree
      habort rfl hle rfl) ?_
    simp [ended, engineTurn, decodeTook, setSeq, giveByte, hroom', BitVec.ofNat_add,
      BitVec.add_assoc, BitVec.add_comm 1#32]

end

/-- Settles O57: the run from the start, where the cursor is the root. -/
theorem decodeRecoversTheMessage : Obligations.DecodeRecoversTheMessage :=
  fun _ _ m _ _ _ hpayload htree hseq habort hoffer hroom hsched =>
    run_decode (p := .start) m hpayload (.inl rfl) hseq htree habort hoffer hroom hsched

end Sys2Proof.Proofs
end

section
/-! PROOFS. No step of a good state stops the machine (O60): the three faults of log entry 8 lie
outside the invariant (R36, R58, R222, R261). -/

namespace Sys2Proof.Proofs

open Sys2Proof Sys2Proof.Machine Sys2Proof.Safety Sys2Proof.Laws

/-! ### A mapped code and a branch stop nothing -/

/-- A code that the tree has is sent bit by bit to its end (R201). -/
theorem encodeSend_next {t : Tree} {sym : Sym} {code : Bits} (h : t.codeOf sym = some code)
    (index : Nat) (s : State) : ∃ u, encodeSend t sym index s = .next u := by
  simp only [encodeSend, h]
  split
  · exact ⟨_, rfl⟩
  · split <;> exact ⟨_, rfl⟩

/-- A byte received is mapped or an error that ends ENCODE (R201, R202). -/
theorem encodeByte_next (t : Tree) (v : Byte) (s : State) : ∃ u, encodeByte t v s = .next u := by
  cases hcode : t.codeOf (symOfByte v) with
  | none => exact ⟨raise .encUnmapped (v.setWidth 32) s, by simp only [encodeByte, hcode]⟩
  | some code => simpa only [encodeByte, hcode] using encodeSend_next hcode 0 s

theorem codeOf_eof_of_valid {t : Tree} (h : t.Valid) : ∃ code, t.codeOf eof = some code :=
  Option.isSome_iff_exists.1 ((codeOf_isSome t eof).2 h.1)

/-- Every bit selects a child of a branch (R222: "left child of cur" always exists). -/
theorem child_of_isBranch {cur : Tree} (h : cur.isBranch = true) (b : Bool) :
    ∃ next, cur.child? b = some next := by
  cases cur with
  | leaf => cases h
  | branch l r => cases b <;> exact ⟨_, rfl⟩

/-! ### The engine's steps -/

section
variable {s : State} (hinv : Inv s)
include hinv

/-- WRITE_HEADER past its first step has a tree (R58). -/
theorem engineWriteHeader_next : ∃ t, engineWriteHeader s = .next t := by
  have hprog := hinv.progress
  unfold engineWriteHeader
  split
  · next pos hseq =>
    cases htree : s.blk.tree with
    | none =>
      simp only [ProgressOk, hseq, htree] at hprog
      obtain ⟨-, -, rfl⟩ := hprog
      exact ⟨_, rfl⟩
    | some t =>
      dsimp only
      split <;> exact ⟨_, rfl⟩
  · exact ⟨_, rfl⟩

/-- ENCODE past its first step has a tree, and the code it sends is one of the tree's (R36, R58). -/
theorem engineEncode_next : ∃ t, engineEncode s = .next t := by
  have hprog := hinv.progress
  unfold engineEncode
  split
  · next p hseq =>
    simp only [ProgressOk, hseq] at hprog
    obtain ⟨-, hok⟩ := hprog
    cases htree : s.blk.tree with
    | none =>
      cases p with
      | start => exact ⟨_, rfl⟩
      | got => simp [EncodeOk, htree] at hok
      | send => simp [EncodeOk, htree] at hok
    | some t =>
      cases p with
      | start => exact ⟨_, rfl⟩
      | got item =>
        cases item with
        | byte v => exact encodeByte_next t v s
        | endOfMessage =>
          obtain ⟨code, hcode⟩ := codeOf_eof_of_valid (hinv.tree_valid t htree)
          exact encodeSend_next hcode 0 s
      | send sym index =>
        obtain ⟨tr, code, htr, hcode, -⟩ := hok
        obtain rfl := Option.some.inj (htree.symm.trans htr)
        exact encodeSend_next hcode index s
  · exact ⟨_, rfl⟩

/-- DECODE past its first step has a tree, and its cursor is a branch where a bit is read (R222). -/
theorem engineDecode_next : ∃ t, engineDecode s = .next t := by
  have hprog := hinv.progress
  unfold engineDecode
  split
  · next p hseq =>
    simp only [ProgressOk, hseq] at hprog
    obtain ⟨-, hok⟩ := hprog
    cases htree : s.blk.tree with
    | none =>
      cases p with
      | start => exact ⟨_, rfl⟩
      | got => simp [DecodeOk, htree] at hok
      | emitted => simp [DecodeOk, htree] at hok
    | some t =>
      cases p with
      | start | emitted => exact ⟨_, rfl⟩
      | got cur item =>
        cases item with
        | eod => exact ⟨_, rfl⟩
        | bit b =>
          obtain ⟨-, -, -, -, hbranch⟩ := hok
          obtain ⟨next, hchild⟩ := child_of_isBranch hbranch b
          exact ⟨decodeAt next s, by simp only [hchild]⟩
  · exact ⟨_, rfl⟩

end

section
variable (s : State)

/-- READ_HEADER meets no fault in any state: its errors end the command (R177, R261). -/
theorem engineReadHeader_next : ∃ t, engineReadHeader s = .next t := by
  unfold engineReadHeader
  split
  · split
    · exact ⟨_, rfl⟩
    · split <;> exact ⟨_, rfl⟩
  · exact ⟨_, rfl⟩

theorem engineNop_next : ∃ t, engineNop s = .next t := by
  unfold engineNop
  split <;> exact ⟨_, rfl⟩

theorem engineIllegal_next : ∃ t, engineIllegal s = .next t := by
  unfold engineIllegal
  split <;> exact ⟨_, rfl⟩

theorem engineClearFreq_next : ∃ t, engineClearFreq s = .next t := by
  unfold engineClearFreq
  split <;> exact ⟨_, rfl⟩

theorem engineBuild_next : ∃ t, engineBuild s = .next t := by
  unfold engineBuild
  split <;> exact ⟨_, rfl⟩

end

/-! ### Every operation and every agent -/

/-- The host's write of a command word stops nothing, so only the engine's step could. -/
theorem commandStep_next {engine : State → Result} {s : State} (w : Word)
    (h : ∃ t, engine s = .next t) : ∃ t, commandStep w engine s = .next t := by
  rcases commandStep_cases w engine s with ⟨-, e⟩ | ⟨-, e⟩ <;> rw [e]
  · exact ⟨_, rfl⟩
  · exact h

/-- In a good state every operation has a next state, on the host's turn and on the engine's. -/
theorem exec_next {s : State} (hinv : Inv s) (i : Instr) : ∃ t, exec i s = .next t := by
  cases i with
  | nop => exact commandStep_next _ (engineNop_next s)
  | clearFreq => exact commandStep_next _ (engineClearFreq_next s)
  | build => exact commandStep_next _ (engineBuild_next s)
  | writeHeader => exact commandStep_next _ (engineWriteHeader_next hinv)
  | readHeader => exact commandStep_next _ (engineReadHeader_next s)
  | encode => exact commandStep_next _ (engineEncode_next hinv)
  | decode => exact commandStep_next _ (engineDecode_next hinv)
  | illegalOp7 | illegalOp8F | illegalRsv => exact commandStep_next _ (engineIllegal_next s)
  | setf | rdFreq | wrCodeSel | abort => exact ⟨_, rfl⟩

/-- Settles O60: the invariant does not depend on whose turn it is, so a step that runs an operation
runs it in a good state; every other step has its next state outright. -/
theorem noStepOfAGoodStateStops : Obligations.NoStepOfAGoodStateStops := by
  intro s hinv
  have hturn (turn : Turn) (rest : List AgentStep) : Inv (beginTurn turn rest s) :=
    inv_of_blk_eq hinv (beginTurn_blk _ _ _)
  unfold step
  cases s.env.schedule with
  | nil => exact ⟨_, rfl⟩
  | cons agent rest =>
    cases agent with
    | host a =>
      dsimp only
      cases decodeAccess s.env.huffBase a with
      | instr i => exact exec_next (hturn .host rest) i
      | other why => exact ⟨_, rfl⟩
    | engine =>
      dsimp only
      cases s.blk.seq.instr? with
      | some i => exact exec_next (hturn .engine rest) i
      | none => exact ⟨_, rfl⟩
    | _ => exact ⟨_, rfl⟩

end Sys2Proof.Proofs
end

section
/-! PROOFS. Command control: what accepting a command word leaves, the ends of NOP and of the illegal
commands, and where a requested abort is taken (44_control.md R240 to R247). -/

namespace Sys2Proof.Proofs

open Sys2Proof Sys2Proof.Machine Sys2Proof.Safety Sys2Proof.Laws

/-! ### The engine's turn (R242) -/

section
variable {s : State} {rest : List AgentStep} (hsched : s.env.schedule = .engine :: rest)
include hsched

/-- A running command takes its step. -/
theorem step_engine_running {i : Instr} (hi : s.blk.seq.instr? = some i) :
    step s = exec i ⟨s.blk, engineTurn s.env rest⟩ :=
  step_engine_replicate (n := 0) hsched hi

/-- An IDLE engine has no step. -/
theorem step_engine_idle (hidle : s.blk.seq = .idle) :
    step s = .next ⟨s.blk, engineTurn s.env rest⟩ := by
  simp only [step, hsched, hidle, Seq.instr?]
  rfl

end

/-- Settles O6. -/
theorem stepRunsTheRunningCommand : Obligations.StepRunsTheRunningCommand := by
  intro s rest hsched
  have running {q : Seq} {i : Instr} (hi : q.instr? = some i) (hseq : s.blk.seq = q) :
      step s = exec i ⟨s.blk, engineTurn s.env rest⟩ :=
    step_engine_running hsched (hseq ▸ hi)
  exact ⟨step_engine_idle hsched, running rfl, running rfl, running rfl, fun _ => running rfl,
    fun _ => running rfl, fun _ => running rfl, fun _ => running rfl, fun _ => running rfl⟩

/-! ### ABORT, NOP and the illegal commands -/

/-- ABORT has no effect while BUSY = 0 or with bit 0 of its data 0 (R48, R51). -/
theorem exec_abort_ignored {s : State} {data : Word}
    (h : s.blk.seq = .idle ∨ data.getLsbD 0 = false) : exec (.abort data) s = .next s := by
  have hreq : (data.getLsbD 0 && s.blk.busy) = false := by
    rcases h with hidle | hbit
    · rw [(busy_eq_false _).2 hidle, Bool.and_false]
    · rw [hbit, Bool.false_and]
  simp only [exec, execAbort, hreq, Bool.false_eq_true, if_false]

/-- Settles O22: the latch of a running command becomes its old value or bit 0. -/
theorem abortSetsTheLatchOfARunningCommand : Obligations.AbortSetsTheLatchOfARunningCommand := by
  intro data s
  refine ⟨fun hbusy hbit => ?_, exec_abort_ignored⟩
  rw [exec_abort_busy data hbusy, hbit, Bool.or_true]

section
variable {s : State} (hturn : s.env.turn = .engine)
include hturn

/-- NOP's one step, whether or not an abort is requested (R244, R246). -/
theorem exec_nop (hseq : s.blk.seq = .nop) : exec .nop s = .next (finish s) := by
  simp only [exec, execNop, commandStep_engine _ _ hturn, engineNop, hseq]

/-- The one step of an illegal command, of whichever row (R245). -/
theorem exec_illegal {i : Instr} {w : Word} (hill : isIllegal i = true)
    (hseq : s.blk.seq = .illegal w) : exec i s = .next (raise .illegalCmd w s) := by
  simp only [exec_of_isIllegal hturn hill, engineIllegal, hseq]

end

/-- Settles O24. -/
theorem nopEndsWithSuccess : Obligations.NopEndsWithSuccess :=
  fun _ hturn hseq => exec_nop hturn hseq

/-- Settles O25: the three rows share one engine step. -/
theorem illegalCommandReportsItsWord : Obligations.IllegalCommandReportsItsWord :=
  fun _ _ hturn hseq => ⟨exec_illegal hturn rfl hseq, fun _ => exec_illegal hturn rfl hseq,
    fun _ _ => exec_illegal hturn rfl hseq⟩

/-! ### Acceptance (R241) -/

/-- An operation that is a write to CMD is the command that its word selects (R123). -/
theorem decodeCommand_of_encode {i : Instr} {w : Word} (hwf : i.wellFormed = true)
    (hword : encode i = ⟨0x008, .write w⟩) : decodeCommand w = i := by
  have hdec := decodeOfEncodeIsTheInstruction i hwf
  rw [hword] at hdec
  exact Decoded.instr.inj ((decode_cmd w).symm.trans hdec)

section
variable {s : State} (hturn : s.env.turn = .host)
include hturn

/-- On the host's turn a command's step is the write of its word to CMD (R241). -/
theorem commandStep_host (w : Word) (engine : State → Result) :
    commandStep w engine s = .next (writeCmd w s) := by
  rw [commandStep, hturn]

/-- The word that selects a command is the one that the command's write carries. -/
theorem exec_decodeCommand_host (w : Word) : exec (decodeCommand w) s = .next (writeCmd w s) := by
  have hword := congrArg Txn.op (encode_decodeCommand w)
  rcases decodeCommand_is_command w with hi | ⟨low, hi⟩ | ⟨rsv, op, hi⟩
  on_goal 1 =>
    simp only [List.mem_cons, List.not_mem_nil, or_false] at hi
    rcases hi with hi | hi | hi | hi | hi | hi | hi | hi
  all_goals
    rw [hi] at hword ⊢
    cases hword
    exact commandStep_host hturn _ _

end

/-- Every word that selects an illegal row starts the illegal command, which keeps the word (R245). -/
theorem seqOfWord_illegal {w : Word} (h : isIllegal (decodeCommand w) = true) :
    seqOfWord w = .illegal w := by
  unfold seqOfWord
  split <;> simp_all [isIllegal]

/-- Acceptance clears the tree for BUILD and READ_HEADER alone (R58, R241). -/
theorem clearsTree_iff {i : Instr} {w : Word} (hwf : i.wellFormed = true)
    (hword : encode i = ⟨0x008, .write w⟩) :
    clearsTree w = true ↔ i = .build ∨ i = .readHeader := by
  refine ⟨clearsTree_word hwf hword, ?_⟩
  rintro (rfl | rfl) <;> cases hword <;> decide

/-- An accepted command runs: no word starts an IDLE engine (R33, R241). -/
theorem seqOfWord_ne_idle (w : Word) : seqOfWord w ≠ .idle := fun hidle => by
  have hinstr := seqOfWord_instr w
  rw [hidle] at hinstr
  cases hinstr

/-- Settles O23: the operation is the one that its word selects, so its step is the write of that
word to CMD, accepted while BUSY = 0 and dropped while BUSY = 1. -/
theorem acceptanceStartsTheCommand : Obligations.AcceptanceStartsTheCommand := by
  intro i w s hwf hword hturn
  have hdec : decodeCommand w = i := decodeCommand_of_encode hwf hword
  have hexec : exec i s = .next (writeCmd w s) := hdec ▸ exec_decodeCommand_host hturn w
  refine ⟨fun hidle => ⟨acceptCommand w s, ?accepted, rfl, hdec ▸ seqOfWord_instr w, ?_, ?_, ?_, ?_,
    ?_, ?_, ?_, fun hill => seqOfWord_illegal (hdec ▸ hill), ?busy, rfl, rfl, rfl, rfl, rfl, rfl, rfl,
    rfl, rfl, rfl, rfl, ?tree, rfl, rfl⟩, fun hbusy => ?dropped⟩
  case accepted => rw [hexec, writeCmd, writeWhenIdle_of_idle _ hidle]
  case busy => exact (busy_eq_true _).2 (seqOfWord_ne_idle w)
  case tree => simp only [acceptCommand_tree, clearsTree_iff hwf hword]
  case dropped =>
    rw [hexec, writeCmd, writeWhenIdle_of_busy _ hbusy]
    rfl
  all_goals
    rintro rfl
    simp only [acceptCommand_seq, seqOfWord, hdec]

/-- An illegal word does not clear the tree, whatever its opcode bits (R58). -/
theorem not_clearsTree_of_isIllegal {w : Word} (h : isIllegal (decodeCommand w) = true) :
    clearsTree w = false := by
  rw [Bool.eq_false_iff, ne_eq, clearsTree_iff (decodeCommand_wellFormed w) (encode_decodeCommand w)]
  rintro (hi | hi) <;> rw [hi] at h <;> cases h

/-- Every word but the seven legal ones selects an illegal row (R112). -/
theorem isIllegal_decodeCommand {w : Word}
    (h : w.extractLsb' 4 28 ≠ 0 ∨ 7 ≤ (w.extractLsb' 0 4).toNat) :
    isIllegal (decodeCommand w) = true := by
  obtain ⟨-, -, -, -, -, -, -, hill⟩ := commandWordSelectsItsOpcode w
  exact hill.2 h

/-- Settles O26: the host's step is the acceptance of the word, and the engine's step reports it. -/
theorem illegalWordChangesOnlyStatus : Obligations.IllegalWordChangesOnlyStatus := by
  intro s w rest hidle hw hnext
  have hill : isIllegal (decodeCommand w) = true := isIllegal_decodeCommand hw
  have hhost : step s = .next (acceptCommand w ⟨s.blk, hostTurn s.env (.engine :: rest)⟩) := by
    rw [step_write (r := .cmd) (by decide) hnext rfl, exec_decodeCommand_host rfl]
    exact congrArg _ (writeWhenIdle_of_idle _ hidle)
  rw [run_succ hhost, run_succ ((step_engine_running rfl (seqOfWord_instr w)).trans
    (exec_illegal rfl hill (seqOfWord_illegal hill)))]
  simp [run, raise, endCommand, acceptCommand, not_clearsTree_of_isIllegal hill, hidle, engineTurn,
    hostTurn]

/-! ### Only a write to CMD starts a command (R240) -/

/-- An access that is an operation is a 32-bit one inside the window, of the operation's transaction
(R80 to R82, R123). -/
theorem decodeAccess_eq_instr {base : Nat} {a : Access} {i : Instr}
    (h : decodeAccess base a = .instr i) :
    base ≤ a.addr ∧ a.addr < base + 2048 ∧ a.width = .word ∧
      encode i = ⟨BitVec.ofNat 11 (a.addr - base), a.op⟩ := by
  unfold decodeAccess at h
  split at h
  · cases h
  · next hin =>
    split at h
    · cases h
    · next hwidth =>
      simp only [Config.windowBytes] at hin
      exact ⟨by omega, by omega, not_not.1 hwidth, (encodeOfDecodeIsTheTransaction _ _ h).1⟩

/-- An access that is a command is the aligned 32-bit write of the command's word to CMD. -/
theorem eq_cmdWrite_of_decodeAccess {base : Nat} {a : Access} {i : Instr} {w : Word}
    (hdec : decodeAccess base a = .instr i) (hword : encode i = ⟨0x008, .write w⟩) :
    a = ⟨base + 0x008, .word, .write w⟩ := by
  obtain ⟨addr, width, op⟩ := a
  obtain ⟨hlow, hhigh, hwidth, hencode⟩ := decodeAccess_eq_instr hdec
  obtain ⟨hoff, hop⟩ := Txn.mk.inj (hword.symm.trans hencode)
  have haddr : addr = base + 8 := by
    have hmod : 8 = (addr - base) % 2048 := congrArg BitVec.toNat hoff
    dsimp only at hlow hhigh
    omega
  rw [Access.mk.injEq]
  exact ⟨haddr, hwidth, hop.symm⟩

/-- No engine step starts a command: an IDLE engine has none (R242). -/
theorem not_engineEffect_of_idle {s t : State} (hidle : s.blk.seq = .idle) :
    ¬ EngineEffect s t := by
  intro h
  cases h with
  | ended e info hnow => exact not_endsNow_idle hidle hnow
  | _ => simp_all

/-- Settles O36: of what a step can do to an IDLE block, only the acceptance of a word takes it out
of IDLE. -/
theorem onlyACmdWriteStartsACommand : Obligations.OnlyACmdWriteStartsACommand := by
  intro s t h hidle hstarted
  rcases step_cases h with hsame | ⟨rest, -, hreset⟩ | ⟨a, rest, i, hsched, hdec, heff⟩ |
    ⟨rest, -, heff⟩
  · exact absurd (hsame ▸ hidle) hstarted
  · exact absurd (hreset ▸ rfl) hstarted
  · cases heff with
    | same hblk => exact absurd (hblk ▸ hidle) hstarted
    | accepted w _ hword =>
      obtain rfl := eq_cmdWrite_of_decodeAccess hdec hword
      exact ⟨rest, w, hsched⟩
    | dropped | counted | selected | aborting => exact absurd hidle hstarted
  · exact absurd heff (not_engineEffect_of_idle hidle)

/-! ### A requested abort is taken in place of a transaction, partner or not (R246) -/

section
variable {s : State} (habort : s.blk.abortReq = true)
include habort

theorem inBit_abort (k : BitItem → Seq) : inBit k s = raise .aborted 0 s := if_pos habort

theorem inByte_abort (k : ByteItem → Seq) : inByte k s = raise .aborted 0 s := if_pos habort

theorem outBit_abort (b : Bool) (k : Seq) : outBit b k s = raise .aborted 0 s := if_pos habort

theorem outByte_abort (v : Byte) (k : Seq) : outByte v k s = raise .aborted 0 s := if_pos habort

/-- At every node but the EOF leaf DECODE would perform a transaction (R222). -/
theorem decodeAt_abort {cur : Tree} (hne : cur ≠ .leaf eof) :
    decodeAt cur s = raise .aborted 0 s := by
  cases cur with
  | leaf sym =>
    rw [decodeAt_byte s fun heof => hne (heof ▸ rfl), outByte_abort habort]
  | branch l r => exact inBit_abort habort _

/-- Sending a code performs a transaction, a bit or the next item, but after the EOF code (R201). -/
theorem encodeSend_abort {t : Tree} {sym : Sym} {index : Nat} {code : Bits}
    (hcode : t.codeOf sym = some code) (hmore : index < code.length ∨ sym ≠ eof) :
    encodeSend t sym index s = .next (raise .aborted 0 s) := by
  by_cases hlt : index < code.length
  · rw [encodeSend_bit hcode hlt, outBit_abort habort]
  · rw [encodeSend_byte_sent hcode (Nat.le_of_not_lt hlt) (hmore.resolve_left hlt), encodeInByte,
      inByte_abort habort]

variable (hturn : s.env.turn = .engine)
include hturn

theorem exec_writeHeader_abort {t : Tree} {pos : Nat} (hseq : s.blk.seq = .writeHeader pos)
    (htree : s.blk.tree = some t) (hlt : pos < t.hdr.length) :
    exec .writeHeader s = .next (raise .aborted 0 s) := by
  rw [exec_writeHeader_bit hturn hseq htree (List.getElem?_eq_getElem hlt), outBit_abort habort]

theorem exec_readHeader_abort {p q : ReadProgress} (hseq : s.blk.seq = .readHeader p)
    (hmore : readResult p = .more q) : exec .readHeader s = .next (raise .aborted 0 s) := by
  rw [exec_readHeader hturn hseq, hmore]
  exact congrArg _ (inBit_abort habort _)

theorem exec_encode_start_abort {t : Tree} (hseq : s.blk.seq = .encode .start)
    (htree : s.blk.tree = some t) : exec .encode s = .next (raise .aborted 0 s) := by
  rw [exec_encode_start hturn hseq htree, encodeInByte, inByte_abort habort]

theorem exec_encode_send_abort {t : Tree} {p : EncodeProgress} {sym : Sym} {index : Nat}
    {code : Bits} (hseq : s.blk.seq = .encode p) (htree : s.blk.tree = some t)
    (hp : EncodeSends p sym index) (hcode : t.codeOf sym = some code)
    (hmore : index < code.length ∨ sym ≠ eof) :
    exec .encode s = .next (raise .aborted 0 s) := by
  rw [exec_encode_send hturn hseq htree hp hcode, encodeSend_abort habort hcode hmore]

theorem exec_decode_abort {t cur : Tree} {p : DecodeProgress} (hseq : s.blk.seq = .decode p)
    (htree : s.blk.tree = some t) (hcur : DecodeCursor t p cur) (hne : cur ≠ .leaf eof) :
    exec .decode s = .next (raise .aborted 0 s) := by
  rw [exec_decode_at hturn hseq htree hcur, decodeAt_abort habort hne]

theorem exec_decode_emitted_abort {t : Tree} (hseq : s.blk.seq = .decode .emitted)
    (htree : s.blk.tree = some t) : exec .decode s = .next (raise .aborted 0 s) := by
  rw [exec_decode_emitted hturn hseq htree, decodeInBit, inBit_abort habort]

end

/-- Settles O30: each position by its abort lemma, and the ends by the lemmas that do not ask for an
abort. -/
theorem abortIsTakenBeforeATransaction : Obligations.AbortIsTakenBeforeATransaction := by
  intro s t hturn habort
  refine ⟨fun pos htree hseq => ⟨exec_writeHeader_abort habort hturn hseq htree,
      exec_writeHeader_end hturn hseq htree⟩, fun p hseq hp => ?_, ?_, ?_, ?_,
    fun htree hseq => exec_decode_emitted_abort habort hturn hseq htree⟩
  · rcases hp with hpend | ⟨it, q, hpend, hmore⟩
    · exact exec_readHeader_abort habort hturn hseq (readResult_first hpend)
    · exact exec_readHeader_abort habort hturn hseq ((readResult_item hpend).trans hmore)
  · rintro htree (hseq | ⟨sym, index, code, hseq, hcode, hmore⟩ | ⟨v, code, hseq, hcode⟩ |
      ⟨code, hseq, hcode, hne⟩)
    · exact exec_encode_start_abort habort hturn hseq htree
    · exact exec_encode_send_abort habort hturn hseq htree ⟨rfl, rfl⟩ hcode hmore
    · exact exec_encode_send_abort habort hturn hseq htree ⟨rfl, rfl⟩ hcode
        (.inr (symOfByte_ne_eof v))
    · exact exec_encode_send_abort habort hturn hseq htree ⟨rfl, rfl⟩ hcode
        (.inl (List.length_pos_iff.2 hne))
  · rintro code htree hcode (⟨index, hseq, hle⟩ | ⟨hseq, rfl⟩)
    · exact exec_encode_end hturn hseq htree ⟨index, code, ⟨rfl, rfl⟩, hcode, hle⟩
    · exact exec_encode_end hturn hseq htree ⟨0, [], ⟨rfl, rfl⟩, hcode, le_rfl⟩
  · have looks {p : DecodeProgress} {next : Tree} (htree : s.blk.tree = some t)
        (hseq : s.blk.seq = .decode p) (hcur : DecodeCursor t p next) :
        (next ≠ .leaf eof → exec .decode s = .next ⟨ended s.blk .aborted true 0, s.env⟩) ∧
          (next = .leaf eof → exec .decode s = .next ⟨ended s.blk .none false 0, s.env⟩) :=
      ⟨exec_decode_abort habort hturn hseq htree hcur,
        fun heof => exec_decode_end hturn hseq htree (heof ▸ hcur)⟩
    rintro next htree (⟨hseq, rfl⟩ | ⟨cur, b, hseq, hchild⟩)
    · exact looks htree hseq rfl
    · exact looks htree hseq hchild

/-! ### A requested abort ends the command at the next step (R246, R247) -/

/-- `t` is `s` after a step in which the running command ended by its own rule: with any outcome but
ABORTED, and with its result in the tree store or the FREQ file, if it has one. -/
def OwnEnd (s t : State) : Prop :=
  ∃ (e : ErrorCode) (info : Word) (tree : Option Tree) (freq : Vector Word 256), e ≠ .aborted ∧
    t = endCommand e info { s with blk := { s.blk with tree := tree, freq := freq } }

theorem ownEnd_endCommand (s : State) {e : ErrorCode} (info : Word) (hne : e ≠ .aborted) :
    OwnEnd s (endCommand e info s) := ⟨e, info, _, _, hne, rfl⟩

theorem ownEnd_finish (s : State) : OwnEnd s (finish s) := ownEnd_endCommand s 0 (by decide)

/-- A complete subtree is never a format error (R176). -/
theorem plugTree_ne_bad (t : Tree) (seen : List Sym) (nbr : Nat) (outer : List (Option Tree))
    (e : ErrorCode) (info : Word) : plugTree t seen nbr outer ≠ .bad e info := by
  induction outer generalizing t with
  | nil => simp [plugTree]
  | cons l outer ih => cases l <;> simp [plugTree, ih]

/-- No format error of a header is an abort (R177). -/
theorem readItem_bad_ne_aborted {p : ReadProgress} {it : BitItem} {e : ErrorCode} {info : Word}
    (h : readItem p it = .bad e info) : e ≠ .aborted := by
  cases it with
  | eod =>
    cases h
    decide
  | bit b =>
    cases hfield : p.field with
    | none =>
      simp only [readItem, hfield] at h
      split at h
      · cases h
      · split at h <;> cases h
        decide
    | some bits =>
      simp only [readItem, hfield] at h
      split at h
      · cases h
      · unfold readLeaf at h
        split at h
        · split at h
          · cases h
            decide
          · exact absurd h (plugTree_ne_bad _ _ _ _ _ _)
        · cases h
          decide

/-- What READ_HEADER does with an item that leaves nothing more to read is an end of its own. -/
theorem ownEnd_actOn {s : State} {p : ReadProgress} {it : BitItem}
    (hend : ∀ q, readItem p it ≠ .more q) : OwnEnd s (actOn (readItem p it) s) := by
  cases hitem : readItem p it with
  | more q => exact absurd hitem (hend q)
  | complete t seen =>
    rw [actOn, readHeaderEnd]
    split
    · exact ⟨.none, 0, some t, s.blk.freq, by decide, rfl⟩
    · exact ownEnd_endCommand s 0 (by decide)
  | bad e info => exact ownEnd_endCommand s info (readItem_bad_ne_aborted hitem)

/-! A command that works on a tree and has none stands at its start, where TREE_VALID is tested. -/

theorem encodeOk_none {p : EncodeProgress} (h : EncodeOk none p) : p = .start := by
  cases p <;> simp_all [EncodeOk]

theorem decodeOk_none {p : DecodeProgress} (h : DecodeOk none p) : p = .start := by
  cases p <;> simp_all [DecodeOk]

section
variable {s : State} (hturn : s.env.turn = .engine)
include hturn

theorem exec_writeHeader_ownEnd {pos : Nat} (hseq : s.blk.seq = .writeHeader pos)
    (hprog : ProgressOk s.blk) (hnow : endsNow s.blk) :
    ∃ t, exec .writeHeader s = .next t ∧ OwnEnd s t := by
  simp only [ProgressOk, hseq] at hprog
  cases htree : s.blk.tree with
  | none =>
    obtain ⟨-, -, hpos⟩ := hprog
    simp only [htree] at hpos
    obtain ⟨hnoTree, -, -⟩ := noTreeEndsTheCommandAtItsFirstStep s hturn htree
    exact ⟨_, hnoTree (hpos ▸ hseq), ownEnd_endCommand s 0 (e := .noTree) (by decide)⟩
  | some t =>
    exact ⟨_, exec_writeHeader_end hturn hseq htree ((endsNow_writeHeader hseq htree).1 hnow),
      ownEnd_finish s⟩

theorem exec_encode_ownEnd {p : EncodeProgress} (hseq : s.blk.seq = .encode p)
    (hprog : ProgressOk s.blk) (hnow : endsNow s.blk) :
    ∃ t, exec .encode s = .next t ∧ OwnEnd s t := by
  simp only [ProgressOk, hseq] at hprog
  cases htree : s.blk.tree with
  | none =>
    obtain ⟨-, hok⟩ := hprog
    obtain rfl := encodeOk_none (htree ▸ hok)
    obtain ⟨-, hnoTree, -⟩ := noTreeEndsTheCommandAtItsFirstStep s hturn htree
    exact ⟨_, hnoTree hseq, ownEnd_endCommand s 0 (e := .noTree) (by decide)⟩
  | some t =>
    cases p with
    | start => simp [endsNow, hseq, htree] at hnow
    | got item =>
      cases item with
      | byte v =>
        have hcode : t.codeOf (symOfByte v) = none := by simpa [endsNow, hseq, htree] using hnow
        exact ⟨_, exec_encode_unmapped hturn hseq htree hcode, ownEnd_endCommand s _ (by decide)⟩
      | endOfMessage =>
        have hcode : t.codeOf eof = some [] := by simpa [endsNow, hseq, htree] using hnow
        exact ⟨_, exec_encode_end hturn hseq htree ⟨0, [], ⟨rfl, rfl⟩, hcode, le_rfl⟩,
          ownEnd_finish s⟩
    | send sym index =>
      obtain ⟨rfl, code, hcode, hle⟩ := (endsNow_encode_send hseq htree).1 hnow
      exact ⟨_, exec_encode_end hturn hseq htree ⟨index, code, ⟨rfl, rfl⟩, hcode, hle⟩,
        ownEnd_finish s⟩

theorem exec_decode_ownEnd {p : DecodeProgress} (hseq : s.blk.seq = .decode p)
    (hprog : ProgressOk s.blk) (hnow : endsNow s.blk) :
    ∃ t, exec .decode s = .next t ∧ OwnEnd s t := by
  simp only [ProgressOk, hseq] at hprog
  cases htree : s.blk.tree with
  | none =>
    obtain ⟨-, hok⟩ := hprog
    obtain rfl := decodeOk_none (htree ▸ hok)
    obtain ⟨-, -, hnoTree⟩ := noTreeEndsTheCommandAtItsFirstStep s hturn htree
    exact ⟨_, hnoTree hseq, ownEnd_endCommand s 0 (e := .noTree) (by decide)⟩
  | some t =>
    cases p with
    | start =>
      have heof := (endsNow_decode_cursor hseq htree (rfl : DecodeCursor t .start t)).1 hnow
      exact ⟨_, exec_decode_end hturn hseq htree heof.symm, ownEnd_finish s⟩
    | emitted => simp [endsNow, hseq, htree] at hnow
    | got cur item =>
      cases item with
      | eod =>
        exact ⟨_, decodeReportsATruncatedStream s t cur hturn htree hseq,
          ownEnd_endCommand s 0 (e := .decTruncated) (by decide)⟩
      | bit b =>
        exact ⟨_, exec_decode_end hturn hseq htree ((endsNow_decode_bit hseq htree).1 hnow),
          ownEnd_finish s⟩

/-- Where a command's own rule ends it, the step is that end, abort or not (R246 (c)). -/
theorem exec_ownEnd {i : Instr} (hprog : ProgressOk s.blk) (hi : s.blk.seq.instr? = some i)
    (hnow : endsNow s.blk) : ∃ t, exec i s = .next t ∧ OwnEnd s t := by
  cases hseq : s.blk.seq with
  | idle => exact absurd hnow (not_endsNow_idle hseq)
  | nop =>
    obtain rfl : Instr.nop = i := by simpa [hseq, Seq.instr?] using hi
    exact ⟨_, exec_nop hturn hseq, ownEnd_finish s⟩
  | clearFreq =>
    obtain rfl : Instr.clearFreq = i := by simpa [hseq, Seq.instr?] using hi
    exact ⟨_, exec_clearFreq hturn hseq, .none, 0, s.blk.tree, _, by decide, rfl⟩
  | build =>
    obtain rfl : Instr.build = i := by simpa [hseq, Seq.instr?] using hi
    exact ⟨_, exec_build hturn hseq, .none, 0, _, s.blk.freq, by decide, rfl⟩
  | writeHeader pos =>
    obtain rfl : Instr.writeHeader = i := by simpa [hseq, Seq.instr?] using hi
    exact exec_writeHeader_ownEnd hturn hseq hprog hnow
  | readHeader p =>
    obtain rfl : Instr.readHeader = i := by simpa [hseq, Seq.instr?] using hi
    obtain ⟨it, hpend, hend⟩ : ∃ it, p.pending = some it ∧ ∀ q, readItem p it ≠ .more q := by
      simpa only [endsNow, hseq] using hnow
    exact ⟨_, (exec_readHeader hturn hseq).trans (by rw [readResult_item hpend]), ownEnd_actOn hend⟩
  | encode p =>
    obtain rfl : Instr.encode = i := by simpa [hseq, Seq.instr?] using hi
    exact exec_encode_ownEnd hturn hseq hprog hnow
  | decode p =>
    obtain rfl : Instr.decode = i := by simpa [hseq, Seq.instr?] using hi
    exact exec_decode_ownEnd hturn hseq hprog hnow
  | illegal w =>
    obtain rfl : decodeCommand w = i := by simpa [hseq, Seq.instr?] using hi
    exact ⟨_, exec_illegal_of_endsNow hturn hseq hnow, ownEnd_endCommand s w (by decide)⟩

end

/-- Everywhere else the step is the one transaction of the command, whose place the abort takes. -/
theorem engineEffect_abort {s t : State} (habort : s.blk.abortReq = true)
    (hprog : ProgressOk s.blk) (hnot : ¬ endsNow s.blk) (h : EngineEffect s t) :
    t = raise .aborted 0 s := by
  cases h with
  | ended e info hnow => exact absurd hnow hnot
  | cleared hseq => exact absurd (by simp [endsNow, hseq]) hnot
  | built hseq => exact absurd (by simp [endsNow, hseq]) hnot
  | readWhole p it tr seen hseq hpend hcomplete =>
    exact absurd (by simp [endsNow, hseq, hpend, hcomplete]) hnot
  | stuck w hseq =>
    simp only [ProgressOk, hseq] at hprog
    obtain ⟨-, hw⟩ := hprog
    exact absurd (by simpa only [endsNow, hseq] using isIllegal_decodeCommand hw) hnot
  | headerBit | encodeBit => exact outBit_abort habort _ _
  | readFirst | readNext | decodeRoot | decodeRead => exact inBit_abort habort _
  | encodeRead => exact inByte_abort habort _
  | decodeByte => exact outByte_abort habort _ _

/-- Settles O31: the command's own rule ends it, or else the abort does. -/
theorem abortRequestEndsTheCommandAtItsNextStep :
    Obligations.AbortRequestEndsTheCommandAtItsNextStep := by
  intro s t rest hinv habort hbusy hsched hstep
  rcases step_engine_cases hsched hstep with ⟨hidle, -⟩ | ⟨i, hi, hexec⟩
  · exact absurd hidle hbusy
  by_cases hnow : endsNow s.blk
  · obtain ⟨u, hu, hown⟩ :=
      exec_ownEnd (s := ⟨s.blk, engineTurn s.env rest⟩) rfl hinv.progress hi hnow
    obtain rfl : t = u := Host.Outcome.next.inj (hexec.symm.trans hu)
    obtain ⟨e, info, tree, freq, hne, rfl⟩ := hown
    exact ⟨rfl, e, e != .none, info, rfl, fun haborted => absurd haborted hne⟩
  · obtain rfl := engineEffect_abort (s := ⟨s.blk, engineTurn s.env rest⟩) habort hinv.progress hnow
      (exec_engineEffect rfl hi hexec)
    exact ⟨rfl, .aborted, true, 0, rfl, fun _ => ⟨rfl, rfl, rfl, rfl⟩⟩

end Sys2Proof.Proofs
end

section
/-! PROOFS. The reset input: its step is the reset of the block, and only the schedule moves outside
(70_reset_and_hazards.md R290, R291). -/

namespace Sys2Proof.Proofs

open Sys2Proof Sys2Proof.Machine

/-- A step that does not change whose turn it is only takes the agent off the schedule. -/
theorem beginTurn_sameTurn (s : State) (rest : List AgentStep) :
    beginTurn s.env.turn rest s = ⟨s.blk, { s.env with schedule := rest }⟩ := rfl

/-- The reset input's step, in any state of the block and of the agents (R290). -/
theorem step_reset {s : State} {rest : List AgentStep} (hsched : s.env.schedule = .reset :: rest) :
    step s = .next (resetBlock ⟨s.blk, { s.env with schedule := rest }⟩) := by
  simp only [step, hsched, outsideStep, beginTurn_sameTurn]

/-- Settles O18: `resetBlock` replaces the block and keeps everything outside it (R291). -/
theorem resetInputResetsOnlyTheBlock : Obligations.ResetInputResetsOnlyTheBlock := by
  intro s rest hsched
  calc step s
      = .next (resetBlock ⟨s.blk, { s.env with schedule := rest }⟩) := step_reset hsched
    _ = .next ⟨State.reset.blk, { s.env with schedule := rest }⟩ := rfl

end Sys2Proof.Proofs
end
